-- ==== Sys2Proof/Word.lean ====
section
/-! DEFINITION. The two widths of the machine's values (00_scope.md rule R6): bytes and 16-bit words. -/

namespace Sys2Proof

/-- An 8-bit value: a register, a memory cell, an instruction byte (rule R6). -/
abbrev Byte := BitVec 8

/-- A 16-bit value: the program counter, DPTR, a program or external address (rule R6). -/
abbrev Word := BitVec 16

end Sys2Proof
end

