-- ==== Sys2Proof/Config.lean ====
section
/-! DEFINITION. The parameters of 00_scope.md rule R3 that an implementation or a board fixes, as plain data, and the
source of drawn bytes (the parameters that a platform may give as functions of the state follow its definition in
Machine/State.lean). The parameters stand in the state (field plat), so that a statement about every state is a statement
about every platform. -/

namespace Sys2Proof

/-- Parameter IRAM_SIZE of rule R3: how many bytes of internal RAM the part has. -/
inductive IramSize where
  | cells128
  | cells256
  deriving DecidableEq, Repr

/-- The number of internal RAM cells (rule R28). -/
def IramSize.count : IramSize → Nat
  | .cells128 => 128
  | .cells256 => 256

/-- Parameter XDATA of rule R3, first half: is the external data memory plain RAM, or devices of which the spec
assumes nothing (20_memory.md rule R62)? -/
inductive XdataKind where
  /-- A read returns the byte last written; an address never written holds no value. -/
  | plainRam
  /-- A read returns a free byte; a write goes to the device, and only the bus log shows it. -/
  | oracle
  deriving DecidableEq, Repr

/-- The four ports P0 to P3 (10_state.md rule R31). -/
inductive Port where
  | p0
  | p1
  | p2
  | p3
  deriving DecidableEq, Repr

/-- What the board connects one high-order address line to, for MOVX @Ri (20_memory.md rule R82: "any output port
pins"). -/
inductive PageLine where
  /-- A bit of a port's output latch. -/
  | latch (port : Port) (bit : Fin 8)
  /-- The level at a port pin. -/
  | pin (port : Port) (bit : Fin 8)
  /-- A fixed level. -/
  | level (high : Bool)
  deriving DecidableEq, Repr

/-- Parameter XPAGE of rule R3, a function from the state to the byte used as address bits 15..8 of MOVX @Ri (20_memory.md
rule R82): the default, two forms that a board states as data, and any function whatever. -/
inductive XPage where
  /-- The P2 latch, the default (92_eei_decisions.md D13). -/
  | p2Latch
  /-- The same byte always. -/
  | fixed (page : Byte)
  /-- Address line 8 + k is wired as the k-th entry says. -/
  | wired (lines : Vector PageLine 8)
  /-- The board's own function of the state, Config.boardPage. -/
  | board
  deriving DecidableEq, Repr

/-- Parameter P0_XBUS of rule R3: what a MOVX leaves in the P0 latch (20_memory.md rule R82). -/
inductive P0Xbus where
  | unchanged
  | draw
  deriving DecidableEq, Repr

/-- Parameter END_OF_RUN of rule R3, a predicate on the state (60_exceptions.md rule R276). DESIGN CHOICE
(notes/assumptions/16.md): of the predicates three have a name here, every other one is the opaque Config.boardEndOfRun.
The default is the self loop (92_eei_decisions.md D23). -/
inductive EndOfRun where
  /-- No state ends the run. -/
  | never
  /-- The default of decision D23: an SJMP to itself at pc, nothing pending now or ever after, RetiShadow false. -/
  | selfLoop
  /-- The predicate of rule R276, by its own words: an SJMP to itself at pc, nothing pending now, RetiShadow false. -/
  | selfLoopNow
  /-- The platform's own predicate on the state, Config.boardEndOfRun. -/
  | board
  deriving DecidableEq, Repr

/-- One bit of a special function register, named by its direct address. -/
structure FlagBit where
  addr : Byte
  bit : Fin 8
  deriving DecidableEq, Repr

/-- A change of the platform's request flags and of other bits of its registers, by the environment or by Irq.ack: source
numbers that begin and cease to request, and bits that are set or cleared, the last change of a bit winning. -/
structure FlagChange where
  raise : List Nat
  withdraw : List Nat
  bits : List (FlagBit × Bool)
  deriving DecidableEq, Repr, Inhabited

/-- When a source counts in Irq.pending(state, environment), that is, requests and is enabled (60_exceptions.md rule
R262): a rule that a platform states as data, or any function of the state whatever. -/
inductive IrqPending where
  /-- The environment requests the source by its number (if byRequest is set), and each of the bits is 1: an enable bit
  that the program writes, or a request flag that is a bit of a register. -/
  | rule (byRequest : Bool) (bits : List FlagBit)
  /-- The platform's own function, Config.boardPending. -/
  | board
  deriving DecidableEq, Repr

/-- Irq.ack(s), the effect on the platform's request flags when the source is taken (rule R262). -/
inductive IrqAck where
  /-- The same change always. -/
  | change (c : FlagChange)
  /-- The platform's own function of the state, Config.boardAck. -/
  | board
  deriving DecidableEq, Repr

/-- One interrupt source of the parameter Irq (60_exceptions.md rule R262). The list of sources is in the order
Irq.order: among sources of one level the earlier one goes first. -/
structure IrqSource where
  /-- The number under which requests name the source. -/
  id : Nat
  /-- Irq.vector. -/
  vector : Word
  /-- Irq.level: higher is more urgent. -/
  level : Nat
  /-- Its part of Irq.pending. -/
  pending : IrqPending
  /-- Irq.ack. -/
  ack : IrqAck
  deriving DecidableEq, Repr

/-- The platform parameters of rule R3 that no instruction and no environment input changes. -/
structure Platform where
  iramSize : IramSize
  xdataKind : XdataKind
  xpage : XPage
  p0Xbus : P0Xbus
  irqSources : List IrqSource
  /-- The number of priority levels of the parameter Irq: the levels are those below it. No rule reads it; that the
  sources keep to it is Machine.sourcesKeepLevels. -/
  irqLevels : Nat
  endOfRun : EndOfRun
  deriving DecidableEq, Repr

/-- The defaults of rule R3 where it gives one (IRAM_SIZE, XPAGE, P0_XBUS) and of 92_eei_decisions.md D23 (END_OF_RUN);
where the spec gives none, plain external RAM and no interrupt source (notes/assumptions/5.md). DESIGN CHOICE, unsafe. -/
def Platform.default : Platform where
  iramSize := .cells256
  xdataKind := .plainRam
  xpage := .p2Latch
  p0Xbus := .draw
  irqSources := []
  irqLevels := 0
  endOfRun := .selfLoop

/-- Where the spec says draw8() (00_scope.md rule R8) or leaves a device's answer to the platform. -/
inductive DrawSite where
  /-- A after DIV AB with B = 0 (40_arithmetic.md rule R144). -/
  | divQuotient
  /-- B after DIV AB with B = 0 (rule R144). -/
  | divRemainder
  /-- The P0 latch after a MOVX (20_memory.md rule R82). -/
  | p0Latch
  /-- What an oracle device answers to MOVX (rule R62). -/
  | xdataRead (addr : Word)
  /-- What an oracle register of SfrDevice answers to an ordinary read (rule R81). -/
  | sfrRead (addr : Byte)
  /-- What an oracle register of SfrDevice answers to a latch read (rule R81). -/
  | sfrReadLatch (addr : Byte)
  deriving DecidableEq, Repr

/-- draw8() of rule R8: an arbitrary byte, under no law, for a site and the number of the instruction that draws.
It has no body: nothing can be proved of its value (notes/assumptions/3.md). -/
opaque Config.draw8 : DrawSite → Nat → Byte

end Sys2Proof
end

