-- ==== Sys2Proof/Machine/State.lean ====
section
/-! DEFINITION. The state of the machine (10_state.md rule R20), the environment's inputs to it as plain data, the
reasons a step can stop, and the state after reset (rule R40). -/

namespace Sys2Proof.Machine

/-- A memory: the cells that hold a value, as (address, byte) pairs with strictly rising addresses. An address that is
not listed holds no value (10_state.md rule R41, 20_memory.md rules R61, R62), so no entry can equal what an unlisted
address reads as, and equal memories are equal lists. -/
abbrev Memory := List Host.Cell

/-- One byte for each port: the output data latches, or the levels at the input pins (rule R31). -/
structure Ports where
  p0 : Byte
  p1 : Byte
  p2 : Byte
  p3 : Byte
  deriving DecidableEq, Repr

/-- How a register of the platform's SfrDevice answers (00_scope.md rule R3, 20_memory.md rule R81). -/
inductive DeviceKind where
  /-- Both reads answer what was last written. -/
  | register
  /-- A further port: an ordinary read answers its input, a latch read what was last written. -/
  | port
  /-- A device of which nothing is assumed: reads answer free bytes, a write shows only in the bus log. -/
  | oracle
  deriving DecidableEq, Repr

/-- One register of the platform's SfrDevice. -/
structure DeviceReg where
  /-- Its direct address. An address of one of the ten core registers is the core's, whatever is listed here. -/
  addr : Byte
  kind : DeviceKind
  /-- What was last written; of an oracle, which keeps nothing of what a program writes, the bits that the environment lets
  Irq.pending see (notes/assumptions/10.md). -/
  latch : Byte
  /-- What its input shows, for a port. -/
  input : Byte
  deriving DecidableEq, Repr

/-- What the environment does at one instruction boundary (60_exceptions.md rules R262, R273, R277). -/
structure EnvInput where
  /-- New levels at the pins of P0 to P3, if they change. -/
  pins : Option Ports
  /-- Interrupt sources that begin or cease to request, and bits of SfrDevice registers that the hardware sets or clears. -/
  flags : FlagChange
  /-- New inputs of SfrDevice ports: (direct address, byte). -/
  deviceInputs : List (Byte × Byte)
  deriving DecidableEq, Repr

/-- A write that an oracle device received. -/
inductive BusWrite where
  /-- MOVX wrote to an external device (20_memory.md rule R62). -/
  | xdata (addr : Word) (value : Byte)
  /-- A direct or bit write reached an oracle register of SfrDevice (rule R81). -/
  | sfr (addr : Byte) (value : Byte)
  deriving DecidableEq, Repr

/-- Why the machine stops with a fault. None of these is an event of the chip (60_exceptions.md rules R260, R261). -/
inductive Fault where
  /-- Raised by any read of an internal RAM cell (direct, indirect, as Rn, as a software flag, by Pop) that holds no
  value (10_state.md rule R41; 92_eei_decisions.md D30). Safe: the chip goes on with some byte. -/
  | unwrittenIram (addr : Byte)
  /-- Raised by MOVX at an external address that plain RAM holds no value for (20_memory.md rule R62). Safe: the board
  answers some byte. -/
  | unwrittenXdata (addr : Word)
  /-- Raised by a step where the platform's END_OF_RUN holds (60_exceptions.md rules R264, R276). Safe: the chip goes on
  with its loop. -/
  | endOfRun
  deriving DecidableEq, Repr

/-- Why the model gives a step no meaning (00_scope.md rule R8). -/
inductive Refusal where
  /-- Raised by an arm of exec whose instruction has no meaning yet; no arm of this model does. Safe. -/
  | notModelled (mnemonic : String)
  /-- Raised by fetch at the first byte A5H (30_encoding.md rule R100). Safe. -/
  | reservedOpcode
  /-- Raised by fetch at the bytes E5H E0H and by the meaning of MOV A,direct (rule R101, 42_data_transfer.md rule
  R182). Safe. -/
  | movAAcc
  /-- Raised by an indirect or stack access to internal RAM at or above IRAM_SIZE (20_memory.md rule R63). Safe. -/
  | noSuchIramCell (addr : Byte)
  /-- Raised by a direct or bit access to an address that is no core register and no register of the platform (rule
  R81). Safe. -/
  | noSuchSfr (addr : Byte)
  /-- Raised by fetch and MOVC at a program address that the image does not cover (rule R61; 92_eei_decisions.md D12).
  Safe. -/
  | codeOutsideImage (addr : Word)
  deriving DecidableEq, Repr

/-- A result of a part of a step: a value, a fault or a refusal. -/
abbrev Res (α : Type) := Host.Outcome α Fault Refusal

/-- The machine's state (rule R20) and, after it, what the model carries of the platform and of the environment. -/
structure State where
  /-- Accumulator (rule R21). -/
  a : Byte
  /-- Register B (rule R22). -/
  b : Byte
  /-- Program status word; its bit 0 is not read: the parity bit has no storage (rules R23, R35). -/
  psw : Byte
  /-- Stack pointer (rule R24). -/
  sp : Byte
  /-- High-order byte of DPTR (rule R25). -/
  dph : Byte
  /-- Low-order byte of DPTR (rule R25). -/
  dpl : Byte
  /-- Program counter (rule R27). -/
  pc : Word
  /-- Internal RAM, with the working registers and the software flags in it (rules R26, R28, R29). -/
  iram : Memory
  /-- PortLatch[0..3] (rule R31). -/
  latch : Ports
  /-- The priority levels in service, highest first (rule R34). -/
  inService : List Nat
  /-- The one-instruction hold after RETI (rule R34). -/
  retiShadow : Bool
  /-- What the platform's plain external RAM holds (rule R32). -/
  xdata : Memory
  /-- The registers of the platform's SfrDevice (rule R30). -/
  device : List DeviceReg
  /-- Program memory, the parameter CODE (rule R33). -/
  code : Memory
  /-- The levels at the port pins now, the oracle PortPins (rule R31). -/
  pins : Ports
  /-- The interrupt sources that the environment lets request now, by number. With the bits and functions that the
  platform's sources name they give Irq.pending (60_exceptions.md rule R262). -/
  requests : List Nat
  /-- What the environment will do at the coming instruction boundaries, the next one first. -/
  inputs : List EnvInput
  /-- The fixed parameters of the platform (00_scope.md rule R3). -/
  plat : Platform
  /-- The model's own: how many instructions have begun, so that every draw8() of an instruction is a fresh one. -/
  draws : Nat
  /-- The model's own: the writes that oracle devices have received, the latest first. -/
  busLog : List BusWrite
  deriving DecidableEq, Repr

/-- The parameter RESET of rule R3: a field for each reset value that rule R40 does not leave to the platform
(92_eei_decisions.md D16, D30). -/
structure ResetRecord where
  pc : Word
  a : Byte
  b : Byte
  psw : Byte
  sp : Byte
  dph : Byte
  dpl : Byte
  latch : Ports
  iram : Memory
  /-- The levels in service, highest first. -/
  inService : List Nat
  retiShadow : Bool
  deriving DecidableEq, Repr

/-- The reset values of rule R40, internal RAM without a value (rule R41). -/
def ResetRecord.ofR40 : ResetRecord where
  pc := 0x0000
  a := 0x00
  b := 0x00
  psw := 0x00
  sp := 0x07
  dph := 0x00
  dpl := 0x00
  latch := ⟨0xFF, 0xFF, 0xFF, 0xFF⟩
  iram := []
  inService := []
  retiShadow := false

/-- The internal RAM cells that are working registers (00H..1FH, rule R26) or hold the software flags (20H..2FH, rule
R29), each with the byte 00H. DESIGN CHOICE, unsafe (notes/assumptions/1.md): the RESET parameter may supply initial
contents (92_eei_decisions.md D30), and here it gives every register and flag a value. -/
def namedCells : Memory := (List.range 48).map fun a => (a, 0x00)

/-- The state after reset for given reset values and a given platform; the environment is at rest. -/
def State.resetWith (r : ResetRecord) (p : Platform) : State where
  a := r.a
  b := r.b
  psw := r.psw
  sp := r.sp
  dph := r.dph
  dpl := r.dpl
  pc := r.pc
  iram := r.iram
  latch := r.latch
  inService := r.inService
  retiShadow := r.retiShadow
  xdata := []
  device := []
  code := []
  pins := ⟨0xFF, 0xFF, 0xFF, 0xFF⟩
  requests := []
  inputs := []
  plat := p
  draws := 0
  busLog := []

/-- The state after reset (rules R40, R290, R291): the values of rule R40, the working registers and software flags at
00H (notes/assumptions/1.md), every other cell of internal RAM without a value (rule R41), no program loaded, the
default platform. -/
def State.reset : State :=
  State.resetWith { ResetRecord.ofR40 with iram := namedCells } Platform.default

end Sys2Proof.Machine

namespace Sys2Proof

/-- The parameter XPAGE of 00_scope.md rule R3 where a platform gives a function of its own (XPage.board). It has no body:
what is proved of it holds for every function from the state to a byte, and a claim about one board takes as a premise
what its function answers (notes/assumptions/15.md). -/
opaque Config.boardPage : Machine.State → Byte

/-- The parameter END_OF_RUN of rule R3 where a platform gives a predicate of its own (EndOfRun.board). It has no body:
what is proved of it holds for every predicate on the state, and a claim about one platform takes as a premise where its
predicate holds (notes/assumptions/16.md). -/
opaque Config.boardEndOfRun : Machine.State → Bool

/-- Irq.pending of 60_exceptions.md rule R262 where a platform gives a function of its own (IrqPending.board): does the
source with this number request, enabled, in this state (Machine.State.present)? It has no body (notes/assumptions/10.md). -/
opaque Config.boardPending : Nat → Machine.State → Bool

/-- Irq.ack of rule R262 where a platform gives a function of its own (IrqAck.board): the change that taking the source
with this number makes in this state. It has no body (notes/assumptions/10.md). -/
opaque Config.boardAck : Nat → Machine.State → FlagChange

end Sys2Proof
end

