-- ==== Sys2Proof/Machine/Flags.lean ====
section
/-! DEFINITION. Bits of bytes, the flags of the PSW (10_state.md rule R23), and every flag computation of the spec: the
adder and the subtractor (40_arithmetic.md rules R120, R121), the decimal adjustment (rule R145), MUL and DIV (rules
R143, R144). Arithmetic is exact, on natural numbers, and narrowed at the end (00_scope.md rule R6). -/

namespace Sys2Proof.Machine

/-- The byte v with bit k set to x. -/
def withBit (v : Byte) (k : Nat) (x : Bool) : Byte :=
  if x then v ||| (1#8 <<< k) else v &&& ~~~(1#8 <<< k)

/-- The exclusive-or of the eight bits of a byte (20_memory.md rule R81). -/
def parity (v : Byte) : Bool :=
  v.getLsbD 7 ^^ v.getLsbD 6 ^^ v.getLsbD 5 ^^ v.getLsbD 4 ^^ v.getLsbD 3 ^^ v.getLsbD 2 ^^ v.getLsbD 1 ^^ v.getLsbD 0

/-- The carry flag C, PSW bit 7 (rule R23). -/
def State.cy (s : State) : Bool := s.psw.getLsbD 7

/-- The auxiliary-carry flag AC, PSW bit 6 (rule R23). -/
def State.ac (s : State) : Bool := s.psw.getLsbD 6

/-- The overflow flag OV, PSW bit 2 (rule R23). -/
def State.ov (s : State) : Bool := s.psw.getLsbD 2

/-- The current register bank, PSW[4:3] (rule R26). -/
def State.bank (s : State) : Nat := (s.psw.extractLsb' 3 2).toNat

/-- Set C and no other bit of the PSW. -/
def setCy (c : Bool) (s : State) : State := { s with psw := withBit s.psw 7 c }

/-- Set OV and no other bit of the PSW. -/
def setOv (o : Bool) (s : State) : State := { s with psw := withBit s.psw 2 o }

/-- Set C, AC and OV and no other bit of the PSW. -/
def setFlags (c ac o : Bool) (s : State) : State :=
  { s with psw := withBit (withBit (withBit s.psw 7 c) 6 ac) 2 o }

/-- What the PSW reads as: the stored bits 7..1 and, in bit 0, the parity of A (rule R35). -/
def State.pswRead (s : State) : Byte := withBit s.psw 0 (parity s.a)

/-- A result with the three flags of the adder and the subtractor. -/
structure AluResult where
  value : Byte
  cy : Bool
  ac : Bool
  ov : Bool
  deriving DecidableEq, Repr

/-- The 8-bit adder (rule R120). -/
def add8 (a v : Byte) (c : Bool) : AluResult :=
  let sum := a.toNat + v.toNat + c.toNat
  let c7 := decide (sum > 255)
  let c3 := decide (a.toNat % 16 + v.toNat % 16 + c.toNat > 15)
  let c6 := decide (a.toNat % 128 + v.toNat % 128 + c.toNat > 127)
  ⟨BitVec.ofNat 8 sum, c7, c3, c6 ^^ c7⟩

/-- The 8-bit subtractor (rule R121); a difference below 0 is a minuend below the subtrahend with its borrow. -/
def sub8 (a v : Byte) (c : Bool) : AluResult :=
  let b7 := decide (a.toNat < v.toNat + c.toNat)
  let b3 := decide (a.toNat % 16 < v.toNat % 16 + c.toNat)
  let b6 := decide (a.toNat % 128 < v.toNat % 128 + c.toNat)
  ⟨BitVec.ofNat 8 (a.toNat + 512 - v.toNat - c.toNat), b7, b3, b6 ^^ b7⟩

/-- Put a result into A and its flags into the PSW; both are computed from the values before (rule R36). -/
def applyAlu (r : AluResult) (s : State) : State := setFlags r.cy r.ac r.ov { s with a := r.value }

/-- One step of the decimal adjustment: if it applies, add to the accumulator, and let a carry out set C (rule R145). -/
def daStep (applies : Bool) (addend : Nat) (a : Nat) (c : Bool) : Nat × Bool :=
  if applies then ((a + addend) % 256, c || decide (a + addend > 255)) else (a, c)

/-- The decimal adjustment of A for given AC and C: the new A and the new C (rule R145). -/
def decimalAdjust (a : Byte) (ac c : Bool) : Byte × Bool :=
  let low := daStep (decide (a.toNat % 16 > 9) || ac) 0x06 a.toNat c
  let high := daStep (decide (low.1 / 16 > 9) || low.2) 0x60 low.1 low.2
  (BitVec.ofNat 8 high.1, high.2)

/-- The unsigned product of A and B: its low byte, its high byte, and is it above 255 (rule R143)? -/
def multiply (a b : Byte) : Byte × Byte × Bool :=
  let p := a.toNat * b.toNat
  (BitVec.ofNat 8 p, BitVec.ofNat 8 (p / 256), decide (p > 255))

/-- The unsigned quotient and remainder of A by a B that is not zero (rule R144). -/
def divide (a b : Byte) : Byte × Byte :=
  (BitVec.ofNat 8 (a.toNat / b.toNat), BitVec.ofNat 8 (a.toNat % b.toNat))

end Sys2Proof.Machine
end

