-- ==== Sys2Proof/Machine/Memory.lean ====
section
/-! DEFINITION. A memory as a list of cells in one canonical form: the read and the write of one byte. -/

namespace Sys2Proof.Machine

/-- What an address that is not listed reads as: no value (10_state.md rule R41; notes/assumptions/2.md). -/
def Memory.unlisted : Option Byte := none

/-- The byte at an address, if it holds one. -/
def Memory.read : Memory → Nat → Option Byte
  | [], _ => Memory.unlisted
  | (b, w) :: m, a => if a = b then some w else Memory.read m a

/-- Set the byte at an address, keeping the addresses strictly rising. No byte equals what an unlisted address reads
as, so a write never removes an entry. -/
def Memory.write : Memory → Nat → Byte → Memory
  | [], a, v => [(a, v)]
  | (b, w) :: m, a, v =>
    if a < b then (a, v) :: (b, w) :: m
    else if a = b then (a, v) :: m
    else (b, w) :: Memory.write m a v

/-- The canonical form: addresses strictly rising. -/
def Memory.wf : Memory → Bool
  | [] => true
  | [_] => true
  | (a, _) :: (b, w) :: m => decide (a < b) && Memory.wf ((b, w) :: m)

/-- Is every listed address below the bound? -/
def Memory.below (m : Memory) (bound : Nat) : Bool := m.all fun c => decide (c.1 < bound)

end Sys2Proof.Machine
end

