-- ==== Sys2Proof/Machine/Ops.lean ====
section
/-! DEFINITION. The access functions of 20_memory.md (index: 00_scope.md rule R9), the moves of the program counter, and
interrupt entry with the return from it (60_exceptions.md rules R264 to R266). A read does not change the state; a write
answers the state after it. -/

namespace Sys2Proof.Machine

/-- Go on with the value of a part of a step, or stop as it stopped. -/
def andThen {α β : Type} (x : Res α) (f : α → Res β) : Res β :=
  match x with
  | .next a => f a
  | .fault r => .fault r
  | .refused r => .refused r

/-! ### Program memory -/

/-- CodeRead(a), total only inside the program image (20_memory.md rule R61). -/
def codeRead (a : Word) (s : State) : Res Byte :=
  match s.code.read a.toNat with
  | some v => .next v
  | none => .refused (.codeOutsideImage a)

/-! ### Internal RAM, register-indirect access and the stack -/

/-- MemRead(IRAM, a, 1), which is also IndRead(a) (rules R63, R64, R41). -/
def iramRead (a : Byte) (s : State) : Res Byte :=
  if a.toNat < s.plat.iramSize.count then
    match s.iram.read a.toNat with
    | some v => .next v
    | none => .fault (.unwrittenIram a)
  else .refused (.noSuchIramCell a)

/-- MemWrite(IRAM, a, 1, v), which is also IndWrite(a, v) (rules R63, R64). -/
def iramWrite (a v : Byte) (s : State) : Res State :=
  if a.toNat < s.plat.iramSize.count then .next { s with iram := s.iram.write a.toNat v }
  else .refused (.noSuchIramCell a)

/-- Push(v): increment SP, then write (rule R72). -/
def push (v : Byte) (s : State) : Res State := iramWrite (s.sp + 1) v { s with sp := s.sp + 1 }

/-- Pop(): read, then decrement SP (rule R72); the byte popped and the state after it. -/
def pop (s : State) : Res (Byte × State) :=
  andThen (iramRead s.sp s) fun v => .next (v, { s with sp := s.sp - 1 })

/-- Push a 16-bit address, low-order byte first (rule R73). -/
def pushWord (w : Word) (s : State) : Res State :=
  andThen (push (w.extractLsb' 0 8) s) fun t => push (w.extractLsb' 8 8) t

/-- Pop a 16-bit address, high-order byte first (rule R73). -/
def popWord (s : State) : Res (Word × State) :=
  andThen (pop s) fun h => andThen (pop h.2) fun l => .next (h.1 ++ l.1, l.2)

/-! ### Ports and special function registers -/

/-- The byte of one port. -/
def Ports.get (p : Ports) : Port → Byte
  | .p0 => p.p0
  | .p1 => p.p1
  | .p2 => p.p2
  | .p3 => p.p3

/-- Set the byte of one port. -/
def Ports.set (p : Ports) (k : Port) (v : Byte) : Ports :=
  match k with
  | .p0 => { p with p0 := v }
  | .p1 => { p with p1 := v }
  | .p2 => { p with p2 := v }
  | .p3 => { p with p3 := v }

/-- The ten special function registers that the source names (10_state.md rule R30). -/
inductive CoreSfr where
  | port (p : Port)
  | sp
  | dpl
  | dph
  | psw
  | acc
  | b
  deriving DecidableEq, Repr

/-- The core register at a direct address (rule R30). -/
def coreSfr (a : Byte) : Option CoreSfr :=
  if a = 0x80 then some (.port .p0)
  else if a = 0x81 then some .sp
  else if a = 0x82 then some .dpl
  else if a = 0x83 then some .dph
  else if a = 0x90 then some (.port .p1)
  else if a = 0xA0 then some (.port .p2)
  else if a = 0xB0 then some (.port .p3)
  else if a = 0xD0 then some .psw
  else if a = 0xE0 then some .acc
  else if a = 0xF0 then some .b
  else none

/-- What an ordinary read of a core register answers: the pins, for a port (rule R81). -/
def coreRead (r : CoreSfr) (s : State) : Byte :=
  match r with
  | .port p => s.pins.get p
  | .sp => s.sp
  | .dpl => s.dpl
  | .dph => s.dph
  | .psw => s.pswRead
  | .acc => s.a
  | .b => s.b

/-- What a latch read of a core register answers (rule R81). -/
def coreReadLatch (r : CoreSfr) (s : State) : Byte :=
  match r with
  | .port p => s.latch.get p
  | .sp => s.sp
  | .dpl => s.dpl
  | .dph => s.dph
  | .psw => s.pswRead
  | .acc => s.a
  | .b => s.b

/-- A write to a core register; bit 0 of a byte written to the PSW is discarded (rules R81, R35). -/
def coreWrite (r : CoreSfr) (v : Byte) (s : State) : State :=
  match r with
  | .port p => { s with latch := s.latch.set p v }
  | .sp => { s with sp := v }
  | .dpl => { s with dpl := v }
  | .dph => { s with dph := v }
  | .psw => { s with psw := withBit v 0 false }
  | .acc => { s with a := v }
  | .b => { s with b := v }

/-- The register that the platform defines at an address (rule R81). -/
def findDevice (a : Byte) (s : State) : Option DeviceReg := s.device.find? fun r => r.addr == a

/-- SfrDevice.read(a), refused where the platform defines no register (rule R81). -/
def deviceRead (a : Byte) (s : State) : Res Byte :=
  match findDevice a s with
  | none => .refused (.noSuchSfr a)
  | some r =>
    match r.kind with
    | .register => .next r.latch
    | .port => .next r.input
    | .oracle => .next (Config.draw8 (.sfrRead a) s.draws)

/-- SfrDevice.readLatch(a), refused where the platform defines no register (rule R81). -/
def deviceReadLatch (a : Byte) (s : State) : Res Byte :=
  match findDevice a s with
  | none => .refused (.noSuchSfr a)
  | some r =>
    match r.kind with
    | .register => .next r.latch
    | .port => .next r.latch
    | .oracle => .next (Config.draw8 (.sfrReadLatch a) s.draws)

/-- The registers with the first one at the address a holding v. -/
def setDeviceLatch (a v : Byte) : List DeviceReg → List DeviceReg
  | [] => []
  | r :: rs => if r.addr == a then { r with latch := v } :: rs else r :: setDeviceLatch a v rs

/-- SfrDevice.write(a, v), refused where the platform defines no register (rule R81). -/
def deviceWrite (a v : Byte) (s : State) : Res State :=
  match findDevice a s with
  | none => .refused (.noSuchSfr a)
  | some r =>
    match r.kind with
    | .register => .next { s with device := setDeviceLatch a v s.device }
    | .port => .next { s with device := setDeviceLatch a v s.device }
    | .oracle => .next { s with busLog := .sfr a v :: s.busLog }

/-- SfrRead(a) (rule R81). -/
def sfrRead (a : Byte) (s : State) : Res Byte :=
  match coreSfr a with
  | some r => .next (coreRead r s)
  | none => deviceRead a s

/-- SfrReadLatch(a) (rule R81). -/
def sfrReadLatch (a : Byte) (s : State) : Res Byte :=
  match coreSfr a with
  | some r => .next (coreReadLatch r s)
  | none => deviceReadLatch a s

/-- SfrWrite(a, v) (rule R81). -/
def sfrWrite (a v : Byte) (s : State) : Res State :=
  match coreSfr a with
  | some r => .next (coreWrite r v s)
  | none => deviceWrite a v s

/-! ### Direct and bit access -/

/-- DirectRead(d): internal RAM below 80H, a special function register from 80H on (rule R65). -/
def directRead (d : Byte) (s : State) : Res Byte :=
  if d.toNat < 0x80 then iramRead d s else sfrRead d s

/-- DirectReadRMW(d): as DirectRead, but the latch of a port (rule R66). -/
def directReadRmw (d : Byte) (s : State) : Res Byte :=
  if d.toNat < 0x80 then iramRead d s else sfrReadLatch d s

/-- DirectWrite(d, v) (rule R67). -/
def directWrite (d v : Byte) (s : State) : Res State :=
  if d.toNat < 0x80 then iramWrite d v s else sfrWrite d v s

/-- The direct address of the byte that a bit address names a bit of (rule R69). -/
def bitByte (b : Byte) : Byte := if b.toNat < 0x80 then 0x20 + (b >>> 3) else b &&& 0xF8

/-- The number, within its byte, of the bit that a bit address names (rule R69). -/
def bitNumber (b : Byte) : Nat := b.toNat % 8

/-- BitRead(b): the pin, for a port bit (rule R69). -/
def bitRead (b : Byte) (s : State) : Res Bool :=
  andThen (directRead (bitByte b) s) fun t => .next (t.getLsbD (bitNumber b))

/-- BitReadRMW(b): the latch bit, for a port bit (rule R70). -/
def bitReadRmw (b : Byte) (s : State) : Res Bool :=
  andThen (directReadRmw (bitByte b) s) fun t => .next (t.getLsbD (bitNumber b))

/-- BitWrite(b, v): the whole byte is read (the latch, of a port), changed in one bit and written (rule R71). -/
def bitWrite (b : Byte) (v : Bool) (s : State) : Res State :=
  andThen (directReadRmw (bitByte b) s) fun t => directWrite (bitByte b) (withBit t (bitNumber b) v) s

/-! ### The data pointer and external data memory -/

/-- DPTR as one 16-bit value (10_state.md rule R25). -/
def State.dptr (s : State) : Word := s.dph ++ s.dpl

/-- DPTR <- w (rule R25). -/
def setDptr (w : Word) (s : State) : State := { s with dph := w.extractLsb' 8 8, dpl := w.extractLsb' 0 8 }

/-- XRead(a) (20_memory.md rule R62). -/
def xRead (a : Word) (s : State) : Res Byte :=
  match s.plat.xdataKind with
  | .plainRam =>
    match s.xdata.read a.toNat with
    | some v => .next v
    | none => .fault (.unwrittenXdata a)
  | .oracle => .next (Config.draw8 (.xdataRead a) s.draws)

/-- XWrite(a, v) (rule R62). -/
def xWrite (a : Word) (v : Byte) (s : State) : State :=
  match s.plat.xdataKind with
  | .plainRam => { s with xdata := s.xdata.write a.toNat v }
  | .oracle => { s with busLog := .xdata a v :: s.busLog }

/-- The level on one high-order address line, as the board wires it (rule R82). -/
def pageLine (line : PageLine) (s : State) : Bool :=
  match line with
  | .latch p k => (s.latch.get p).getLsbD k.val
  | .pin p k => (s.pins.get p).getLsbD k.val
  | .level high => high

/-- XPAGE(state): the high-order address byte of MOVX @Ri (rule R82, 00_scope.md rule R3). -/
def xPage (s : State) : Byte :=
  match s.plat.xpage with
  | .p2Latch => s.latch.get .p2
  | .fixed page => page
  | .wired lines => BitVec.ofFnLE fun k : Fin 8 => pageLine lines[k] s
  | .board => Config.boardPage s

/-- What any MOVX leaves in the P0 latch, by the parameter P0_XBUS (rule R82). -/
def afterMovx (s : State) : State :=
  match s.plat.p0Xbus with
  | .unchanged => s
  | .draw => { s with latch := s.latch.set .p0 (Config.draw8 .p0Latch s.draws) }

/-! ### The program counter -/

/-- next: the address of the instruction that follows one of len bytes (30_encoding.md rule R91). -/
def nextPc (len : Nat) (s : State) : Word := s.pc + BitVec.ofNat 16 len

/-- pc <- next. -/
def advance (len : Nat) (s : State) : State := { s with pc := nextPc len s }

/-- target(rel) for an instruction of len bytes (44_program_control.md rule R230). -/
def relTarget (rel : Byte) (len : Nat) (s : State) : Word := nextPc len s + rel.signExtend 16

/-- Branch if the condition holds, else go to the next instruction (rule R230). -/
def branchIf (taken : Bool) (rel : Byte) (len : Nat) (s : State) : State :=
  { s with pc := if taken then relTarget rel len s else nextPc len s }

/-- The destination of ACALL and AJMP: the page of the following instruction and the 11-bit address (30_encoding.md
rule R94). -/
def pageTarget (addr : BitVec 11) (s : State) : Word := (nextPc 2 s).extractLsb' 11 5 ++ addr

/-! ### Interrupt entry and return -/

/-- Add a level to the levels in service, which stand highest first. -/
def addLevel (n : Nat) : List Nat → List Nat
  | [] => [n]
  | m :: ms => if m < n then n :: m :: ms else if n = m then m :: ms else m :: addLevel n ms

/-- The highest level in service, 0 if there is none. -/
def highestLevel (levels : List Nat) : Nat := levels.foldl max 0

/-- Remove the highest level in service, if there is one (44_program_control.md rule R235). -/
def removeHighest (levels : List Nat) : List Nat := levels.filter fun n => n != highestLevel levels

/-- The requests after some are raised and some withdrawn; each source stands once. -/
def updateRequests (raise withdraw requests : List Nat) : List Nat :=
  (requests.filter fun n => !withdraw.contains n && !raise.contains n) ++ raise.dedup

/-- A register of the platform after the changes of its bits, made one after the other. -/
def setFlagBits (bits : List (FlagBit × Bool)) (r : DeviceReg) : DeviceReg :=
  { r with latch := bits.foldl (fun v c => if c.1.addr = r.addr then withBit v c.1.bit.val c.2 else v) r.latch }

/-- A change of the platform's request flags (60_exceptions.md rules R262, R273). -/
def applyFlags (c : FlagChange) (s : State) : State :=
  { s with
    requests := updateRequests c.raise c.withdraw s.requests
    device := s.device.map (setFlagBits c.bits) }

/-- The change that Irq.ack(s) makes in this state (rule R262). -/
def ackChange (src : IrqSource) (s : State) : FlagChange :=
  match src.ack with
  | .change c => c
  | .board => Config.boardAck src.id s

/-- Irq.ack(s): the effect on the platform's request flags (rule R262). -/
def acknowledge (src : IrqSource) (s : State) : State := applyFlags (ackChange src s) s

/-- Interrupt entry for a source, pc being the address of the instruction that would have run next: push pc, low-order
byte first; add the level; acknowledge; go to the vector. Nothing else is saved (rule R265). -/
def interruptEntry (src : IrqSource) (s : State) : Res State :=
  andThen (pushWord s.pc s) fun t =>
    .next { acknowledge src { t with inService := addLevel src.level t.inService } with pc := src.vector }

/-- Return from subroutine: pop pc, high-order byte first (44_program_control.md rule R234). -/
def subroutineReturn (s : State) : Res State :=
  andThen (popWord s) fun r => .next { r.2 with pc := r.1 }

/-- Return from interrupt: as from a subroutine, then take the highest level out of service and hold interrupts off for
one instruction (rules R235, R266). -/
def interruptReturn (s : State) : Res State :=
  andThen (subroutineReturn s) fun t =>
    .next { t with inService := removeHighest t.inService, retiShadow := true }

end Sys2Proof.Machine
end

