-- ==== Sys2Proof/Syntax.lean ====
section
/-! DEFINITION. The instructions: one constructor for each of the 111 forms of 30_encoding.md rule R99, in the order of
the opcode table, with the form's operands in the order of its encoding bytes. The first byte A5H is no form (rule R100). -/

namespace Sys2Proof

/-- The number n of the working register Rn, 0..7 (rule R93). -/
abbrev RegNo := Fin 8

/-- The number i of the address register of @Ri: 0 is R0, 1 is R1 (rule R93). -/
abbrev IndNo := Fin 2

/-- The 111 instruction forms (rule R99). A direct address, a bit address, an immediate and a displacement are bytes
(rules R96, R97); addr11 is 11 bits wide (rule R94); addr16 and data16 are words (rule R95). -/
inductive Instr where
  -- 40_arithmetic.md
  /-- `ADD A,Rn`, `00101rrr`, rule R122. -/
  | addRn (n : RegNo)
  /-- `ADD A,direct`, `00100101 dddddddd`, rule R123. -/
  | addDirect (direct : Byte)
  /-- `ADD A,@Ri`, `0010011i`, rule R124. -/
  | addInd (i : IndNo)
  /-- `ADD A,#data`, `00100100 kkkkkkkk`, rule R125. -/
  | addImm (data : Byte)
  /-- `ADDC A,Rn`, `00111rrr`, rule R126. -/
  | addcRn (n : RegNo)
  /-- `ADDC A,direct`, `00110101 dddddddd`, rule R127. -/
  | addcDirect (direct : Byte)
  /-- `ADDC A,@Ri`, `0011011i`, rule R128. -/
  | addcInd (i : IndNo)
  /-- `ADDC A,#data`, `00110100 kkkkkkkk`, rule R129. -/
  | addcImm (data : Byte)
  /-- `SUBB A,Rn`, `10011rrr`, rule R130. -/
  | subbRn (n : RegNo)
  /-- `SUBB A,direct`, `10010101 dddddddd`, rule R131. -/
  | subbDirect (direct : Byte)
  /-- `SUBB A,@Ri`, `1001011i`, rule R132. -/
  | subbInd (i : IndNo)
  /-- `SUBB A,#data`, `10010100 kkkkkkkk`, rule R133. -/
  | subbImm (data : Byte)
  /-- `INC A`, `00000100`, rule R134. -/
  | incA
  /-- `INC Rn`, `00001rrr`, rule R135. -/
  | incRn (n : RegNo)
  /-- `INC direct`, `00000101 dddddddd`, rule R136. -/
  | incDirect (direct : Byte)
  /-- `INC @Ri`, `0000011i`, rule R137. -/
  | incInd (i : IndNo)
  /-- `DEC A`, `00010100`, rule R138. -/
  | decA
  /-- `DEC Rn`, `00011rrr`, rule R139. -/
  | decRn (n : RegNo)
  /-- `DEC direct`, `00010101 dddddddd`, rule R140. -/
  | decDirect (direct : Byte)
  /-- `DEC @Ri`, `0001011i`, rule R141. -/
  | decInd (i : IndNo)
  /-- `INC DPTR`, `10100011`, rule R142. -/
  | incDptr
  /-- `MUL AB`, `10100100`, rule R143. -/
  | mulAb
  /-- `DIV AB`, `10000100`, rule R144. -/
  | divAb
  /-- `DA A`, `11010100`, rule R145. -/
  | daA
  -- 41_logic.md
  /-- `ANL A,Rn`, `01011rrr`, rule R151. -/
  | anlARn (n : RegNo)
  /-- `ANL A,direct`, `01010101 dddddddd`, rule R152. -/
  | anlADirect (direct : Byte)
  /-- `ANL A,@Ri`, `0101011i`, rule R153. -/
  | anlAInd (i : IndNo)
  /-- `ANL A,#data`, `01010100 kkkkkkkk`, rule R154. -/
  | anlAImm (data : Byte)
  /-- `ANL direct,A`, `01010010 dddddddd`, rule R155. -/
  | anlDirectA (direct : Byte)
  /-- `ANL direct,#data`, `01010011 dddddddd kkkkkkkk`, rule R156. -/
  | anlDirectImm (direct : Byte) (data : Byte)
  /-- `ORL A,Rn`, `01001rrr`, rule R157. -/
  | orlARn (n : RegNo)
  /-- `ORL A,direct`, `01000101 dddddddd`, rule R158. -/
  | orlADirect (direct : Byte)
  /-- `ORL A,@Ri`, `0100011i`, rule R159. -/
  | orlAInd (i : IndNo)
  /-- `ORL A,#data`, `01000100 kkkkkkkk`, rule R160. -/
  | orlAImm (data : Byte)
  /-- `ORL direct,A`, `01000010 dddddddd`, rule R161. -/
  | orlDirectA (direct : Byte)
  /-- `ORL direct,#data`, `01000011 dddddddd kkkkkkkk`, rule R162. -/
  | orlDirectImm (direct : Byte) (data : Byte)
  /-- `XRL A,Rn`, `01101rrr`, rule R163. -/
  | xrlARn (n : RegNo)
  /-- `XRL A,direct`, `01100101 dddddddd`, rule R164. -/
  | xrlADirect (direct : Byte)
  /-- `XRL A,@Ri`, `0110011i`, rule R165. -/
  | xrlAInd (i : IndNo)
  /-- `XRL A,#data`, `01100100 kkkkkkkk`, rule R166. -/
  | xrlAImm (data : Byte)
  /-- `XRL direct,A`, `01100010 dddddddd`, rule R167. -/
  | xrlDirectA (direct : Byte)
  /-- `XRL direct,#data`, `01100011 dddddddd kkkkkkkk`, rule R168. -/
  | xrlDirectImm (direct : Byte) (data : Byte)
  /-- `CLR A`, `11100100`, rule R169. -/
  | clrA
  /-- `CPL A`, `11110100`, rule R170. -/
  | cplA
  /-- `RL A`, `00100011`, rule R171. -/
  | rlA
  /-- `RLC A`, `00110011`, rule R172. -/
  | rlcA
  /-- `RR A`, `00000011`, rule R173. -/
  | rrA
  /-- `RRC A`, `00010011`, rule R174. -/
  | rrcA
  /-- `SWAP A`, `11000100`, rule R175. -/
  | swapA
  -- 42_data_transfer.md
  /-- `MOV A,Rn`, `11101rrr`, rule R181. -/
  | movARn (n : RegNo)
  /-- `MOV A,direct`, `11100101 dddddddd`, rule R182. -/
  | movADirect (direct : Byte)
  /-- `MOV A,@Ri`, `1110011i`, rule R183. -/
  | movAInd (i : IndNo)
  /-- `MOV A,#data`, `01110100 kkkkkkkk`, rule R184. -/
  | movAImm (data : Byte)
  /-- `MOV Rn,A`, `11111rrr`, rule R185. -/
  | movRnA (n : RegNo)
  /-- `MOV Rn,direct`, `10101rrr dddddddd`, rule R186. -/
  | movRnDirect (n : RegNo) (direct : Byte)
  /-- `MOV Rn,#data`, `01111rrr kkkkkkkk`, rule R187. -/
  | movRnImm (n : RegNo) (data : Byte)
  /-- `MOV direct,A`, `11110101 dddddddd`, rule R188. -/
  | movDirectA (direct : Byte)
  /-- `MOV direct,Rn`, `10001rrr dddddddd`, rule R189. -/
  | movDirectRn (n : RegNo) (direct : Byte)
  /-- `MOV direct,direct`, `10000101 ssssssss tttttttt`, rule R190. -/
  | movDirectDirect (src : Byte) (dst : Byte)
  /-- `MOV direct,@Ri`, `1000011i dddddddd`, rule R191. -/
  | movDirectInd (i : IndNo) (direct : Byte)
  /-- `MOV direct,#data`, `01110101 dddddddd kkkkkkkk`, rule R192. -/
  | movDirectImm (direct : Byte) (data : Byte)
  /-- `MOV @Ri,A`, `1111011i`, rule R193. -/
  | movIndA (i : IndNo)
  /-- `MOV @Ri,direct`, `1010011i dddddddd`, rule R194. -/
  | movIndDirect (i : IndNo) (direct : Byte)
  /-- `MOV @Ri,#data`, `0111011i kkkkkkkk`, rule R195. -/
  | movIndImm (i : IndNo) (data : Byte)
  /-- `MOV DPTR,#data16`, `10010000 HHHHHHHH LLLLLLLL`, rule R196. -/
  | movDptr (data : Word)
  /-- `MOVC A,@A+DPTR`, `10010011`, rule R197. -/
  | movcDptr
  /-- `MOVC A,@A+PC`, `10000011`, rule R198. -/
  | movcPc
  /-- `MOVX A,@Ri`, `1110001i`, rule R199. -/
  | movxAInd (i : IndNo)
  /-- `MOVX A,@DPTR`, `11100000`, rule R200. -/
  | movxADptr
  /-- `MOVX @Ri,A`, `1111001i`, rule R201. -/
  | movxIndA (i : IndNo)
  /-- `MOVX @DPTR,A`, `11110000`, rule R202. -/
  | movxDptrA
  /-- `PUSH direct`, `11000000 dddddddd`, rule R203. -/
  | push (direct : Byte)
  /-- `POP direct`, `11010000 dddddddd`, rule R204. -/
  | pop (direct : Byte)
  /-- `XCH A,Rn`, `11001rrr`, rule R205. -/
  | xchRn (n : RegNo)
  /-- `XCH A,direct`, `11000101 dddddddd`, rule R206. -/
  | xchDirect (direct : Byte)
  /-- `XCH A,@Ri`, `1100011i`, rule R207. -/
  | xchInd (i : IndNo)
  /-- `XCHD A,@Ri`, `1101011i`, rule R208. -/
  | xchd (i : IndNo)
  -- 43_boolean.md
  /-- `CLR C`, `11000011`, rule R216. -/
  | clrC
  /-- `CLR bit`, `11000010 bbbbbbbb`, rule R217. -/
  | clrBit (bit : Byte)
  /-- `SETB C`, `11010011`, rule R218. -/
  | setbC
  /-- `SETB bit`, `11010010 bbbbbbbb`, rule R219. -/
  | setbBit (bit : Byte)
  /-- `CPL C`, `10110011`, rule R220. -/
  | cplC
  /-- `CPL bit`, `10110010 bbbbbbbb`, rule R221. -/
  | cplBit (bit : Byte)
  /-- `ANL C,bit`, `10000010 bbbbbbbb`, rule R222. -/
  | anlCBit (bit : Byte)
  /-- `ANL C,/bit`, `10110000 bbbbbbbb`, rule R223. -/
  | anlCNotBit (bit : Byte)
  /-- `ORL C,bit`, `01110010 bbbbbbbb`, rule R224. -/
  | orlCBit (bit : Byte)
  /-- `ORL C,/bit`, `10100000 bbbbbbbb`, rule R225. -/
  | orlCNotBit (bit : Byte)
  /-- `MOV C,bit`, `10100010 bbbbbbbb`, rule R226. -/
  | movCBit (bit : Byte)
  /-- `MOV bit,C`, `10010010 bbbbbbbb`, rule R227. -/
  | movBitC (bit : Byte)
  -- 44_program_control.md
  /-- `ACALL addr11`, `aaa10001 AAAAAAAA`, rule R232. -/
  | acall (addr : BitVec 11)
  /-- `LCALL addr16`, `00010010 HHHHHHHH LLLLLLLL`, rule R233. -/
  | lcall (addr : Word)
  /-- `RET`, `00100010`, rule R234. -/
  | ret
  /-- `RETI`, `00110010`, rule R235. -/
  | reti
  /-- `AJMP addr11`, `aaa00001 AAAAAAAA`, rule R236. -/
  | ajmp (addr : BitVec 11)
  /-- `LJMP addr16`, `00000010 HHHHHHHH LLLLLLLL`, rule R237. -/
  | ljmp (addr : Word)
  /-- `SJMP rel`, `10000000 eeeeeeee`, rule R238. -/
  | sjmp (rel : Byte)
  /-- `JMP @A+DPTR`, `01110011`, rule R239. -/
  | jmpADptr
  /-- `JZ rel`, `01100000 eeeeeeee`, rule R240. -/
  | jz (rel : Byte)
  /-- `JNZ rel`, `01110000 eeeeeeee`, rule R241. -/
  | jnz (rel : Byte)
  /-- `JC rel`, `01000000 eeeeeeee`, rule R242. -/
  | jc (rel : Byte)
  /-- `JNC rel`, `01010000 eeeeeeee`, rule R243. -/
  | jnc (rel : Byte)
  /-- `JB bit,rel`, `00100000 bbbbbbbb eeeeeeee`, rule R244. -/
  | jb (bit : Byte) (rel : Byte)
  /-- `JNB bit,rel`, `00110000 bbbbbbbb eeeeeeee`, rule R245. -/
  | jnb (bit : Byte) (rel : Byte)
  /-- `JBC bit,rel`, `00010000 bbbbbbbb eeeeeeee`, rule R246. -/
  | jbc (bit : Byte) (rel : Byte)
  /-- `CJNE A,direct,rel`, `10110101 dddddddd eeeeeeee`, rule R247. -/
  | cjneADirect (direct : Byte) (rel : Byte)
  /-- `CJNE A,#data,rel`, `10110100 kkkkkkkk eeeeeeee`, rule R248. -/
  | cjneAImm (data : Byte) (rel : Byte)
  /-- `CJNE Rn,#data,rel`, `10111rrr kkkkkkkk eeeeeeee`, rule R249. -/
  | cjneRnImm (n : RegNo) (data : Byte) (rel : Byte)
  /-- `CJNE @Ri,#data,rel`, `1011011i kkkkkkkk eeeeeeee`, rule R250. -/
  | cjneIndImm (i : IndNo) (data : Byte) (rel : Byte)
  /-- `DJNZ Rn,rel`, `11011rrr eeeeeeee`, rule R251. -/
  | djnzRn (n : RegNo) (rel : Byte)
  /-- `DJNZ direct,rel`, `11010101 dddddddd eeeeeeee`, rule R252. -/
  | djnzDirect (direct : Byte) (rel : Byte)
  /-- `NOP`, `00000000`, rule R253. -/
  | nop
  deriving DecidableEq, Repr

end Sys2Proof
end

