-- ==== Sys2Proof/Machine/Operands.lean ====
section
/-! DEFINITION. The operand forms (00_scope.md rule R10): the working registers, the cells that @Ri addresses, and the
four source forms of the accumulator instructions; then the shapes that many instructions share. -/

namespace Sys2Proof.Machine

/-- The internal RAM address of Rn in the current bank (10_state.md rule R26). -/
def regCell (n : Nat) (s : State) : Byte := BitVec.ofNat 8 (8 * s.bank + n)

/-- R[n] (rule R26). -/
def regRead (n : RegNo) (s : State) : Res Byte := iramRead (regCell n.val s) s

/-- R[n] <- v (rule R26). -/
def regWrite (n : RegNo) (v : Byte) (s : State) : Res State := iramWrite (regCell n.val s) v s

/-- The value of R0 or R1, the address of an @Ri operand (20_memory.md rule R64). -/
def indAddress (i : IndNo) (s : State) : Res Byte := iramRead (regCell i.val s) s

/-- IndRead(R[i]) (rule R64). -/
def indRead (i : IndNo) (s : State) : Res Byte := andThen (indAddress i s) fun a => iramRead a s

/-- IndWrite(R[i], v) (rule R64). -/
def indWrite (i : IndNo) (v : Byte) (s : State) : Res State := andThen (indAddress i s) fun a => iramWrite a v s

/-- A source byte operand (rule R10). -/
inductive Source where
  | reg (n : RegNo)
  | direct (d : Byte)
  | ind (i : IndNo)
  | imm (k : Byte)
  deriving DecidableEq, Repr

/-- Read a source operand; a port named directly gives its pins (rule R65). -/
def Source.read (src : Source) (s : State) : Res Byte :=
  match src with
  | .reg n => regRead n s
  | .direct d => directRead d s
  | .ind i => indRead i s
  | .imm k => .next k

/-- Read a source, let it act on the state, go to the next instruction. -/
def onSource (src : Source) (len : Nat) (act : Byte → State → State) (s : State) : Res State :=
  andThen (src.read s) fun v => .next (advance len (act v s))

/-- A operation source, with A as destination and no flag written (41_logic.md rule R150, 42_data_transfer.md rule
R180). -/
def intoA (src : Source) (len : Nat) (f : Byte → Byte → Byte) (s : State) : Res State :=
  onSource src len (fun v t => { t with a := f t.a v }) s

/-- Change A alone, in an instruction of one byte. -/
def changeA (f : Byte → Byte) (s : State) : Res State := .next (advance 1 { s with a := f s.a })

/-- Go to the next instruction after a write. -/
def thenAdvance (len : Nat) (x : Res State) : Res State := andThen x fun t => .next (advance len t)

/-- Read, change and write back a working register. -/
def changeReg (n : RegNo) (f : Byte → Byte) (len : Nat) (s : State) : Res State :=
  andThen (regRead n s) fun v => thenAdvance len (regWrite n (f v) s)

/-- Read, change and write back the cell that @Ri addresses; the address is taken before the write (20_memory.md rule
R76). -/
def changeInd (i : IndNo) (f : Byte → Byte) (len : Nat) (s : State) : Res State :=
  andThen (indAddress i s) fun a => andThen (iramRead a s) fun v => thenAdvance len (iramWrite a (f v) s)

/-- Read, change and write back a direct byte; a port is read from its latch (rules R66, R68). -/
def changeDirect (d : Byte) (f : Byte → Byte) (len : Nat) (s : State) : Res State :=
  andThen (directReadRmw d s) fun v => thenAdvance len (directWrite d (f v) s)

/-- Copy a source to a direct byte (42_data_transfer.md rule R180). -/
def moveToDirect (d : Byte) (src : Source) (len : Nat) (s : State) : Res State :=
  andThen (src.read s) fun v => thenAdvance len (directWrite d v s)

/-- Copy a source to a working register (rule R180). -/
def moveToReg (n : RegNo) (src : Source) (len : Nat) (s : State) : Res State :=
  andThen (src.read s) fun v => thenAdvance len (regWrite n v s)

/-- Copy a source to the cell that @Ri addresses (rule R180). -/
def moveToInd (i : IndNo) (src : Source) (len : Nat) (s : State) : Res State :=
  andThen (indAddress i s) fun a => andThen (src.read s) fun v => thenAdvance len (iramWrite a v s)

/-- C <- f(C, bit), in an instruction of two bytes (43_boolean.md rule R215). -/
def bitIntoC (b : Byte) (f : Bool → Bool → Bool) (s : State) : Res State :=
  andThen (bitRead b s) fun v => .next (advance 2 (setCy (f s.cy v) s))

/-- Write a bit, in an instruction of two bytes (rule R215). -/
def writeBit (b : Byte) (v : Bool) (s : State) : Res State := thenAdvance 2 (bitWrite b v s)

/-- The comparison of CJNE: C tells "below", unsigned; branch if not equal (44_program_control.md rule R247). -/
def compareJump (dest src rel : Byte) (s : State) : Res State :=
  .next (branchIf (dest != src) rel 3 (setCy (decide (dest.toNat < src.toNat)) s))

end Sys2Proof.Machine
end

