-- ==== Sys2Proof/Machine/Arithmetic.lean ====
section
/-! DEFINITION. The 24 forms of 40_arithmetic.md. -/

namespace Sys2Proof.Machine

/-- A <- add8(A, source, 0) (rule R120). -/
def addIntoA (src : Source) (len : Nat) (s : State) : Res State :=
  onSource src len (fun v t => applyAlu (add8 t.a v false) t) s

/-- A <- add8(A, source, C) (rule R120). -/
def addcIntoA (src : Source) (len : Nat) (s : State) : Res State :=
  onSource src len (fun v t => applyAlu (add8 t.a v t.cy) t) s

/-- A <- sub8(A, source, C) (rule R121). -/
def subbIntoA (src : Source) (len : Nat) (s : State) : Res State :=
  onSource src len (fun v t => applyAlu (sub8 t.a v t.cy) t) s

/-- ADD A,Rn (rule R122). -/
def execAddRn (n : RegNo) (s : State) : Res State := addIntoA (.reg n) 1 s

/-- ADD A,direct (rule R123). -/
def execAddDirect (d : Byte) (s : State) : Res State := addIntoA (.direct d) 2 s

/-- ADD A,@Ri (rule R124). -/
def execAddInd (i : IndNo) (s : State) : Res State := addIntoA (.ind i) 1 s

/-- ADD A,#data (rule R125). -/
def execAddImm (k : Byte) (s : State) : Res State := addIntoA (.imm k) 2 s

/-- ADDC A,Rn (rule R126). -/
def execAddcRn (n : RegNo) (s : State) : Res State := addcIntoA (.reg n) 1 s

/-- ADDC A,direct (rule R127). -/
def execAddcDirect (d : Byte) (s : State) : Res State := addcIntoA (.direct d) 2 s

/-- ADDC A,@Ri (rule R128). -/
def execAddcInd (i : IndNo) (s : State) : Res State := addcIntoA (.ind i) 1 s

/-- ADDC A,#data (rule R129). -/
def execAddcImm (k : Byte) (s : State) : Res State := addcIntoA (.imm k) 2 s

/-- SUBB A,Rn (rule R130). -/
def execSubbRn (n : RegNo) (s : State) : Res State := subbIntoA (.reg n) 1 s

/-- SUBB A,direct (rule R131). -/
def execSubbDirect (d : Byte) (s : State) : Res State := subbIntoA (.direct d) 2 s

/-- SUBB A,@Ri (rule R132). -/
def execSubbInd (i : IndNo) (s : State) : Res State := subbIntoA (.ind i) 1 s

/-- SUBB A,#data (rule R133). -/
def execSubbImm (k : Byte) (s : State) : Res State := subbIntoA (.imm k) 2 s

/-- INC A (rule R134). -/
def execIncA (s : State) : Res State := changeA (fun v => v + 1) s

/-- INC Rn (rule R135). -/
def execIncRn (n : RegNo) (s : State) : Res State := changeReg n (fun v => v + 1) 1 s

/-- INC direct (rule R136). -/
def execIncDirect (d : Byte) (s : State) : Res State := changeDirect d (fun v => v + 1) 2 s

/-- INC @Ri (rule R137). -/
def execIncInd (i : IndNo) (s : State) : Res State := changeInd i (fun v => v + 1) 1 s

/-- DEC A (rule R138). -/
def execDecA (s : State) : Res State := changeA (fun v => v - 1) s

/-- DEC Rn (rule R139). -/
def execDecRn (n : RegNo) (s : State) : Res State := changeReg n (fun v => v - 1) 1 s

/-- DEC direct (rule R140). -/
def execDecDirect (d : Byte) (s : State) : Res State := changeDirect d (fun v => v - 1) 2 s

/-- DEC @Ri (rule R141). -/
def execDecInd (i : IndNo) (s : State) : Res State := changeInd i (fun v => v - 1) 1 s

/-- INC DPTR, modulo 65536, no flag (rule R142). -/
def execIncDptr (s : State) : Res State := .next (advance 1 (setDptr (s.dptr + 1) s))

/-- MUL AB: C is cleared, OV tells a product above 255, AC is kept (rule R143). -/
def execMulAb (s : State) : Res State :=
  let p := multiply s.a s.b
  .next (advance 1 (setOv p.2.2 (setCy false { s with a := p.1, b := p.2.1 })))

/-- DIV AB: C is cleared, AC is kept. With B = 0 the values left in A and B are two free bytes and OV is set; the
machine goes on (rule R144; notes/assumptions/3.md). -/
def execDivAb (s : State) : Res State :=
  if s.b = 0 then
    .next (advance 1 (setOv true (setCy false
      { s with a := Config.draw8 .divQuotient s.draws, b := Config.draw8 .divRemainder s.draws })))
  else
    .next (advance 1 (setOv false (setCy false { s with a := (divide s.a s.b).1, b := (divide s.a s.b).2 })))

/-- DA A: C can be set and is never cleared; AC and OV are kept (rule R145). -/
def execDaA (s : State) : Res State :=
  let r := decimalAdjust s.a s.ac s.cy
  .next (advance 1 (setCy r.2 { s with a := r.1 }))

end Sys2Proof.Machine
end

