-- ==== Sys2Proof/Machine/Boolean.lean ====
section
/-! DEFINITION. The 12 forms of 43_boolean.md. -/

namespace Sys2Proof.Machine

/-- CLR C (rule R216). -/
def execClrC (s : State) : Res State := .next (advance 1 (setCy false s))

/-- CLR bit (rule R217). -/
def execClrBit (b : Byte) (s : State) : Res State := writeBit b false s

/-- SETB C (rule R218). -/
def execSetbC (s : State) : Res State := .next (advance 1 (setCy true s))

/-- SETB bit (rule R219). -/
def execSetbBit (b : Byte) (s : State) : Res State := writeBit b true s

/-- CPL C (rule R220). -/
def execCplC (s : State) : Res State := .next (advance 1 (setCy (!s.cy) s))

/-- CPL bit: a port bit is read from the latch (rule R221). -/
def execCplBit (b : Byte) (s : State) : Res State := andThen (bitReadRmw b s) fun v => writeBit b (!v) s

/-- ANL C,bit (rule R222). -/
def execAnlCBit (b : Byte) (s : State) : Res State := bitIntoC b (fun c v => c && v) s

/-- ANL C,/bit (rule R223). -/
def execAnlCNotBit (b : Byte) (s : State) : Res State := bitIntoC b (fun c v => c && !v) s

/-- ORL C,bit (rule R224). -/
def execOrlCBit (b : Byte) (s : State) : Res State := bitIntoC b (fun c v => c || v) s

/-- ORL C,/bit (rule R225). -/
def execOrlCNotBit (b : Byte) (s : State) : Res State := bitIntoC b (fun c v => c || !v) s

/-- MOV C,bit (rule R226). -/
def execMovCBit (b : Byte) (s : State) : Res State := bitIntoC b (fun _ v => v) s

/-- MOV bit,C (rule R227). -/
def execMovBitC (b : Byte) (s : State) : Res State := writeBit b s.cy s

end Sys2Proof.Machine
end

