-- ==== Sys2Proof/Machine/Control.lean ====
section
/-! DEFINITION. The 22 forms of 44_program_control.md. -/

namespace Sys2Proof.Machine

/-- ACALL addr11 (rule R232). -/
def execAcall (addr : BitVec 11) (s : State) : Res State :=
  andThen (pushWord (nextPc 2 s) s) fun t => .next { t with pc := pageTarget addr s }

/-- LCALL addr16 (rule R233). -/
def execLcall (addr : Word) (s : State) : Res State :=
  andThen (pushWord (nextPc 3 s) s) fun t => .next { t with pc := addr }

/-- RET (rule R234). -/
def execRet (s : State) : Res State := subroutineReturn s

/-- RETI (rule R235). -/
def execReti (s : State) : Res State := interruptReturn s

/-- AJMP addr11 (rule R236). -/
def execAjmp (addr : BitVec 11) (s : State) : Res State := .next { s with pc := pageTarget addr s }

/-- LJMP addr16 (rule R237). -/
def execLjmp (addr : Word) (s : State) : Res State := .next { s with pc := addr }

/-- SJMP rel (rule R238). -/
def execSjmp (rel : Byte) (s : State) : Res State := .next { s with pc := relTarget rel 2 s }

/-- JMP @A+DPTR, modulo 65536, A zero-extended (rule R239). -/
def execJmpADptr (s : State) : Res State := .next { s with pc := s.dptr + s.a.zeroExtend 16 }

/-- JZ rel (rule R240). -/
def execJz (rel : Byte) (s : State) : Res State := .next (branchIf (s.a == 0) rel 2 s)

/-- JNZ rel (rule R241). -/
def execJnz (rel : Byte) (s : State) : Res State := .next (branchIf (s.a != 0) rel 2 s)

/-- JC rel (rule R242). -/
def execJc (rel : Byte) (s : State) : Res State := .next (branchIf s.cy rel 2 s)

/-- JNC rel (rule R243). -/
def execJnc (rel : Byte) (s : State) : Res State := .next (branchIf (!s.cy) rel 2 s)

/-- JB bit,rel: a port bit is the pin (rule R244). -/
def execJb (b rel : Byte) (s : State) : Res State :=
  andThen (bitRead b s) fun v => .next (branchIf v rel 3 s)

/-- JNB bit,rel (rule R245). -/
def execJnb (b rel : Byte) (s : State) : Res State :=
  andThen (bitRead b s) fun v => .next (branchIf (!v) rel 3 s)

/-- JBC bit,rel: a port bit is the latch bit; the bit is written only if it was 1 (rule R246). -/
def execJbc (b rel : Byte) (s : State) : Res State :=
  andThen (bitReadRmw b s) fun v =>
    if v then andThen (bitWrite b false s) fun t => .next (branchIf true rel 3 t)
    else .next (branchIf false rel 3 s)

/-- CJNE A,direct,rel (rule R247). -/
def execCjneADirect (d rel : Byte) (s : State) : Res State :=
  andThen (directRead d s) fun v => compareJump s.a v rel s

/-- CJNE A,#data,rel (rule R248). -/
def execCjneAImm (k rel : Byte) (s : State) : Res State := compareJump s.a k rel s

/-- CJNE Rn,#data,rel (rule R249). -/
def execCjneRnImm (n : RegNo) (k rel : Byte) (s : State) : Res State :=
  andThen (regRead n s) fun v => compareJump v k rel s

/-- CJNE @Ri,#data,rel (rule R250). -/
def execCjneIndImm (i : IndNo) (k rel : Byte) (s : State) : Res State :=
  andThen (indRead i s) fun v => compareJump v k rel s

/-- DJNZ Rn,rel (rule R251). -/
def execDjnzRn (n : RegNo) (rel : Byte) (s : State) : Res State :=
  andThen (regRead n s) fun v =>
    andThen (regWrite n (v - 1) s) fun t => .next (branchIf (v - 1 != 0) rel 2 t)

/-- DJNZ direct,rel: a port is read from its latch; the test is on the value written (rule R252). -/
def execDjnzDirect (d rel : Byte) (s : State) : Res State :=
  andThen (directReadRmw d s) fun v =>
    andThen (directWrite d (v - 1) s) fun t => .next (branchIf (v - 1 != 0) rel 3 t)

/-- NOP (rule R253). -/
def execNop (s : State) : Res State := .next (advance 1 s)

end Sys2Proof.Machine
end

