-- ==== Sys2Proof/Machine/Logic.lean ====
section
/-! DEFINITION. The 25 forms of 41_logic.md. -/

namespace Sys2Proof.Machine

/-- ANL A,Rn (rule R151). -/
def execAnlARn (n : RegNo) (s : State) : Res State := intoA (.reg n) 1 (fun v w => v &&& w) s

/-- ANL A,direct (rule R152). -/
def execAnlADirect (d : Byte) (s : State) : Res State := intoA (.direct d) 2 (fun v w => v &&& w) s

/-- ANL A,@Ri (rule R153). -/
def execAnlAInd (i : IndNo) (s : State) : Res State := intoA (.ind i) 1 (fun v w => v &&& w) s

/-- ANL A,#data (rule R154). -/
def execAnlAImm (k : Byte) (s : State) : Res State := intoA (.imm k) 2 (fun v w => v &&& w) s

/-- ANL direct,A (rule R155). -/
def execAnlDirectA (d : Byte) (s : State) : Res State := changeDirect d (fun v => v &&& s.a) 2 s

/-- ANL direct,#data (rule R156). -/
def execAnlDirectImm (d k : Byte) (s : State) : Res State := changeDirect d (fun v => v &&& k) 3 s

/-- ORL A,Rn (rule R157). -/
def execOrlARn (n : RegNo) (s : State) : Res State := intoA (.reg n) 1 (fun v w => v ||| w) s

/-- ORL A,direct (rule R158). -/
def execOrlADirect (d : Byte) (s : State) : Res State := intoA (.direct d) 2 (fun v w => v ||| w) s

/-- ORL A,@Ri (rule R159). -/
def execOrlAInd (i : IndNo) (s : State) : Res State := intoA (.ind i) 1 (fun v w => v ||| w) s

/-- ORL A,#data (rule R160). -/
def execOrlAImm (k : Byte) (s : State) : Res State := intoA (.imm k) 2 (fun v w => v ||| w) s

/-- ORL direct,A (rule R161). -/
def execOrlDirectA (d : Byte) (s : State) : Res State := changeDirect d (fun v => v ||| s.a) 2 s

/-- ORL direct,#data (rule R162). -/
def execOrlDirectImm (d k : Byte) (s : State) : Res State := changeDirect d (fun v => v ||| k) 3 s

/-- XRL A,Rn (rule R163). -/
def execXrlARn (n : RegNo) (s : State) : Res State := intoA (.reg n) 1 (fun v w => v ^^^ w) s

/-- XRL A,direct (rule R164). -/
def execXrlADirect (d : Byte) (s : State) : Res State := intoA (.direct d) 2 (fun v w => v ^^^ w) s

/-- XRL A,@Ri (rule R165). -/
def execXrlAInd (i : IndNo) (s : State) : Res State := intoA (.ind i) 1 (fun v w => v ^^^ w) s

/-- XRL A,#data (rule R166). -/
def execXrlAImm (k : Byte) (s : State) : Res State := intoA (.imm k) 2 (fun v w => v ^^^ w) s

/-- XRL direct,A (rule R167). -/
def execXrlDirectA (d : Byte) (s : State) : Res State := changeDirect d (fun v => v ^^^ s.a) 2 s

/-- XRL direct,#data (rule R168). -/
def execXrlDirectImm (d k : Byte) (s : State) : Res State := changeDirect d (fun v => v ^^^ k) 3 s

/-- CLR A (rule R169). -/
def execClrA (s : State) : Res State := changeA (fun _ => 0x00) s

/-- CPL A (rule R170). -/
def execCplA (s : State) : Res State := changeA (fun v => ~~~v) s

/-- RL A (rule R171). -/
def execRlA (s : State) : Res State := changeA (fun v => v.rotateLeft 1) s

/-- RLC A: the old C enters at bit 0, the old bit 7 goes to C (rule R172). -/
def execRlcA (s : State) : Res State :=
  .next (advance 1 (setCy (s.a.getLsbD 7) { s with a := withBit (s.a <<< 1) 0 s.cy }))

/-- RR A (rule R173). -/
def execRrA (s : State) : Res State := changeA (fun v => v.rotateRight 1) s

/-- RRC A: the old C enters at bit 7, the old bit 0 goes to C (rule R174). -/
def execRrcA (s : State) : Res State :=
  .next (advance 1 (setCy (s.a.getLsbD 0) { s with a := withBit (s.a >>> 1) 7 s.cy }))

/-- SWAP A (rule R175). -/
def execSwapA (s : State) : Res State := changeA (fun v => v.rotateLeft 4) s

end Sys2Proof.Machine
end

