-- ==== Sys2Proof/WellFormed.lean ====
section
/-! DEFINITION. Which instructions are well formed. The operand types leave one thing to check: 30_encoding.md rule
R101 excludes one operand value of one form, "MOV A,ACC is not a valid instruction"; every other operand value of every
form is valid. Beside it, the length and the machine cycles of each form (rules R103, R297). -/

namespace Sys2Proof

/-- The direct address of ACC (10_state.md rule R30). -/
def accAddress : Byte := 0xE0

/-- Is the instruction one the spec allows to be written (rule R101)? -/
def Instr.wf : Instr → Bool
  | .addRn _ => true
  | .addDirect _ => true
  | .addInd _ => true
  | .addImm _ => true
  | .addcRn _ => true
  | .addcDirect _ => true
  | .addcInd _ => true
  | .addcImm _ => true
  | .subbRn _ => true
  | .subbDirect _ => true
  | .subbInd _ => true
  | .subbImm _ => true
  | .incA => true
  | .incRn _ => true
  | .incDirect _ => true
  | .incInd _ => true
  | .decA => true
  | .decRn _ => true
  | .decDirect _ => true
  | .decInd _ => true
  | .incDptr => true
  | .mulAb => true
  | .divAb => true
  | .daA => true
  | .anlARn _ => true
  | .anlADirect _ => true
  | .anlAInd _ => true
  | .anlAImm _ => true
  | .anlDirectA _ => true
  | .anlDirectImm _ _ => true
  | .orlARn _ => true
  | .orlADirect _ => true
  | .orlAInd _ => true
  | .orlAImm _ => true
  | .orlDirectA _ => true
  | .orlDirectImm _ _ => true
  | .xrlARn _ => true
  | .xrlADirect _ => true
  | .xrlAInd _ => true
  | .xrlAImm _ => true
  | .xrlDirectA _ => true
  | .xrlDirectImm _ _ => true
  | .clrA => true
  | .cplA => true
  | .rlA => true
  | .rlcA => true
  | .rrA => true
  | .rrcA => true
  | .swapA => true
  | .movARn _ => true
  | .movADirect direct => direct != accAddress
  | .movAInd _ => true
  | .movAImm _ => true
  | .movRnA _ => true
  | .movRnDirect _ _ => true
  | .movRnImm _ _ => true
  | .movDirectA _ => true
  | .movDirectRn _ _ => true
  | .movDirectDirect _ _ => true
  | .movDirectInd _ _ => true
  | .movDirectImm _ _ => true
  | .movIndA _ => true
  | .movIndDirect _ _ => true
  | .movIndImm _ _ => true
  | .movDptr _ => true
  | .movcDptr => true
  | .movcPc => true
  | .movxAInd _ => true
  | .movxADptr => true
  | .movxIndA _ => true
  | .movxDptrA => true
  | .push _ => true
  | .pop _ => true
  | .xchRn _ => true
  | .xchDirect _ => true
  | .xchInd _ => true
  | .xchd _ => true
  | .clrC => true
  | .clrBit _ => true
  | .setbC => true
  | .setbBit _ => true
  | .cplC => true
  | .cplBit _ => true
  | .anlCBit _ => true
  | .anlCNotBit _ => true
  | .orlCBit _ => true
  | .orlCNotBit _ => true
  | .movCBit _ => true
  | .movBitC _ => true
  | .acall _ => true
  | .lcall _ => true
  | .ret => true
  | .reti => true
  | .ajmp _ => true
  | .ljmp _ => true
  | .sjmp _ => true
  | .jmpADptr => true
  | .jz _ => true
  | .jnz _ => true
  | .jc _ => true
  | .jnc _ => true
  | .jb _ _ => true
  | .jnb _ _ => true
  | .jbc _ _ => true
  | .cjneADirect _ _ => true
  | .cjneAImm _ _ => true
  | .cjneRnImm _ _ _ => true
  | .cjneIndImm _ _ _ => true
  | .djnzRn _ _ => true
  | .djnzDirect _ _ => true
  | .nop => true

/-- The length of the form in bytes (rules R90, R103). -/
def Instr.len : Instr → Nat
  | .addRn _ => 1
  | .addDirect _ => 2
  | .addInd _ => 1
  | .addImm _ => 2
  | .addcRn _ => 1
  | .addcDirect _ => 2
  | .addcInd _ => 1
  | .addcImm _ => 2
  | .subbRn _ => 1
  | .subbDirect _ => 2
  | .subbInd _ => 1
  | .subbImm _ => 2
  | .incA => 1
  | .incRn _ => 1
  | .incDirect _ => 2
  | .incInd _ => 1
  | .decA => 1
  | .decRn _ => 1
  | .decDirect _ => 2
  | .decInd _ => 1
  | .incDptr => 1
  | .mulAb => 1
  | .divAb => 1
  | .daA => 1
  | .anlARn _ => 1
  | .anlADirect _ => 2
  | .anlAInd _ => 1
  | .anlAImm _ => 2
  | .anlDirectA _ => 2
  | .anlDirectImm _ _ => 3
  | .orlARn _ => 1
  | .orlADirect _ => 2
  | .orlAInd _ => 1
  | .orlAImm _ => 2
  | .orlDirectA _ => 2
  | .orlDirectImm _ _ => 3
  | .xrlARn _ => 1
  | .xrlADirect _ => 2
  | .xrlAInd _ => 1
  | .xrlAImm _ => 2
  | .xrlDirectA _ => 2
  | .xrlDirectImm _ _ => 3
  | .clrA => 1
  | .cplA => 1
  | .rlA => 1
  | .rlcA => 1
  | .rrA => 1
  | .rrcA => 1
  | .swapA => 1
  | .movARn _ => 1
  | .movADirect _ => 2
  | .movAInd _ => 1
  | .movAImm _ => 2
  | .movRnA _ => 1
  | .movRnDirect _ _ => 2
  | .movRnImm _ _ => 2
  | .movDirectA _ => 2
  | .movDirectRn _ _ => 2
  | .movDirectDirect _ _ => 3
  | .movDirectInd _ _ => 2
  | .movDirectImm _ _ => 3
  | .movIndA _ => 1
  | .movIndDirect _ _ => 2
  | .movIndImm _ _ => 2
  | .movDptr _ => 3
  | .movcDptr => 1
  | .movcPc => 1
  | .movxAInd _ => 1
  | .movxADptr => 1
  | .movxIndA _ => 1
  | .movxDptrA => 1
  | .push _ => 2
  | .pop _ => 2
  | .xchRn _ => 1
  | .xchDirect _ => 2
  | .xchInd _ => 1
  | .xchd _ => 1
  | .clrC => 1
  | .clrBit _ => 2
  | .setbC => 1
  | .setbBit _ => 2
  | .cplC => 1
  | .cplBit _ => 2
  | .anlCBit _ => 2
  | .anlCNotBit _ => 2
  | .orlCBit _ => 2
  | .orlCNotBit _ => 2
  | .movCBit _ => 2
  | .movBitC _ => 2
  | .acall _ => 2
  | .lcall _ => 3
  | .ret => 1
  | .reti => 1
  | .ajmp _ => 2
  | .ljmp _ => 3
  | .sjmp _ => 2
  | .jmpADptr => 1
  | .jz _ => 2
  | .jnz _ => 2
  | .jc _ => 2
  | .jnc _ => 2
  | .jb _ _ => 3
  | .jnb _ _ => 3
  | .jbc _ _ => 3
  | .cjneADirect _ _ => 3
  | .cjneAImm _ _ => 3
  | .cjneRnImm _ _ _ => 3
  | .cjneIndImm _ _ _ => 3
  | .djnzRn _ _ => 2
  | .djnzDirect _ _ => 3
  | .nop => 1

/-- The machine cycles of the form (70_reset_and_hazards.md rule R297): reference data, which no rule of the model
reads (rule R296). -/
def Instr.cycles : Instr → Nat
  | .addRn _ => 1
  | .addDirect _ => 1
  | .addInd _ => 1
  | .addImm _ => 1
  | .addcRn _ => 1
  | .addcDirect _ => 1
  | .addcInd _ => 1
  | .addcImm _ => 1
  | .subbRn _ => 1
  | .subbDirect _ => 1
  | .subbInd _ => 1
  | .subbImm _ => 1
  | .incA => 1
  | .incRn _ => 1
  | .incDirect _ => 1
  | .incInd _ => 1
  | .decA => 1
  | .decRn _ => 1
  | .decDirect _ => 1
  | .decInd _ => 1
  | .incDptr => 2
  | .mulAb => 4
  | .divAb => 4
  | .daA => 1
  | .anlARn _ => 1
  | .anlADirect _ => 1
  | .anlAInd _ => 1
  | .anlAImm _ => 1
  | .anlDirectA _ => 1
  | .anlDirectImm _ _ => 2
  | .orlARn _ => 1
  | .orlADirect _ => 1
  | .orlAInd _ => 1
  | .orlAImm _ => 1
  | .orlDirectA _ => 1
  | .orlDirectImm _ _ => 2
  | .xrlARn _ => 1
  | .xrlADirect _ => 1
  | .xrlAInd _ => 1
  | .xrlAImm _ => 1
  | .xrlDirectA _ => 1
  | .xrlDirectImm _ _ => 2
  | .clrA => 1
  | .cplA => 1
  | .rlA => 1
  | .rlcA => 1
  | .rrA => 1
  | .rrcA => 1
  | .swapA => 1
  | .movARn _ => 1
  | .movADirect _ => 1
  | .movAInd _ => 1
  | .movAImm _ => 1
  | .movRnA _ => 1
  | .movRnDirect _ _ => 2
  | .movRnImm _ _ => 1
  | .movDirectA _ => 1
  | .movDirectRn _ _ => 2
  | .movDirectDirect _ _ => 2
  | .movDirectInd _ _ => 2
  | .movDirectImm _ _ => 2
  | .movIndA _ => 1
  | .movIndDirect _ _ => 2
  | .movIndImm _ _ => 1
  | .movDptr _ => 2
  | .movcDptr => 2
  | .movcPc => 2
  | .movxAInd _ => 2
  | .movxADptr => 2
  | .movxIndA _ => 2
  | .movxDptrA => 2
  | .push _ => 2
  | .pop _ => 2
  | .xchRn _ => 1
  | .xchDirect _ => 1
  | .xchInd _ => 1
  | .xchd _ => 1
  | .clrC => 1
  | .clrBit _ => 1
  | .setbC => 1
  | .setbBit _ => 1
  | .cplC => 1
  | .cplBit _ => 1
  | .anlCBit _ => 2
  | .anlCNotBit _ => 2
  | .orlCBit _ => 2
  | .orlCNotBit _ => 2
  | .movCBit _ => 1
  | .movBitC _ => 2
  | .acall _ => 2
  | .lcall _ => 2
  | .ret => 2
  | .reti => 2
  | .ajmp _ => 2
  | .ljmp _ => 2
  | .sjmp _ => 2
  | .jmpADptr => 2
  | .jz _ => 2
  | .jnz _ => 2
  | .jc _ => 2
  | .jnc _ => 2
  | .jb _ _ => 2
  | .jnb _ _ => 2
  | .jbc _ _ => 2
  | .cjneADirect _ _ => 2
  | .cjneAImm _ _ => 2
  | .cjneRnImm _ _ _ => 2
  | .cjneIndImm _ _ _ => 2
  | .djnzRn _ _ => 2
  | .djnzDirect _ _ => 2
  | .nop => 1

end Sys2Proof
end

