-- ==== Sys2Proof/Machine/Transfer.lean ====
section
/-! DEFINITION. The 28 forms of 42_data_transfer.md. -/

namespace Sys2Proof.Machine

/-- MOV A,Rn (rule R181). -/
def execMovARn (n : RegNo) (s : State) : Res State := intoA (.reg n) 1 (fun _ v => v) s

/-- MOV A,direct; MOV A,ACC is refused: "MOV A,ACC is not a valid instruction" (rule R182). -/
def execMovADirect (d : Byte) (s : State) : Res State :=
  if d = accAddress then .refused .movAAcc else intoA (.direct d) 2 (fun _ v => v) s

/-- MOV A,@Ri (rule R183). -/
def execMovAInd (i : IndNo) (s : State) : Res State := intoA (.ind i) 1 (fun _ v => v) s

/-- MOV A,#data (rule R184). -/
def execMovAImm (k : Byte) (s : State) : Res State := intoA (.imm k) 2 (fun _ v => v) s

/-- MOV Rn,A (rule R185). -/
def execMovRnA (n : RegNo) (s : State) : Res State := thenAdvance 1 (regWrite n s.a s)

/-- MOV Rn,direct (rule R186). -/
def execMovRnDirect (n : RegNo) (d : Byte) (s : State) : Res State := moveToReg n (.direct d) 2 s

/-- MOV Rn,#data (rule R187). -/
def execMovRnImm (n : RegNo) (k : Byte) (s : State) : Res State := moveToReg n (.imm k) 2 s

/-- MOV direct,A (rule R188). -/
def execMovDirectA (d : Byte) (s : State) : Res State := thenAdvance 2 (directWrite d s.a s)

/-- MOV direct,Rn (rule R189). -/
def execMovDirectRn (n : RegNo) (d : Byte) (s : State) : Res State := moveToDirect d (.reg n) 2 s

/-- MOV direct,direct: the first operand byte is the source, the second the destination (rule R190). -/
def execMovDirectDirect (src dst : Byte) (s : State) : Res State := moveToDirect dst (.direct src) 3 s

/-- MOV direct,@Ri (rule R191). -/
def execMovDirectInd (i : IndNo) (d : Byte) (s : State) : Res State := moveToDirect d (.ind i) 2 s

/-- MOV direct,#data (rule R192). -/
def execMovDirectImm (d k : Byte) (s : State) : Res State := moveToDirect d (.imm k) 3 s

/-- MOV @Ri,A (rule R193). -/
def execMovIndA (i : IndNo) (s : State) : Res State := thenAdvance 1 (indWrite i s.a s)

/-- MOV @Ri,direct (rule R194). -/
def execMovIndDirect (i : IndNo) (d : Byte) (s : State) : Res State := moveToInd i (.direct d) 2 s

/-- MOV @Ri,#data (rule R195). -/
def execMovIndImm (i : IndNo) (k : Byte) (s : State) : Res State := moveToInd i (.imm k) 2 s

/-- MOV DPTR,#data16 (rule R196). -/
def execMovDptr (w : Word) (s : State) : Res State := .next (advance 3 (setDptr w s))

/-- MOVC A,@A+DPTR (rule R197). -/
def execMovcDptr (s : State) : Res State :=
  andThen (codeRead (s.dptr + s.a.zeroExtend 16) s) fun v => .next (advance 1 { s with a := v })

/-- MOVC A,@A+PC: the base is the address of the following instruction (rule R198). -/
def execMovcPc (s : State) : Res State :=
  andThen (codeRead (nextPc 1 s + s.a.zeroExtend 16) s) fun v => .next (advance 1 { s with a := v })

/-- MOVX A,@Ri (rule R199). -/
def execMovxAInd (i : IndNo) (s : State) : Res State :=
  andThen (indAddress i s) fun r =>
    andThen (xRead (xPage s ++ r) s) fun v => .next (advance 1 (afterMovx { s with a := v }))

/-- MOVX A,@DPTR (rule R200). -/
def execMovxADptr (s : State) : Res State :=
  andThen (xRead s.dptr s) fun v => .next (advance 1 (afterMovx { s with a := v }))

/-- MOVX @Ri,A (rule R201). -/
def execMovxIndA (i : IndNo) (s : State) : Res State :=
  andThen (indAddress i s) fun r => .next (advance 1 (afterMovx (xWrite (xPage s ++ r) s.a s)))

/-- MOVX @DPTR,A (rule R202). -/
def execMovxDptrA (s : State) : Res State := .next (advance 1 (afterMovx (xWrite s.dptr s.a s)))

/-- PUSH direct: SP is incremented before the source is read, so PUSH SP stores the incremented value (rule R203). -/
def execPush (d : Byte) (s : State) : Res State :=
  andThen (directRead d { s with sp := s.sp + 1 }) fun v => thenAdvance 2 (push v s)

/-- POP direct: SP is decremented before the destination is written, so POP SP leaves the byte popped (rule R204). -/
def execPop (d : Byte) (s : State) : Res State :=
  andThen (pop s) fun r => thenAdvance 2 (directWrite d r.1 r.2)

/-- XCH A,Rn (rule R205). -/
def execXchRn (n : RegNo) (s : State) : Res State :=
  andThen (regRead n s) fun t => andThen (regWrite n s.a s) fun u => .next (advance 1 { u with a := t })

/-- XCH A,direct: a port gives its pins and its latch receives A (rule R206). -/
def execXchDirect (d : Byte) (s : State) : Res State :=
  andThen (directRead d s) fun t => andThen (directWrite d s.a s) fun u => .next (advance 2 { u with a := t })

/-- XCH A,@Ri (rule R207). -/
def execXchInd (i : IndNo) (s : State) : Res State :=
  andThen (indAddress i s) fun c =>
    andThen (iramRead c s) fun t => andThen (iramWrite c s.a s) fun u => .next (advance 1 { u with a := t })

/-- The high nibble of the first byte over the low nibble of the second. -/
def nibbles (high low : Byte) : Byte := high.extractLsb' 4 4 ++ low.extractLsb' 0 4

/-- XCHD A,@Ri: the low nibbles are exchanged (rule R208). -/
def execXchd (i : IndNo) (s : State) : Res State :=
  andThen (indAddress i s) fun c =>
    andThen (iramRead c s) fun t =>
      andThen (iramWrite c (nibbles t s.a) s) fun u => .next (advance 1 { u with a := nibbles s.a t })

end Sys2Proof.Machine
end

