-- ==== Sys2Proof/Machine/Dispatch.lean ====
section
/-! DEFINITION. The meaning of every instruction, one arm a form. -/

namespace Sys2Proof.Machine

def exec (i : Instr) (s : State) : Host.Outcome State Fault Refusal :=
  match i with
  | .addRn n => Sys2Proof.Machine.execAddRn n s
  | .addDirect direct => Sys2Proof.Machine.execAddDirect direct s
  | .addInd ri => Sys2Proof.Machine.execAddInd ri s
  | .addImm data => Sys2Proof.Machine.execAddImm data s
  | .addcRn n => Sys2Proof.Machine.execAddcRn n s
  | .addcDirect direct => Sys2Proof.Machine.execAddcDirect direct s
  | .addcInd ri => Sys2Proof.Machine.execAddcInd ri s
  | .addcImm data => Sys2Proof.Machine.execAddcImm data s
  | .subbRn n => Sys2Proof.Machine.execSubbRn n s
  | .subbDirect direct => Sys2Proof.Machine.execSubbDirect direct s
  | .subbInd ri => Sys2Proof.Machine.execSubbInd ri s
  | .subbImm data => Sys2Proof.Machine.execSubbImm data s
  | .incA => Sys2Proof.Machine.execIncA s
  | .incRn n => Sys2Proof.Machine.execIncRn n s
  | .incDirect direct => Sys2Proof.Machine.execIncDirect direct s
  | .incInd ri => Sys2Proof.Machine.execIncInd ri s
  | .decA => Sys2Proof.Machine.execDecA s
  | .decRn n => Sys2Proof.Machine.execDecRn n s
  | .decDirect direct => Sys2Proof.Machine.execDecDirect direct s
  | .decInd ri => Sys2Proof.Machine.execDecInd ri s
  | .incDptr => Sys2Proof.Machine.execIncDptr s
  | .mulAb => Sys2Proof.Machine.execMulAb s
  | .divAb => Sys2Proof.Machine.execDivAb s
  | .daA => Sys2Proof.Machine.execDaA s
  | .anlARn n => Sys2Proof.Machine.execAnlARn n s
  | .anlADirect direct => Sys2Proof.Machine.execAnlADirect direct s
  | .anlAInd ri => Sys2Proof.Machine.execAnlAInd ri s
  | .anlAImm data => Sys2Proof.Machine.execAnlAImm data s
  | .anlDirectA direct => Sys2Proof.Machine.execAnlDirectA direct s
  | .anlDirectImm direct data => Sys2Proof.Machine.execAnlDirectImm direct data s
  | .orlARn n => Sys2Proof.Machine.execOrlARn n s
  | .orlADirect direct => Sys2Proof.Machine.execOrlADirect direct s
  | .orlAInd ri => Sys2Proof.Machine.execOrlAInd ri s
  | .orlAImm data => Sys2Proof.Machine.execOrlAImm data s
  | .orlDirectA direct => Sys2Proof.Machine.execOrlDirectA direct s
  | .orlDirectImm direct data => Sys2Proof.Machine.execOrlDirectImm direct data s
  | .xrlARn n => Sys2Proof.Machine.execXrlARn n s
  | .xrlADirect direct => Sys2Proof.Machine.execXrlADirect direct s
  | .xrlAInd ri => Sys2Proof.Machine.execXrlAInd ri s
  | .xrlAImm data => Sys2Proof.Machine.execXrlAImm data s
  | .xrlDirectA direct => Sys2Proof.Machine.execXrlDirectA direct s
  | .xrlDirectImm direct data => Sys2Proof.Machine.execXrlDirectImm direct data s
  | .clrA => Sys2Proof.Machine.execClrA s
  | .cplA => Sys2Proof.Machine.execCplA s
  | .rlA => Sys2Proof.Machine.execRlA s
  | .rlcA => Sys2Proof.Machine.execRlcA s
  | .rrA => Sys2Proof.Machine.execRrA s
  | .rrcA => Sys2Proof.Machine.execRrcA s
  | .swapA => Sys2Proof.Machine.execSwapA s
  | .movARn n => Sys2Proof.Machine.execMovARn n s
  | .movADirect direct => Sys2Proof.Machine.execMovADirect direct s
  | .movAInd ri => Sys2Proof.Machine.execMovAInd ri s
  | .movAImm data => Sys2Proof.Machine.execMovAImm data s
  | .movRnA n => Sys2Proof.Machine.execMovRnA n s
  | .movRnDirect n direct => Sys2Proof.Machine.execMovRnDirect n direct s
  | .movRnImm n data => Sys2Proof.Machine.execMovRnImm n data s
  | .movDirectA direct => Sys2Proof.Machine.execMovDirectA direct s
  | .movDirectRn n direct => Sys2Proof.Machine.execMovDirectRn n direct s
  | .movDirectDirect src dst => Sys2Proof.Machine.execMovDirectDirect src dst s
  | .movDirectInd ri direct => Sys2Proof.Machine.execMovDirectInd ri direct s
  | .movDirectImm direct data => Sys2Proof.Machine.execMovDirectImm direct data s
  | .movIndA ri => Sys2Proof.Machine.execMovIndA ri s
  | .movIndDirect ri direct => Sys2Proof.Machine.execMovIndDirect ri direct s
  | .movIndImm ri data => Sys2Proof.Machine.execMovIndImm ri data s
  | .movDptr data => Sys2Proof.Machine.execMovDptr data s
  | .movcDptr => Sys2Proof.Machine.execMovcDptr s
  | .movcPc => Sys2Proof.Machine.execMovcPc s
  | .movxAInd ri => Sys2Proof.Machine.execMovxAInd ri s
  | .movxADptr => Sys2Proof.Machine.execMovxADptr s
  | .movxIndA ri => Sys2Proof.Machine.execMovxIndA ri s
  | .movxDptrA => Sys2Proof.Machine.execMovxDptrA s
  | .push direct => Sys2Proof.Machine.execPush direct s
  | .pop direct => Sys2Proof.Machine.execPop direct s
  | .xchRn n => Sys2Proof.Machine.execXchRn n s
  | .xchDirect direct => Sys2Proof.Machine.execXchDirect direct s
  | .xchInd ri => Sys2Proof.Machine.execXchInd ri s
  | .xchd ri => Sys2Proof.Machine.execXchd ri s
  | .clrC => Sys2Proof.Machine.execClrC s
  | .clrBit bit => Sys2Proof.Machine.execClrBit bit s
  | .setbC => Sys2Proof.Machine.execSetbC s
  | .setbBit bit => Sys2Proof.Machine.execSetbBit bit s
  | .cplC => Sys2Proof.Machine.execCplC s
  | .cplBit bit => Sys2Proof.Machine.execCplBit bit s
  | .anlCBit bit => Sys2Proof.Machine.execAnlCBit bit s
  | .anlCNotBit bit => Sys2Proof.Machine.execAnlCNotBit bit s
  | .orlCBit bit => Sys2Proof.Machine.execOrlCBit bit s
  | .orlCNotBit bit => Sys2Proof.Machine.execOrlCNotBit bit s
  | .movCBit bit => Sys2Proof.Machine.execMovCBit bit s
  | .movBitC bit => Sys2Proof.Machine.execMovBitC bit s
  | .acall addr => Sys2Proof.Machine.execAcall addr s
  | .lcall addr => Sys2Proof.Machine.execLcall addr s
  | .ret => Sys2Proof.Machine.execRet s
  | .reti => Sys2Proof.Machine.execReti s
  | .ajmp addr => Sys2Proof.Machine.execAjmp addr s
  | .ljmp addr => Sys2Proof.Machine.execLjmp addr s
  | .sjmp rel => Sys2Proof.Machine.execSjmp rel s
  | .jmpADptr => Sys2Proof.Machine.execJmpADptr s
  | .jz rel => Sys2Proof.Machine.execJz rel s
  | .jnz rel => Sys2Proof.Machine.execJnz rel s
  | .jc rel => Sys2Proof.Machine.execJc rel s
  | .jnc rel => Sys2Proof.Machine.execJnc rel s
  | .jb bit rel => Sys2Proof.Machine.execJb bit rel s
  | .jnb bit rel => Sys2Proof.Machine.execJnb bit rel s
  | .jbc bit rel => Sys2Proof.Machine.execJbc bit rel s
  | .cjneADirect direct rel => Sys2Proof.Machine.execCjneADirect direct rel s
  | .cjneAImm data rel => Sys2Proof.Machine.execCjneAImm data rel s
  | .cjneRnImm n data rel => Sys2Proof.Machine.execCjneRnImm n data rel s
  | .cjneIndImm ri data rel => Sys2Proof.Machine.execCjneIndImm ri data rel s
  | .djnzRn n rel => Sys2Proof.Machine.execDjnzRn n rel s
  | .djnzDirect direct rel => Sys2Proof.Machine.execDjnzDirect direct rel s
  | .nop => Sys2Proof.Machine.execNop s

end Sys2Proof.Machine
end

