-- ==== Sys2Proof/Decode.lean ====
section
/-! DEFINITION. The decoder and, after it, the encoder (30_encoding.md). The decoder is the table of rule R99, one row a
form: the first byte alone selects the row (rule R90) and gives the length; the row says which field of which byte each
operand is. -/

namespace Sys2Proof

/-- The two encodings the spec excludes. -/
inductive Excluded where
  /-- The first byte is A5H, which selects no instruction (rule R100). -/
  | reservedOpcode
  /-- The byte pair E5H E0H, MOV A,ACC (rule R101). -/
  | movAAcc
  deriving DecidableEq, Repr

/-- Why the decoder rejects a list of bytes. -/
inductive DecodeError where
  /-- The bytes are an excluded encoding. -/
  | excluded (why : Excluded)
  /-- There are fewer bytes than the first byte asks for. -/
  | truncated
  deriving DecidableEq, Repr

/-- One row of the table of rule R99: the fixed bits of the first byte, the length in bytes, and the instruction that
the first byte and the two bytes after it are. -/
structure OpRow where
  mask : Byte
  pattern : Byte
  len : Nat
  build : Byte → Byte → Byte → Instr

/-- The field rrr, bits 2..0 of the first byte (rule R93). -/
def regField (op : Byte) : RegNo := Fin.ofNat 8 op.toNat

/-- The field i, bit 0 of the first byte (rule R93). -/
def indField (op : Byte) : IndNo := Fin.ofNat 2 op.toNat

/-- addr11: bits 7..5 of the first byte above the second byte (rule R94). -/
def addr11Field (op b2 : Byte) : BitVec 11 := op.extractLsb' 5 3 ++ b2

/-- The rows of 40_arithmetic.md (rule R99). -/
def arithmeticRows : List OpRow :=
  [⟨0xF8, 0x28, 1, fun op _ _ => .addRn (regField op)⟩,
   ⟨0xFF, 0x25, 2, fun _ b2 _ => .addDirect b2⟩,
   ⟨0xFE, 0x26, 1, fun op _ _ => .addInd (indField op)⟩,
   ⟨0xFF, 0x24, 2, fun _ b2 _ => .addImm b2⟩,
   ⟨0xF8, 0x38, 1, fun op _ _ => .addcRn (regField op)⟩,
   ⟨0xFF, 0x35, 2, fun _ b2 _ => .addcDirect b2⟩,
   ⟨0xFE, 0x36, 1, fun op _ _ => .addcInd (indField op)⟩,
   ⟨0xFF, 0x34, 2, fun _ b2 _ => .addcImm b2⟩,
   ⟨0xF8, 0x98, 1, fun op _ _ => .subbRn (regField op)⟩,
   ⟨0xFF, 0x95, 2, fun _ b2 _ => .subbDirect b2⟩,
   ⟨0xFE, 0x96, 1, fun op _ _ => .subbInd (indField op)⟩,
   ⟨0xFF, 0x94, 2, fun _ b2 _ => .subbImm b2⟩,
   ⟨0xFF, 0x04, 1, fun _ _ _ => .incA⟩,
   ⟨0xF8, 0x08, 1, fun op _ _ => .incRn (regField op)⟩,
   ⟨0xFF, 0x05, 2, fun _ b2 _ => .incDirect b2⟩,
   ⟨0xFE, 0x06, 1, fun op _ _ => .incInd (indField op)⟩,
   ⟨0xFF, 0x14, 1, fun _ _ _ => .decA⟩,
   ⟨0xF8, 0x18, 1, fun op _ _ => .decRn (regField op)⟩,
   ⟨0xFF, 0x15, 2, fun _ b2 _ => .decDirect b2⟩,
   ⟨0xFE, 0x16, 1, fun op _ _ => .decInd (indField op)⟩,
   ⟨0xFF, 0xA3, 1, fun _ _ _ => .incDptr⟩,
   ⟨0xFF, 0xA4, 1, fun _ _ _ => .mulAb⟩,
   ⟨0xFF, 0x84, 1, fun _ _ _ => .divAb⟩,
   ⟨0xFF, 0xD4, 1, fun _ _ _ => .daA⟩]

/-- The rows of 41_logic.md (rule R99). -/
def logicRows : List OpRow :=
  [⟨0xF8, 0x58, 1, fun op _ _ => .anlARn (regField op)⟩,
   ⟨0xFF, 0x55, 2, fun _ b2 _ => .anlADirect b2⟩,
   ⟨0xFE, 0x56, 1, fun op _ _ => .anlAInd (indField op)⟩,
   ⟨0xFF, 0x54, 2, fun _ b2 _ => .anlAImm b2⟩,
   ⟨0xFF, 0x52, 2, fun _ b2 _ => .anlDirectA b2⟩,
   ⟨0xFF, 0x53, 3, fun _ b2 b3 => .anlDirectImm b2 b3⟩,
   ⟨0xF8, 0x48, 1, fun op _ _ => .orlARn (regField op)⟩,
   ⟨0xFF, 0x45, 2, fun _ b2 _ => .orlADirect b2⟩,
   ⟨0xFE, 0x46, 1, fun op _ _ => .orlAInd (indField op)⟩,
   ⟨0xFF, 0x44, 2, fun _ b2 _ => .orlAImm b2⟩,
   ⟨0xFF, 0x42, 2, fun _ b2 _ => .orlDirectA b2⟩,
   ⟨0xFF, 0x43, 3, fun _ b2 b3 => .orlDirectImm b2 b3⟩,
   ⟨0xF8, 0x68, 1, fun op _ _ => .xrlARn (regField op)⟩,
   ⟨0xFF, 0x65, 2, fun _ b2 _ => .xrlADirect b2⟩,
   ⟨0xFE, 0x66, 1, fun op _ _ => .xrlAInd (indField op)⟩,
   ⟨0xFF, 0x64, 2, fun _ b2 _ => .xrlAImm b2⟩,
   ⟨0xFF, 0x62, 2, fun _ b2 _ => .xrlDirectA b2⟩,
   ⟨0xFF, 0x63, 3, fun _ b2 b3 => .xrlDirectImm b2 b3⟩,
   ⟨0xFF, 0xE4, 1, fun _ _ _ => .clrA⟩,
   ⟨0xFF, 0xF4, 1, fun _ _ _ => .cplA⟩,
   ⟨0xFF, 0x23, 1, fun _ _ _ => .rlA⟩,
   ⟨0xFF, 0x33, 1, fun _ _ _ => .rlcA⟩,
   ⟨0xFF, 0x03, 1, fun _ _ _ => .rrA⟩,
   ⟨0xFF, 0x13, 1, fun _ _ _ => .rrcA⟩,
   ⟨0xFF, 0xC4, 1, fun _ _ _ => .swapA⟩]

/-- The rows of 42_data_transfer.md (rule R99). -/
def transferRows : List OpRow :=
  [⟨0xF8, 0xE8, 1, fun op _ _ => .movARn (regField op)⟩,
   ⟨0xFF, 0xE5, 2, fun _ b2 _ => .movADirect b2⟩,
   ⟨0xFE, 0xE6, 1, fun op _ _ => .movAInd (indField op)⟩,
   ⟨0xFF, 0x74, 2, fun _ b2 _ => .movAImm b2⟩,
   ⟨0xF8, 0xF8, 1, fun op _ _ => .movRnA (regField op)⟩,
   ⟨0xF8, 0xA8, 2, fun op b2 _ => .movRnDirect (regField op) b2⟩,
   ⟨0xF8, 0x78, 2, fun op b2 _ => .movRnImm (regField op) b2⟩,
   ⟨0xFF, 0xF5, 2, fun _ b2 _ => .movDirectA b2⟩,
   ⟨0xF8, 0x88, 2, fun op b2 _ => .movDirectRn (regField op) b2⟩,
   ⟨0xFF, 0x85, 3, fun _ b2 b3 => .movDirectDirect b2 b3⟩,
   ⟨0xFE, 0x86, 2, fun op b2 _ => .movDirectInd (indField op) b2⟩,
   ⟨0xFF, 0x75, 3, fun _ b2 b3 => .movDirectImm b2 b3⟩,
   ⟨0xFE, 0xF6, 1, fun op _ _ => .movIndA (indField op)⟩,
   ⟨0xFE, 0xA6, 2, fun op b2 _ => .movIndDirect (indField op) b2⟩,
   ⟨0xFE, 0x76, 2, fun op b2 _ => .movIndImm (indField op) b2⟩,
   ⟨0xFF, 0x90, 3, fun _ b2 b3 => .movDptr (b2 ++ b3)⟩,
   ⟨0xFF, 0x93, 1, fun _ _ _ => .movcDptr⟩,
   ⟨0xFF, 0x83, 1, fun _ _ _ => .movcPc⟩,
   ⟨0xFE, 0xE2, 1, fun op _ _ => .movxAInd (indField op)⟩,
   ⟨0xFF, 0xE0, 1, fun _ _ _ => .movxADptr⟩,
   ⟨0xFE, 0xF2, 1, fun op _ _ => .movxIndA (indField op)⟩,
   ⟨0xFF, 0xF0, 1, fun _ _ _ => .movxDptrA⟩,
   ⟨0xFF, 0xC0, 2, fun _ b2 _ => .push b2⟩,
   ⟨0xFF, 0xD0, 2, fun _ b2 _ => .pop b2⟩,
   ⟨0xF8, 0xC8, 1, fun op _ _ => .xchRn (regField op)⟩,
   ⟨0xFF, 0xC5, 2, fun _ b2 _ => .xchDirect b2⟩,
   ⟨0xFE, 0xC6, 1, fun op _ _ => .xchInd (indField op)⟩,
   ⟨0xFE, 0xD6, 1, fun op _ _ => .xchd (indField op)⟩]

/-- The rows of 43_boolean.md (rule R99). -/
def booleanRows : List OpRow :=
  [⟨0xFF, 0xC3, 1, fun _ _ _ => .clrC⟩,
   ⟨0xFF, 0xC2, 2, fun _ b2 _ => .clrBit b2⟩,
   ⟨0xFF, 0xD3, 1, fun _ _ _ => .setbC⟩,
   ⟨0xFF, 0xD2, 2, fun _ b2 _ => .setbBit b2⟩,
   ⟨0xFF, 0xB3, 1, fun _ _ _ => .cplC⟩,
   ⟨0xFF, 0xB2, 2, fun _ b2 _ => .cplBit b2⟩,
   ⟨0xFF, 0x82, 2, fun _ b2 _ => .anlCBit b2⟩,
   ⟨0xFF, 0xB0, 2, fun _ b2 _ => .anlCNotBit b2⟩,
   ⟨0xFF, 0x72, 2, fun _ b2 _ => .orlCBit b2⟩,
   ⟨0xFF, 0xA0, 2, fun _ b2 _ => .orlCNotBit b2⟩,
   ⟨0xFF, 0xA2, 2, fun _ b2 _ => .movCBit b2⟩,
   ⟨0xFF, 0x92, 2, fun _ b2 _ => .movBitC b2⟩]

/-- The rows of 44_program_control.md (rule R99). -/
def controlRows : List OpRow :=
  [⟨0x1F, 0x11, 2, fun op b2 _ => .acall (addr11Field op b2)⟩,
   ⟨0xFF, 0x12, 3, fun _ b2 b3 => .lcall (b2 ++ b3)⟩,
   ⟨0xFF, 0x22, 1, fun _ _ _ => .ret⟩,
   ⟨0xFF, 0x32, 1, fun _ _ _ => .reti⟩,
   ⟨0x1F, 0x01, 2, fun op b2 _ => .ajmp (addr11Field op b2)⟩,
   ⟨0xFF, 0x02, 3, fun _ b2 b3 => .ljmp (b2 ++ b3)⟩,
   ⟨0xFF, 0x80, 2, fun _ b2 _ => .sjmp b2⟩,
   ⟨0xFF, 0x73, 1, fun _ _ _ => .jmpADptr⟩,
   ⟨0xFF, 0x60, 2, fun _ b2 _ => .jz b2⟩,
   ⟨0xFF, 0x70, 2, fun _ b2 _ => .jnz b2⟩,
   ⟨0xFF, 0x40, 2, fun _ b2 _ => .jc b2⟩,
   ⟨0xFF, 0x50, 2, fun _ b2 _ => .jnc b2⟩,
   ⟨0xFF, 0x20, 3, fun _ b2 b3 => .jb b2 b3⟩,
   ⟨0xFF, 0x30, 3, fun _ b2 b3 => .jnb b2 b3⟩,
   ⟨0xFF, 0x10, 3, fun _ b2 b3 => .jbc b2 b3⟩,
   ⟨0xFF, 0xB5, 3, fun _ b2 b3 => .cjneADirect b2 b3⟩,
   ⟨0xFF, 0xB4, 3, fun _ b2 b3 => .cjneAImm b2 b3⟩,
   ⟨0xF8, 0xB8, 3, fun op b2 b3 => .cjneRnImm (regField op) b2 b3⟩,
   ⟨0xFE, 0xB6, 3, fun op b2 b3 => .cjneIndImm (indField op) b2 b3⟩,
   ⟨0xF8, 0xD8, 2, fun op b2 _ => .djnzRn (regField op) b2⟩,
   ⟨0xFF, 0xD5, 3, fun _ b2 b3 => .djnzDirect b2 b3⟩,
   ⟨0xFF, 0x00, 1, fun _ _ _ => .nop⟩]

/-- The whole table: the 111 forms (rule R99). -/
def opTable : List OpRow :=
  arithmeticRows ++ logicRows ++ transferRows ++ booleanRows ++ controlRows

/-- Does the first byte op select this row? -/
def OpRow.selects (r : OpRow) (op : Byte) : Bool := op &&& r.mask == r.pattern

/-- The row that the first byte selects; none for A5H (rules R98, R100). -/
def findRow (op : Byte) : Option OpRow := opTable.find? fun r => r.selects op

/-- The length that the first byte gives, none for the reserved A5H (rule R103). -/
def opLength (op : Byte) : Option Nat := (findRow op).map fun r => r.len

/-- The instruction of a first byte and the two bytes after it, of which a form uses as many as its length says. -/
def decodeForm (op b2 b3 : Byte) : Except Excluded Instr :=
  match findRow op with
  | none => .error .reservedOpcode
  | some r => if (r.build op b2 b3).wf then .ok (r.build op b2 b3) else .error .movAAcc

/-- Decode the instruction at the head of a list of bytes, and answer the bytes after it. -/
def decode (bytes : List Byte) : Except DecodeError (Instr × List Byte) :=
  match bytes with
  | [] => .error .truncated
  | op :: rest =>
    match opLength op with
    | none => .error (.excluded .reservedOpcode)
    | some n =>
      if rest.length + 1 < n then .error .truncated
      else
        match decodeForm op (rest.getD 0 0) (rest.getD 1 0) with
        | .error e => .error (.excluded e)
        | .ok i => .ok (i, rest.drop (n - 1))

/-! The encoder, from the same table of rule R99. -/

/-- A first byte with the register number in its low bits (rule R93). -/
def opWithReg (pattern : Byte) (n : RegNo) : Byte := pattern ||| BitVec.ofNat 8 n.val

/-- A first byte with the number of the indirect register in bit 0 (rule R93). -/
def opWithInd (pattern : Byte) (i : IndNo) : Byte := pattern ||| BitVec.ofNat 8 i.val

/-- A first byte with bits 10..8 of addr11 in bits 7..5 (rule R94). -/
def opWithPage (pattern : Byte) (addr : BitVec 11) : Byte := addr.extractLsb' 8 3 ++ pattern.extractLsb' 0 5

/-- The high-order byte of a word (rule R95). -/
def highByte (w : Word) : Byte := w.extractLsb' 8 8

/-- The low-order byte of a word (rule R95). -/
def lowByte (w : Word) : Byte := w.extractLsb' 0 8

/-- The bytes of an instruction, first byte first (rule R99). -/
def encode : Instr → List Byte
  | .addRn n => [opWithReg 0x28 n]
  | .addDirect direct => [0x25, direct]
  | .addInd i => [opWithInd 0x26 i]
  | .addImm data => [0x24, data]
  | .addcRn n => [opWithReg 0x38 n]
  | .addcDirect direct => [0x35, direct]
  | .addcInd i => [opWithInd 0x36 i]
  | .addcImm data => [0x34, data]
  | .subbRn n => [opWithReg 0x98 n]
  | .subbDirect direct => [0x95, direct]
  | .subbInd i => [opWithInd 0x96 i]
  | .subbImm data => [0x94, data]
  | .incA => [0x04]
  | .incRn n => [opWithReg 0x08 n]
  | .incDirect direct => [0x05, direct]
  | .incInd i => [opWithInd 0x06 i]
  | .decA => [0x14]
  | .decRn n => [opWithReg 0x18 n]
  | .decDirect direct => [0x15, direct]
  | .decInd i => [opWithInd 0x16 i]
  | .incDptr => [0xA3]
  | .mulAb => [0xA4]
  | .divAb => [0x84]
  | .daA => [0xD4]
  | .anlARn n => [opWithReg 0x58 n]
  | .anlADirect direct => [0x55, direct]
  | .anlAInd i => [opWithInd 0x56 i]
  | .anlAImm data => [0x54, data]
  | .anlDirectA direct => [0x52, direct]
  | .anlDirectImm direct data => [0x53, direct, data]
  | .orlARn n => [opWithReg 0x48 n]
  | .orlADirect direct => [0x45, direct]
  | .orlAInd i => [opWithInd 0x46 i]
  | .orlAImm data => [0x44, data]
  | .orlDirectA direct => [0x42, direct]
  | .orlDirectImm direct data => [0x43, direct, data]
  | .xrlARn n => [opWithReg 0x68 n]
  | .xrlADirect direct => [0x65, direct]
  | .xrlAInd i => [opWithInd 0x66 i]
  | .xrlAImm data => [0x64, data]
  | .xrlDirectA direct => [0x62, direct]
  | .xrlDirectImm direct data => [0x63, direct, data]
  | .clrA => [0xE4]
  | .cplA => [0xF4]
  | .rlA => [0x23]
  | .rlcA => [0x33]
  | .rrA => [0x03]
  | .rrcA => [0x13]
  | .swapA => [0xC4]
  | .movARn n => [opWithReg 0xE8 n]
  | .movADirect direct => [0xE5, direct]
  | .movAInd i => [opWithInd 0xE6 i]
  | .movAImm data => [0x74, data]
  | .movRnA n => [opWithReg 0xF8 n]
  | .movRnDirect n direct => [opWithReg 0xA8 n, direct]
  | .movRnImm n data => [opWithReg 0x78 n, data]
  | .movDirectA direct => [0xF5, direct]
  | .movDirectRn n direct => [opWithReg 0x88 n, direct]
  | .movDirectDirect src dst => [0x85, src, dst]
  | .movDirectInd i direct => [opWithInd 0x86 i, direct]
  | .movDirectImm direct data => [0x75, direct, data]
  | .movIndA i => [opWithInd 0xF6 i]
  | .movIndDirect i direct => [opWithInd 0xA6 i, direct]
  | .movIndImm i data => [opWithInd 0x76 i, data]
  | .movDptr data => [0x90, highByte data, lowByte data]
  | .movcDptr => [0x93]
  | .movcPc => [0x83]
  | .movxAInd i => [opWithInd 0xE2 i]
  | .movxADptr => [0xE0]
  | .movxIndA i => [opWithInd 0xF2 i]
  | .movxDptrA => [0xF0]
  | .push direct => [0xC0, direct]
  | .pop direct => [0xD0, direct]
  | .xchRn n => [opWithReg 0xC8 n]
  | .xchDirect direct => [0xC5, direct]
  | .xchInd i => [opWithInd 0xC6 i]
  | .xchd i => [opWithInd 0xD6 i]
  | .clrC => [0xC3]
  | .clrBit bit => [0xC2, bit]
  | .setbC => [0xD3]
  | .setbBit bit => [0xD2, bit]
  | .cplC => [0xB3]
  | .cplBit bit => [0xB2, bit]
  | .anlCBit bit => [0x82, bit]
  | .anlCNotBit bit => [0xB0, bit]
  | .orlCBit bit => [0x72, bit]
  | .orlCNotBit bit => [0xA0, bit]
  | .movCBit bit => [0xA2, bit]
  | .movBitC bit => [0x92, bit]
  | .acall addr => [opWithPage 0x11 addr, addr.extractLsb' 0 8]
  | .lcall addr => [0x12, highByte addr, lowByte addr]
  | .ret => [0x22]
  | .reti => [0x32]
  | .ajmp addr => [opWithPage 0x01 addr, addr.extractLsb' 0 8]
  | .ljmp addr => [0x02, highByte addr, lowByte addr]
  | .sjmp rel => [0x80, rel]
  | .jmpADptr => [0x73]
  | .jz rel => [0x60, rel]
  | .jnz rel => [0x70, rel]
  | .jc rel => [0x40, rel]
  | .jnc rel => [0x50, rel]
  | .jb bit rel => [0x20, bit, rel]
  | .jnb bit rel => [0x30, bit, rel]
  | .jbc bit rel => [0x10, bit, rel]
  | .cjneADirect direct rel => [0xB5, direct, rel]
  | .cjneAImm data rel => [0xB4, data, rel]
  | .cjneRnImm n data rel => [opWithReg 0xB8 n, data, rel]
  | .cjneIndImm i data rel => [opWithInd 0xB6 i, data, rel]
  | .djnzRn n rel => [opWithReg 0xD8 n, rel]
  | .djnzDirect direct rel => [0xD5, direct, rel]
  | .nop => [0x00]

/-- The three bytes of an instruction given as a number, bit 0 the least significant bit of the first byte; the bits
from nbits on are 0. -/
def tableBytes (nbits w : Nat) : List Byte :=
  let v := w % 2 ^ nbits
  [BitVec.ofNat 8 v, BitVec.ofNat 8 (v / 2 ^ 8), BitVec.ofNat 8 (v / 2 ^ 16)]

/-- What the decoder reads from an instruction given as a number (see tableBytes). -/
def decodeTableWord (nbits w : Nat) : Option Instr :=
  match decode (tableBytes nbits w) with
  | .ok (i, _) => some i
  | .error _ => none

end Sys2Proof
end

