-- ==== Sys2Proof/Machine/Fetch.lean ====
section
/-! DEFINITION. Instruction fetch (30_encoding.md rule R91). -/

namespace Sys2Proof.Machine

/-- The refusal for an excluded encoding (rules R100, R101). -/
def excludedRefusal : Excluded → Refusal
  | .reservedOpcode => .reservedOpcode
  | .movAAcc => .movAAcc

/-- The byte offset places after pc, modulo 65536 (rule R91). -/
def fetchByte (offset : Nat) (s : State) : Res Byte := codeRead (s.pc + BitVec.ofNat 16 offset) s

/-- Decode fetched bytes, or refuse an excluded encoding. -/
def decodeFetched (op b2 b3 : Byte) : Res Instr :=
  match decodeForm op b2 b3 with
  | .ok i => .next i
  | .error e => .refused (excludedRefusal e)

/-- Fetch the instruction at pc: the first byte, then as many further bytes as its length asks for (rules R91, R103). -/
def fetchInstr (s : State) : Res Instr :=
  andThen (fetchByte 0 s) fun op =>
    match opLength op with
    | none => .refused .reservedOpcode
    | some 1 => decodeFetched op 0 0
    | some 2 => andThen (fetchByte 1 s) fun b2 => decodeFetched op b2 0
    | some _ => andThen (fetchByte 1 s) fun b2 => andThen (fetchByte 2 s) fun b3 => decodeFetched op b2 b3

/-- Program memory with bytes placed at consecutive addresses, modulo 65536. -/
def placeCode (code : Memory) (a : Word) : List Byte → Memory
  | [] => code
  | v :: vs => placeCode (code.write a.toNat v) (a + 1) vs

end Sys2Proof.Machine
end

