-- ==== Sys2Proof/Machine/Interrupts.lean ====
section
/-! DEFINITION. What happens at an instruction boundary (60_exceptions.md rule R264): the environment's inputs arrive,
the run may be over, an interrupt may be taken. -/

namespace Sys2Proof.Machine

/-- A device register with the inputs that arrive for its address. -/
def applyDeviceInputs (news : List (Byte × Byte)) (r : DeviceReg) : DeviceReg :=
  match news.find? fun c => c.1 == r.addr with
  | some c => { r with input := c.2 }
  | none => r

/-- The environment acts once, between instructions (rules R273, R277, 20_memory.md rule R78). -/
def applyInput (e : EnvInput) (s : State) : State :=
  let t := applyFlags e.flags s
  { t with pins := e.pins.getD t.pins, device := t.device.map (applyDeviceInputs e.deviceInputs) }

/-- The next input of the environment, if one is to come, takes effect. -/
def sampleEnvironment (s : State) : State :=
  match s.inputs with
  | [] => s
  | e :: es => { applyInput e s with inputs := es }

/-- Does this bit of a register hold 1: of a core register as a latch read shows it, of a register of the platform as it is
stored? One of a register that does not exist does not. -/
def flagBit (f : FlagBit) (s : State) : Bool :=
  match coreSfr f.addr with
  | some r => (coreReadLatch r s).getLsbD f.bit.val
  | none =>
    match findDevice f.addr s with
    | some r => r.latch.getLsbD f.bit.val
    | none => false

/-- What a platform's own Irq.pending depends on: the state and the environment as they are now (rule R262), so neither the
inputs still to come nor the count of draws. -/
def State.present (s : State) : State := { s with inputs := [], draws := 0 }

/-- Is the source requesting and enabled, that is, in Irq.pending(state, environment) (rule R262)? -/
def isPending (src : IrqSource) (s : State) : Bool :=
  match src.pending with
  | .rule byRequest bits => (!byRequest || s.requests.contains src.id) && bits.all fun f => flagBit f s
  | .board => Config.boardPending src.id s.present

/-- The sources that are requesting and enabled: Irq.pending (rule R262). -/
def pendingSources (s : State) : List IrqSource := s.plat.irqSources.filter fun src => isPending src s

/-- The pending sources whose level is above every level in service (rule R264). -/
def candidates (s : State) : List IrqSource :=
  (pendingSources s).filter fun src => s.inService.all fun n => decide (n < src.level)

/-- The first source of the highest level: Irq.order decides among sources of one level (rules R264, R267). -/
def mostUrgent : List IrqSource → Option IrqSource
  | [] => none
  | src :: rest =>
    match mostUrgent rest with
    | none => some src
    | some other => if src.level < other.level then some other else some src

/-- The source to be taken at this boundary, if any: none while RetiShadow holds interrupts off (rule R264). -/
def acceptedSource (s : State) : Option IrqSource :=
  if s.retiShadow then none else mostUrgent (candidates s)

/-- Is nothing pending now, nor after any of the next n inputs, while the program writes nothing? -/
def idleFor : Nat → State → Bool
  | 0, s => (pendingSources s).isEmpty
  | n + 1, s => (pendingSources s).isEmpty && idleFor n (sampleEnvironment s)

/-- The loop SJMP $ by the words of rule R276: the bytes 80H FEH at pc, nothing pending, RetiShadow false. -/
def atSelfLoop (s : State) : Bool :=
  s.code.read s.pc.toNat == some 0x80 && s.code.read (s.pc + 1).toNat == some 0xFE &&
    (pendingSources s).isEmpty && !s.retiShadow

/-- END_OF_RUN(state) (rules R264, R276). That nothing is pending "for the rest of time" (92_eei_decisions.md D23) is what
holds until the last input has come, because after it the loop changes nothing (idleFor_iff). -/
def endOfRun (s : State) : Bool :=
  match s.plat.endOfRun with
  | .never => false
  | .selfLoop => atSelfLoop s && idleFor s.inputs.length s
  | .selfLoopNow => atSelfLoop s
  | .board => Config.boardEndOfRun s

/-- The state in which an instruction executes: RetiShadow is cleared, and its draws are fresh (rule R264). -/
def beginInstr (s : State) : State := { s with retiShadow := false, draws := s.draws + 1 }

end Sys2Proof.Machine
end

