-- ==== Sys2Proof/Machine/Step.lean ====
section
/-! DEFINITION. One step of the machine (60_exceptions.md rule R264). -/

namespace Sys2Proof.Machine

/-- Fetch the instruction at pc and execute it (30_encoding.md rule R91). -/
def runInstr (s : State) : Host.Outcome State Fault Refusal :=
  match fetchInstr s with
  | .next i => exec i s
  | .fault r => .fault r
  | .refused r => .refused r

/-- What happens at a boundary once the environment's input has arrived: the run is over, or an interrupt is taken, or
one instruction executes (rule R264). -/
def stepAt (s : State) : Host.Outcome State Fault Refusal :=
  if endOfRun s then .fault .endOfRun
  else
    match acceptedSource s with
    | some src => interruptEntry src s
    | none => runInstr (beginInstr s)

/-- One step: the environment's next input arrives, then the boundary (rule R264). -/
def step (s : State) : Host.Outcome State Fault Refusal := stepAt (sampleEnvironment s)

/-- The state with an instruction's bytes at pc, given as a number (see tableBytes), so that the next step runs it. Only
where an interrupt would be taken first, RetiShadow is set too, which holds it off for one instruction; and only where the
run would be over, END_OF_RUN is set to never (60_exceptions.md rules R264, R276). -/
def State.withFetchWord (s : State) (nbits w : Nat) : State :=
  let t := { s with code := placeCode s.code s.pc (tableBytes nbits w) }
  let u := if (acceptedSource (sampleEnvironment t)).isSome then { t with retiShadow := true } else t
  if endOfRun (sampleEnvironment u) then { u with plat := { u.plat with endOfRun := .never } } else u

end Sys2Proof.Machine
end

