-- ==== Sys2Proof/Safety.lean ====
section
/-! DEFINITION. The terms that claims about the machine use: the invariant of its states, what it is for a state to run
safely, and the vocabulary of the statements (the encoding of a form, the shapes of results, which flags a form
writes). Nothing here is called by the machine. -/

namespace Sys2Proof.Machine

/-! ### The invariant and safe runs -/

/-- The three memories are in canonical form and inside their address spaces (20_memory.md rules R60, R63). -/
def State.memoriesWf (s : State) : Bool :=
  s.iram.wf && s.iram.below s.plat.iramSize.count && s.xdata.wf && s.xdata.below 65536 && s.code.wf &&
    s.code.below 65536

/-- Each level stands once, highest first (10_state.md rule R34, 60_exceptions.md rule R266). -/
def levelsDescend : List Nat → Bool
  | [] => true
  | [_] => true
  | m :: n :: ns => decide (n < m) && levelsDescend (n :: ns)

/-- Every interrupt source of the platform has one of its levels (00_scope.md rule R3, Irq). -/
def sourcesKeepLevels (p : Platform) : Bool := p.irqSources.all fun src => decide (src.level < p.irqLevels)

/-- Sources and levels in service are levels of the platform, and each level in service stands once, highest first. -/
def State.levelsWf (s : State) : Bool :=
  levelsDescend s.inService && sourcesKeepLevels s.plat && s.inService.all fun n => decide (n < s.plat.irqLevels)

/-- The invariant: memories in canonical form, the parity bit without storage (rule R35), the levels in service
descending and, like those of the sources, levels of the platform, no source requesting twice. -/
abbrev State.Inv (s : State) : Prop :=
  s.memoriesWf = true ∧ s.psw.getLsbD 0 = false ∧ s.levelsWf = true ∧ s.requests.Nodup

/-- The machine runs k steps from s without a fault or a refusal. -/
def State.runsFor (s : State) (k : Nat) : Prop := ∃ t, Host.Core.run Sys2Proof.core k s = .next t

/-! ### The vocabulary of the statements -/

/-- The bytes decode to the instruction and are its encoding, and its length and machine cycles are theirs
(30_encoding.md rule R99, 70_reset_and_hazards.md rule R297). -/
def HasEncoding (i : Instr) (bytes : List Byte) (cycles : Nat) : Prop :=
  decode bytes = .ok (i, []) ∧ encode i = bytes ∧ i.len = bytes.length ∧ i.cycles = cycles

/-- The length of an accumulator form with this source. -/
def Source.len : Source → Nat
  | .reg _ => 1
  | .direct _ => 2
  | .ind _ => 1
  | .imm _ => 2

/-- The bytes of an accumulator form in a column of the opcode map whose high nibble is given (30_encoding.md rule
R98): immediate x4, direct x5, @Ri x6-x7, Rn x8-xF. -/
def columnBytes (high : Byte) : Source → List Byte
  | .imm k => [high + 0x04, k]
  | .direct d => [high + 0x05, d]
  | .ind i => [high + 0x06 + BitVec.ofNat 8 i.val]
  | .reg n => [high + 0x08 + BitVec.ofNat 8 n.val]

/-- ADD A,source for each source form. -/
def addForm : Source → Instr
  | .reg n => .addRn n
  | .direct d => .addDirect d
  | .ind i => .addInd i
  | .imm k => .addImm k

/-- ADDC A,source for each source form. -/
def addcForm : Source → Instr
  | .reg n => .addcRn n
  | .direct d => .addcDirect d
  | .ind i => .addcInd i
  | .imm k => .addcImm k

/-- SUBB A,source for each source form. -/
def subbForm : Source → Instr
  | .reg n => .subbRn n
  | .direct d => .subbDirect d
  | .ind i => .subbInd i
  | .imm k => .subbImm k

/-- MOV A,source for each source form. -/
def movAForm : Source → Instr
  | .reg n => .movARn n
  | .direct d => .movADirect d
  | .ind i => .movAInd i
  | .imm k => .movAImm k

/-- The three byte-wide logic operations (41_logic.md rule R150). -/
inductive LogicOp where
  | anl
  | orl
  | xrl
  deriving DecidableEq, Repr

/-- What each does to a pair of bits (rule R150). -/
def LogicOp.onBits : LogicOp → Bool → Bool → Bool
  | .anl, x, y => x && y
  | .orl, x, y => x || y
  | .xrl, x, y => x != y

/-- The high nibble of the operation's column in the opcode map (30_encoding.md rule R98). -/
def LogicOp.high : LogicOp → Byte
  | .anl => 0x50
  | .orl => 0x40
  | .xrl => 0x60

/-- ANL, ORL, XRL with destination A. -/
def logicForm : LogicOp → Source → Instr
  | .anl, .reg n => .anlARn n
  | .anl, .direct d => .anlADirect d
  | .anl, .ind i => .anlAInd i
  | .anl, .imm k => .anlAImm k
  | .orl, .reg n => .orlARn n
  | .orl, .direct d => .orlADirect d
  | .orl, .ind i => .orlAInd i
  | .orl, .imm k => .orlAImm k
  | .xrl, .reg n => .xrlARn n
  | .xrl, .direct d => .xrlADirect d
  | .xrl, .ind i => .xrlAInd i
  | .xrl, .imm k => .xrlAImm k

/-- ANL, ORL, XRL direct,A. -/
def logicDirectA : LogicOp → Byte → Instr
  | .anl, d => .anlDirectA d
  | .orl, d => .orlDirectA d
  | .xrl, d => .xrlDirectA d

/-- ANL, ORL, XRL direct,#data. -/
def logicDirectImm : LogicOp → Byte → Byte → Instr
  | .anl, d, k => .anlDirectImm d k
  | .orl, d, k => .orlDirectImm d k
  | .xrl, d, k => .xrlDirectImm d k

/-- A direct address names an internal RAM cell or a register that exists (20_memory.md rules R65, R81). -/
def DirectExists (d : Byte) (s : State) : Prop :=
  d.toNat < 0x80 ∨ (coreSfr d).isSome = true ∨ (findDevice d s).isSome = true

/-- From s to t nothing but the one internal RAM cell a, which now holds v, and pc, which is len bytes on, changed. -/
def CellWritten (a v : Byte) (len : Nat) (s t : State) : Prop :=
  t = { s with iram := t.iram, pc := s.pc + BitVec.ofNat 16 len } ∧ iramRead a t = .next v ∧
    ∀ c, c ≠ a → iramRead c t = iramRead c s

/-- From s to t nothing changed but what a write of v to the direct address d changes: below 80H that internal RAM cell,
which now holds v, from 80H on the core register there, or else a register of the platform (20_memory.md rules R67,
R81). -/
def DirectChange (d v : Byte) (s t : State) : Prop :=
  if d.toNat < 0x80 then
    t = { s with iram := t.iram } ∧ iramRead d t = .next v ∧ ∀ c, c ≠ d → iramRead c t = iramRead c s
  else
    match coreSfr d with
    | some r => t = coreWrite r v s
    | none => t = { s with device := t.device, busLog := t.busLog }

/-- The bit of a register holds 1: of a core register as a latch read shows it (20_memory.md rule R68), of a register of the
platform as it is stored. -/
def BitHolds (f : FlagBit) (s : State) : Prop :=
  match coreSfr f.addr with
  | some r => (coreReadLatch r s).getLsbD f.bit.val = true
  | none => ∃ r, findDevice f.addr s = some r ∧ r.latch.getLsbD f.bit.val = true

/-- The source is requesting and enabled: it is in Irq.pending (60_exceptions.md rule R262), by the rule of its own that the
platform states, or by the platform's function. -/
def Pending (src : IrqSource) (s : State) : Prop :=
  match src.pending with
  | .rule byRequest bits =>
    (byRequest = true → src.id ∈ s.requests) ∧ ∀ f ∈ bits, BitHolds f s
  | .board => Config.boardPending src.id s.present = true

/-- The request flags and the registers of the platform before and after a change: the sources it raises request, those it
withdraws cease to, and of the registers the bits that it names, and no others, hold what it says last. -/
def FlagsChanged (c : FlagChange) (requests requests' : List Nat) (device device' : List DeviceReg) : Prop :=
  (∀ n, n ∈ requests' ↔ n ∈ c.raise ∨ n ∈ requests ∧ n ∉ c.withdraw) ∧
    device'.map (fun r => (r.addr, r.kind, r.input)) = device.map (fun r => (r.addr, r.kind, r.input)) ∧
    ∀ (k : Nat) (r q : DeviceReg), device[k]? = some r → device'[k]? = some q → ∀ j : Fin 8,
      ((∀ x ∈ c.bits, x.1 ≠ ⟨r.addr, j⟩) → q.latch.getLsbD j.val = r.latch.getLsbD j.val) ∧
        ∀ before v after, c.bits = before ++ (⟨r.addr, j⟩, v) :: after → (∀ x ∈ after, x.1 ≠ ⟨r.addr, j⟩) →
          q.latch.getLsbD j.val = v

/-- The byte is the one that the platform's XPAGE gives in this state (00_scope.md rule R3, 20_memory.md rule R82). -/
def PageIs (page : Byte) (s : State) : Prop :=
  match s.plat.xpage with
  | .p2Latch => page = s.latch.p2
  | .fixed p => page = p
  | .wired lines => ∀ k : Fin 8, page.getLsbD k.val =
      match lines[k] with
      | .latch p j => (s.latch.get p).getLsbD j.val
      | .pin p j => (s.pins.get p).getLsbD j.val
      | .level high => high
  | .board => page = Config.boardPage s

/-- The instruction completes, and its whole effect is DirectWrite(d, v), performed in the state u, and the move of pc
to the instruction that follows. -/
def WritesDirect (i : Instr) (len : Nat) (d v : Byte) (s u : State) : Prop :=
  ∃ t, directWrite d v u = .next t ∧ DirectChange d v u t ∧ exec i s = .next { t with pc := s.pc + BitVec.ofNat 16 len }

/-- From s to t nothing changed but what a write of x to the bit b changes: the byte w that holds the bit, read the
latch way, was written back with that one bit set to x (rules R69, R71). -/
def BitChange (b : Byte) (x : Bool) (s t : State) : Prop :=
  ∃ v w, directReadRmw (bitByte b) s = .next v ∧
    (∀ k, k < 8 → w.getLsbD k = if k = bitNumber b then x else v.getLsbD k) ∧ DirectChange (bitByte b) w s t

/-- The instruction, of two bytes, completes, and its whole effect is BitWrite(b, x) and the move of pc. -/
def WritesBit (i : Instr) (b : Byte) (x : Bool) (s : State) : Prop :=
  ∃ t, bitWrite b x s = .next t ∧ BitChange b x s t ∧ exec i s = .next { t with pc := s.pc + 2 }

/-- From s to t nothing changed but A, the PSW and pc, and of the PSW only C, AC and OV. -/
def OnlyAAndFlags (s t : State) : Prop :=
  t = { s with a := t.a, psw := t.psw, pc := t.pc } ∧
    ∀ k, k < 8 → k ≠ 7 → k ≠ 6 → k ≠ 2 → t.psw.getLsbD k = s.psw.getLsbD k

/-- A of t is the sum of A of s, v and a carry in, with the flags of the adder (40_arithmetic.md rule R120). -/
def SumInA (v : Byte) (c : Nat) (s t : State) : Prop :=
  OnlyAAndFlags s t ∧ t.a.toNat = (s.a.toNat + v.toNat + c) % 256 ∧
    t.cy = decide (s.a.toNat + v.toNat + c > 255) ∧
    t.ac = decide (s.a.toNat % 16 + v.toNat % 16 + c > 15) ∧
    t.ov = (decide (s.a.toNat % 128 + v.toNat % 128 + c > 127) != decide (s.a.toNat + v.toNat + c > 255)) ∧
    (t.ov = true ↔ s.a.toInt + v.toInt + c < -128 ∨ 127 < s.a.toInt + v.toInt + c)

/-- A of t is A of s less v and a borrow in, with the flags of the subtractor (rule R121). -/
def DifferenceInA (v : Byte) (c : Nat) (s t : State) : Prop :=
  OnlyAAndFlags s t ∧ (t.a.toNat : Int) = ((s.a.toNat : Int) - v.toNat - c) % 256 ∧
    t.cy = decide ((s.a.toNat : Int) - v.toNat - c < 0) ∧
    t.ac = decide (((s.a.toNat % 16 : Nat) : Int) - (v.toNat % 16 : Nat) - c < 0) ∧
    t.ov = (decide (((s.a.toNat % 128 : Nat) : Int) - (v.toNat % 128 : Nat) - c < 0) !=
      decide ((s.a.toNat : Int) - v.toNat - c < 0)) ∧
    (t.ov = true ↔ s.a.toInt - v.toInt - c < -128 ∨ 127 < s.a.toInt - v.toInt - c)

/-- pc is the integer z modulo 65536 (44_program_control.md rule R230). -/
def PcIs (pc : Word) (z : Int) : Prop := (pc.toNat : Int) = z % 65536

/-- From s to t nothing but C of the PSW, which is now c, and pc changed. -/
def OnlyCy (c : Bool) (s t : State) : Prop :=
  t = { s with psw := t.psw, pc := t.pc } ∧ t.cy = c ∧ ∀ k, k < 7 → t.psw.getLsbD k = s.psw.getLsbD k

/-- A return address on the stack: its low byte one above the old top, its high byte two above, and no other cell
changed (20_memory.md rules R72, R73). -/
def AddressPushed (w : Word) (s t : State) : Prop :=
  t.sp = s.sp + 2 ∧ iramRead (s.sp + 1) t = .next (w.extractLsb' 0 8) ∧
    iramRead (s.sp + 2) t = .next (w.extractLsb' 8 8) ∧
    ∀ c, c ≠ s.sp + 1 → c ≠ s.sp + 2 → iramRead c t = iramRead c s

/-- The two cells that a push of a return address writes exist. -/
def RoomToPush (s : State) : Prop :=
  (s.sp + 1).toNat < s.plat.iramSize.count ∧ (s.sp + 2).toNat < s.plat.iramSize.count

/-- The program memory of s holds the bytes from pc on. -/
def CodeAtPc (bytes : List Byte) (s : State) : Prop :=
  ∀ j v, bytes[j]? = some v → s.code.read (s.pc + BitVec.ofNat 16 j).toNat = some v

/-- No interrupt is taken and the run is not over at the boundary that the next step reaches, so that it runs an
instruction (60_exceptions.md rule R264). -/
def RunsAnInstruction (s : State) : Prop :=
  endOfRun (sampleEnvironment s) = false ∧ acceptedSource (sampleEnvironment s) = none

/-- Which of the stored flags a form writes (10_state.md rule R37). -/
inductive PswEffect where
  | keeps
  | writesC
  | writesCAndOv
  | writesCAcOv
  /-- The form has a direct destination: it writes the PSW if that is D0H. -/
  | directDest (d : Byte)
  /-- The form has a bit destination: it writes the PSW if that is D0H..D7H. -/
  | bitDest (b : Byte)
  deriving DecidableEq, Repr

/-- The table of rule R37. -/
def pswEffect : Instr → PswEffect
  | .addRn _ => .writesCAcOv
  | .addDirect _ => .writesCAcOv
  | .addInd _ => .writesCAcOv
  | .addImm _ => .writesCAcOv
  | .addcRn _ => .writesCAcOv
  | .addcDirect _ => .writesCAcOv
  | .addcInd _ => .writesCAcOv
  | .addcImm _ => .writesCAcOv
  | .subbRn _ => .writesCAcOv
  | .subbDirect _ => .writesCAcOv
  | .subbInd _ => .writesCAcOv
  | .subbImm _ => .writesCAcOv
  | .incA => .keeps
  | .incRn _ => .keeps
  | .incDirect direct => .directDest direct
  | .incInd _ => .keeps
  | .decA => .keeps
  | .decRn _ => .keeps
  | .decDirect direct => .directDest direct
  | .decInd _ => .keeps
  | .incDptr => .keeps
  | .mulAb => .writesCAndOv
  | .divAb => .writesCAndOv
  | .daA => .writesC
  | .anlARn _ => .keeps
  | .anlADirect _ => .keeps
  | .anlAInd _ => .keeps
  | .anlAImm _ => .keeps
  | .anlDirectA direct => .directDest direct
  | .anlDirectImm direct _ => .directDest direct
  | .orlARn _ => .keeps
  | .orlADirect _ => .keeps
  | .orlAInd _ => .keeps
  | .orlAImm _ => .keeps
  | .orlDirectA direct => .directDest direct
  | .orlDirectImm direct _ => .directDest direct
  | .xrlARn _ => .keeps
  | .xrlADirect _ => .keeps
  | .xrlAInd _ => .keeps
  | .xrlAImm _ => .keeps
  | .xrlDirectA direct => .directDest direct
  | .xrlDirectImm direct _ => .directDest direct
  | .clrA => .keeps
  | .cplA => .keeps
  | .rlA => .keeps
  | .rlcA => .writesC
  | .rrA => .keeps
  | .rrcA => .writesC
  | .swapA => .keeps
  | .movARn _ => .keeps
  | .movADirect _ => .keeps
  | .movAInd _ => .keeps
  | .movAImm _ => .keeps
  | .movRnA _ => .keeps
  | .movRnDirect _ _ => .keeps
  | .movRnImm _ _ => .keeps
  | .movDirectA direct => .directDest direct
  | .movDirectRn _ direct => .directDest direct
  | .movDirectDirect _ dst => .directDest dst
  | .movDirectInd _ direct => .directDest direct
  | .movDirectImm direct _ => .directDest direct
  | .movIndA _ => .keeps
  | .movIndDirect _ _ => .keeps
  | .movIndImm _ _ => .keeps
  | .movDptr _ => .keeps
  | .movcDptr => .keeps
  | .movcPc => .keeps
  | .movxAInd _ => .keeps
  | .movxADptr => .keeps
  | .movxIndA _ => .keeps
  | .movxDptrA => .keeps
  | .push _ => .keeps
  | .pop direct => .directDest direct
  | .xchRn _ => .keeps
  | .xchDirect direct => .directDest direct
  | .xchInd _ => .keeps
  | .xchd _ => .keeps
  | .clrC => .writesC
  | .clrBit bit => .bitDest bit
  | .setbC => .writesC
  | .setbBit bit => .bitDest bit
  | .cplC => .writesC
  | .cplBit bit => .bitDest bit
  | .anlCBit _ => .writesC
  | .anlCNotBit _ => .writesC
  | .orlCBit _ => .writesC
  | .orlCNotBit _ => .writesC
  | .movCBit _ => .writesC
  | .movBitC bit => .bitDest bit
  | .acall _ => .keeps
  | .lcall _ => .keeps
  | .ret => .keeps
  | .reti => .keeps
  | .ajmp _ => .keeps
  | .ljmp _ => .keeps
  | .sjmp _ => .keeps
  | .jmpADptr => .keeps
  | .jz _ => .keeps
  | .jnz _ => .keeps
  | .jc _ => .keeps
  | .jnc _ => .keeps
  | .jb _ _ => .keeps
  | .jnb _ _ => .keeps
  | .jbc bit _ => .bitDest bit
  | .cjneADirect _ _ => .writesC
  | .cjneAImm _ _ => .writesC
  | .cjneRnImm _ _ _ => .writesC
  | .cjneIndImm _ _ _ => .writesC
  | .djnzRn _ _ => .keeps
  | .djnzDirect direct _ => .directDest direct
  | .nop => .keeps

/-- Does a form with this effect name the PSW, or a bit of it, as its destination? -/
def PswEffect.namesPsw : PswEffect → Bool
  | .keeps => false
  | .writesC => false
  | .writesCAndOv => false
  | .writesCAcOv => false
  | .directDest d => d == 0xD0
  | .bitDest b => b &&& 0xF8 == 0xD0

/-- Does it compute C? -/
def PswEffect.cWritten : PswEffect → Bool
  | .keeps => false
  | .writesC => true
  | .writesCAndOv => true
  | .writesCAcOv => true
  | .directDest _ => false
  | .bitDest _ => false

/-- Does it compute AC? -/
def PswEffect.acWritten : PswEffect → Bool
  | .keeps => false
  | .writesC => false
  | .writesCAndOv => false
  | .writesCAcOv => true
  | .directDest _ => false
  | .bitDest _ => false

/-- Does it compute OV? -/
def PswEffect.ovWritten : PswEffect → Bool
  | .keeps => false
  | .writesC => false
  | .writesCAndOv => true
  | .writesCAcOv => true
  | .directDest _ => false
  | .bitDest _ => false

end Sys2Proof.Machine
end

