-- ==== Sys2Proof/Certificates/Slice0/Obligations.lean ====
section
/-! DEFINITION. The statements for the provers. A statement about a form says its encoding, its length and its machine
cycles (HasEncoding), that it completes, and its whole effect: a state that is written as an update of the state before
it says which fields stay as they were. The word "operand" stands for what the operand functions of Machine/Operands.lean
and Machine/Ops.lean read; the first statements say what those functions do. -/

open Sys2Proof Sys2Proof.Machine

/-! ### Access to memories and registers -/

/-- 20_memory.md rules R63 and R64, with decisions D9 and D30: an internal RAM cell reads back what was last written, and
no other cell changes; above IRAM_SIZE there is no cell; a cell that nothing has written faults (the model's choice,
notes/assumptions/2.md); an @Ri operand is the internal RAM cell that R0 or R1 addresses, at every address. -/
def Obligations.InternalRamReadsBackWhatWasWritten : Prop :=
  ∀ (a v : Byte) (s : State),
    (a.toNat < s.plat.iramSize.count →
      (∃ t, iramWrite a v s = .next t ∧ t = { s with iram := t.iram } ∧ iramRead a t = .next v ∧
        ∀ c, c ≠ a → iramRead c t = iramRead c s) ∧
      (s.iram.read a.toNat = none → iramRead a s = .fault (.unwrittenIram a))) ∧
    (s.plat.iramSize.count ≤ a.toNat →
      iramRead a s = .refused (.noSuchIramCell a) ∧ iramWrite a v s = .refused (.noSuchIramCell a)) ∧
    indAddress 0 s = regRead 0 s ∧ indAddress 1 s = regRead 1 s ∧
    ∀ i, indAddress i s = .next a → indRead i s = iramRead a s ∧ indWrite i v s = iramWrite a v s

/-- The tables of 20_memory.md rules R65 to R67 and R81, with the addresses of 10_state.md rule R30 (decisions D3, D4,
D14, D15): what a direct address names, what the two reads of it answer, what a write to it does, and that an address
that is neither a core register nor a register of the platform is refused. Rule R81 says of the platform's registers only
that SfrDevice reads, reads the latch and writes; that each is a plain register, a port or an oracle is the model's choice
(DESIGN CHOICE, notes/assumptions/13.md), and so is the record busLog of the writes to oracles (DESIGN CHOICE,
notes/assumptions/14.md). -/
def Obligations.DirectAddressesReachRamBelow80HAndRegistersAbove : Prop :=
  ∀ (s : State) (v : Byte),
    (∀ d : Byte, d.toNat < 0x80 →
      directRead d s = iramRead d s ∧ directReadRmw d s = iramRead d s ∧ directWrite d v s = iramWrite d v s) ∧
    (directRead 0x80 s = .next s.pins.p0 ∧ directReadRmw 0x80 s = .next s.latch.p0 ∧
      directWrite 0x80 v s = .next { s with latch := { s.latch with p0 := v } }) ∧
    (directRead 0x90 s = .next s.pins.p1 ∧ directReadRmw 0x90 s = .next s.latch.p1 ∧
      directWrite 0x90 v s = .next { s with latch := { s.latch with p1 := v } }) ∧
    (directRead 0xA0 s = .next s.pins.p2 ∧ directReadRmw 0xA0 s = .next s.latch.p2 ∧
      directWrite 0xA0 v s = .next { s with latch := { s.latch with p2 := v } }) ∧
    (directRead 0xB0 s = .next s.pins.p3 ∧ directReadRmw 0xB0 s = .next s.latch.p3 ∧
      directWrite 0xB0 v s = .next { s with latch := { s.latch with p3 := v } }) ∧
    (directRead 0x81 s = .next s.sp ∧ directReadRmw 0x81 s = .next s.sp ∧
      directWrite 0x81 v s = .next { s with sp := v }) ∧
    (directRead 0x82 s = .next s.dpl ∧ directReadRmw 0x82 s = .next s.dpl ∧
      directWrite 0x82 v s = .next { s with dpl := v }) ∧
    (directRead 0x83 s = .next s.dph ∧ directReadRmw 0x83 s = .next s.dph ∧
      directWrite 0x83 v s = .next { s with dph := v }) ∧
    (directRead 0xE0 s = .next s.a ∧ directReadRmw 0xE0 s = .next s.a ∧ directWrite 0xE0 v s = .next { s with a := v }) ∧
    (directRead 0xF0 s = .next s.b ∧ directReadRmw 0xF0 s = .next s.b ∧ directWrite 0xF0 v s = .next { s with b := v }) ∧
    ∀ d : Byte, 0x80 ≤ d.toNat →
      d ∉ [(0x80 : Byte), 0x81, 0x82, 0x83, 0x90, 0xA0, 0xB0, 0xD0, 0xE0, 0xF0] →
      (findDevice d s = none →
        directRead d s = .refused (.noSuchSfr d) ∧ directReadRmw d s = .refused (.noSuchSfr d) ∧
          directWrite d v s = .refused (.noSuchSfr d)) ∧
      ∀ r, findDevice d s = some r →
        (r.kind = .register → directRead d s = .next r.latch ∧ directReadRmw d s = .next r.latch) ∧
        (r.kind = .port → directRead d s = .next r.input ∧ directReadRmw d s = .next r.latch) ∧
        (r.kind = .oracle → (∃ x, directRead d s = .next x) ∧ (∃ x, directReadRmw d s = .next x) ∧
          directWrite d v s = .next { s with busLog := .sfr d v :: s.busLog })

/-- 20_memory.md rules R67 and R81 (decisions D3, D4): a write to a direct address that exists completes and changes that
location alone; a register of the platform that is no oracle then answers what was written, to a latch read, and the
platform's other registers stay as they are. Rule R81 leaves SfrDevice.write to the platform: the clauses on its registers
are about the model's form of it (DESIGN CHOICE, notes/assumptions/13.md and 14.md). -/
def Obligations.DirectWriteChangesOnlyItsDestination : Prop :=
  ∀ (d v : Byte) (s : State), DirectExists d s →
    ∃ t, directWrite d v s = .next t ∧ DirectChange d v s t ∧
      (∀ c, c ≠ d → findDevice c t = findDevice c s) ∧
      ∀ r, 0x80 ≤ d.toNat → coreSfr d = none → findDevice d s = some r → r.kind ≠ .oracle →
        directReadRmw d t = .next v ∧ t.busLog = s.busLog

/-- 10_state.md rule R35 and 20_memory.md rule R81 (decisions D6, D31): bit 0 of a read of the PSW is 1 exactly when A
holds an odd number of ones, the other bits are the stored ones, and a write to bit 0 is discarded. -/
def Obligations.ParityBitFollowsTheAccumulator : Prop :=
  ∀ (s : State) (v : Byte),
    (∃ w, directRead 0xD0 s = .next w ∧ directReadRmw 0xD0 s = .next w ∧
      (w.getLsbD 0 = true ↔ ((List.range 8).countP fun k => s.a.getLsbD k) % 2 = 1) ∧
      ∀ k, 1 ≤ k → k < 8 → w.getLsbD k = s.psw.getLsbD k) ∧
    ∃ t, directWrite 0xD0 v s = .next t ∧ t = { s with psw := t.psw } ∧ t.psw.getLsbD 0 = false ∧
      (∀ k, 1 ≤ k → k < 8 → t.psw.getLsbD k = v.getLsbD k) ∧
      ∀ x u, bitWrite 0xD0 x s = .next u → ∀ k, 1 ≤ k → k < 8 → u.psw.getLsbD k = s.psw.getLsbD k

/-- 20_memory.md rules R69 to R71 (decision D8): a bit address below 80H names a bit of internal RAM 20H..2FH, one from
80H on a bit of the register at the multiple of eight; a bit is read through the pins or the latch as its byte is, and
writing a bit writes its whole byte back with that one bit changed. -/
def Obligations.BitAddressesNameOneBitOfOneByte : Prop :=
  ∀ (b : Byte) (s : State) (loc : Byte),
    loc.toNat = (if b.toNat < 0x80 then 0x20 + b.toNat / 8 else b.toNat / 8 * 8) →
    (∀ v, directRead loc s = .next v → bitRead b s = .next (v.getLsbD (b.toNat % 8))) ∧
    ∀ v, directReadRmw loc s = .next v →
      bitReadRmw b s = .next (v.getLsbD (b.toNat % 8)) ∧
      ∀ x, ∃ w t, (∀ k, k < 8 → w.getLsbD k = if k = b.toNat % 8 then x else v.getLsbD k) ∧
        directWrite loc w s = .next t ∧ bitWrite b x s = .next t ∧ DirectChange loc w s t

/-- 20_memory.md rule R72 (decision D10): a push increments SP, modulo 256, and then writes; a pop reads and then
decrements it; a pop after a push gives back the byte and the old SP. -/
def Obligations.PushAndPopMoveTheStackPointerByOne : Prop :=
  ∀ (v : Byte) (s : State),
    ((s.sp + 1).toNat < s.plat.iramSize.count →
      ∃ t, push v s = .next t ∧ t = { s with sp := t.sp, iram := t.iram } ∧ t.sp.toNat = (s.sp.toNat + 1) % 256 ∧
        iramRead t.sp t = .next v ∧ (∀ c, c ≠ t.sp → iramRead c t = iramRead c s) ∧
        pop t = .next (v, { t with sp := s.sp })) ∧
    (iramRead s.sp s = .next v →
      ∃ t, pop s = .next (v, t) ∧ t = { s with sp := t.sp } ∧ t.sp.toNat = (s.sp.toNat + 255) % 256)

/-- 10_state.md rule R26 (decision D7): Rn is the internal RAM cell 8 * bank + n, the bank being bits 4 and 3 of the PSW;
writing one working register changes no other cell. -/
def Obligations.WorkingRegistersLieInTheSelectedBank : Prop :=
  ∀ (n : RegNo) (v : Byte) (s : State),
    (∃ c : Byte, c.toNat = 8 * (s.psw.toNat / 8 % 4) + n.val ∧ regRead n s = iramRead c s) ∧
    ∃ t, regWrite n v s = .next t ∧ t = { s with iram := t.iram } ∧ regRead n t = .next v ∧
      (∀ m, m ≠ n → regRead m t = regRead m s) ∧
      ∀ c : Byte, c.toNat ≠ 8 * (s.psw.toNat / 8 % 4) + n.val → iramRead c t = iramRead c s

/-! ### Arithmetic -/

/-- 40_arithmetic.md rules R120 and R122 to R125. -/
def Obligations.AddPutsTheSumInA : Prop :=
  ∀ (src : Source) (s : State),
    HasEncoding (addForm src) (columnBytes 0x20 src) 1 ∧
    ∀ v, src.read s = .next v →
      ∃ t, exec (addForm src) s = .next t ∧ SumInA v 0 s t ∧ t.pc = s.pc + BitVec.ofNat 16 src.len

/-- 40_arithmetic.md rules R120 and R126 to R129. -/
def Obligations.AddcAddsTheCarryIn : Prop :=
  ∀ (src : Source) (s : State),
    HasEncoding (addcForm src) (columnBytes 0x30 src) 1 ∧
    ∀ v, src.read s = .next v →
      ∃ t, exec (addcForm src) s = .next t ∧ SumInA v (if s.cy then 1 else 0) s t ∧
        t.pc = s.pc + BitVec.ofNat 16 src.len

/-- 40_arithmetic.md rules R121 and R130 to R133. -/
def Obligations.SubbSubtractsWithBorrow : Prop :=
  ∀ (src : Source) (s : State),
    HasEncoding (subbForm src) (columnBytes 0x90 src) 1 ∧
    ∀ v, src.read s = .next v →
      ∃ t, exec (subbForm src) s = .next t ∧ DifferenceInA v (if s.cy then 1 else 0) s t ∧
        t.pc = s.pc + BitVec.ofNat 16 src.len

/-- 40_arithmetic.md rules R134, R135, R137 to R139 and R141: no flag is written. -/
def Obligations.IncAndDecChangeOneByteByOne : Prop :=
  ∀ s : State,
    (HasEncoding .incA [0x04] 1 ∧ HasEncoding .decA [0x14] 1 ∧
      (∃ t, exec .incA s = .next t ∧ t = { s with a := t.a, pc := s.pc + 1 } ∧ t.a.toNat = (s.a.toNat + 1) % 256) ∧
      ∃ t, exec .decA s = .next t ∧ t = { s with a := t.a, pc := s.pc + 1 } ∧ t.a.toNat = (s.a.toNat + 255) % 256) ∧
    (∀ n : RegNo, HasEncoding (.incRn n) [0x08 + BitVec.ofNat 8 n.val] 1 ∧
      HasEncoding (.decRn n) [0x18 + BitVec.ofNat 8 n.val] 1 ∧
      ∀ v, regRead n s = .next v →
        (∃ t w, exec (.incRn n) s = .next t ∧ CellWritten (regCell n.val s) w 1 s t ∧ w.toNat = (v.toNat + 1) % 256) ∧
        ∃ t w, exec (.decRn n) s = .next t ∧ CellWritten (regCell n.val s) w 1 s t ∧ w.toNat = (v.toNat + 255) % 256) ∧
    ∀ i : IndNo, HasEncoding (.incInd i) [0x06 + BitVec.ofNat 8 i.val] 1 ∧
      HasEncoding (.decInd i) [0x16 + BitVec.ofNat 8 i.val] 1 ∧
      ∀ a v, indAddress i s = .next a → iramRead a s = .next v →
        (∃ t w, exec (.incInd i) s = .next t ∧ CellWritten a w 1 s t ∧ w.toNat = (v.toNat + 1) % 256) ∧
        ∃ t w, exec (.decInd i) s = .next t ∧ CellWritten a w 1 s t ∧ w.toNat = (v.toNat + 255) % 256

/-- 40_arithmetic.md rules R136 and R140: the latch of a port is read, and the destination alone is written. -/
def Obligations.IncAndDecDirectRewriteTheirByte : Prop :=
  ∀ (d : Byte) (s : State),
    HasEncoding (.incDirect d) [0x05, d] 1 ∧ HasEncoding (.decDirect d) [0x15, d] 1 ∧
    ∀ v, directReadRmw d s = .next v →
      (∃ w, w.toNat = (v.toNat + 1) % 256 ∧ WritesDirect (.incDirect d) 2 d w s s) ∧
      ∃ w, w.toNat = (v.toNat + 255) % 256 ∧ WritesDirect (.decDirect d) 2 d w s s

/-- 40_arithmetic.md rule R142 and 42_data_transfer.md rule R196. -/
def Obligations.DataPointerIsLoadedAndIncrementedWhole : Prop :=
  ∀ (s : State) (h l : Byte),
    HasEncoding .incDptr [0xA3] 2 ∧ HasEncoding (.movDptr (h ++ l)) [0x90, h, l] 2 ∧
    (∃ t, exec .incDptr s = .next t ∧ t = { s with dph := t.dph, dpl := t.dpl, pc := s.pc + 1 } ∧
      t.dph.toNat * 256 + t.dpl.toNat = (s.dph.toNat * 256 + s.dpl.toNat + 1) % 65536) ∧
    exec (.movDptr (h ++ l)) s = .next { s with dph := h, dpl := l, pc := s.pc + 3 }

/-- 40_arithmetic.md rule R143. -/
def Obligations.MulLeavesTheProductInBAndA : Prop :=
  ∀ s : State,
    HasEncoding .mulAb [0xA4] 4 ∧
    ∃ t, exec .mulAb s = .next t ∧ t = { s with a := t.a, b := t.b, psw := t.psw, pc := s.pc + 1 } ∧
      t.b.toNat * 256 + t.a.toNat = s.a.toNat * s.b.toNat ∧ t.cy = false ∧
      t.ov = decide (s.a.toNat * s.b.toNat > 255) ∧
      ∀ k, k < 7 → k ≠ 2 → t.psw.getLsbD k = s.psw.getLsbD k

/-- 40_arithmetic.md rule R144 (decision D20): a division by zero is no trap; it completes, sets OV and clears C, and
nothing is said of the two bytes that it leaves in A and B. -/
def Obligations.DivLeavesQuotientAndRemainder : Prop :=
  ∀ s : State,
    HasEncoding .divAb [0x84] 4 ∧
    ∃ t, exec .divAb s = .next t ∧ t = { s with a := t.a, b := t.b, psw := t.psw, pc := s.pc + 1 } ∧
      (s.b ≠ 0 → s.a.toNat = t.a.toNat * s.b.toNat + t.b.toNat ∧ t.b.toNat < s.b.toNat) ∧ t.cy = false ∧
      (t.ov = true ↔ s.b = 0) ∧ ∀ k, k < 7 → k ≠ 2 → t.psw.getLsbD k = s.psw.getLsbD k

/-- 40_arithmetic.md rule R145 (decision D25): the two conditional additions, with the carry out of each. -/
def Obligations.DaAdjustsInTwoSteps : Prop :=
  ∀ s : State,
    HasEncoding .daA [0xD4] 1 ∧
    ∃ t, exec .daA s = .next t ∧ t = { s with a := t.a, psw := t.psw, pc := s.pc + 1 } ∧
      (∀ k, k < 7 → t.psw.getLsbD k = s.psw.getLsbD k) ∧
      ∃ low mid high : Nat,
        low = s.a.toNat + (if s.a.toNat % 16 > 9 ∨ s.ac = true then 6 else 0) ∧ mid = low % 256 ∧
        high = mid + (if mid / 16 > 9 ∨ s.cy = true ∨ low > 255 then 0x60 else 0) ∧
        t.a.toNat = high % 256 ∧ (t.cy = true ↔ s.cy = true ∨ low > 255 ∨ high > 255)

/-- What 40_arithmetic.md rule R145 and 70_reset_and_hazards.md rule R299 (b) say DA A is for: after an addition of two
packed BCD bytes, and a carry, it leaves the packed BCD sum, and C tells a sum above 99. -/
def Obligations.DecimalAdditionOfPackedBcdIsExact : Prop :=
  ∀ (x y : Nat) (s : State), x < 100 → y < 100 → s.a.toNat = x / 10 * 16 + x % 10 →
    ∃ t u, exec (.addcImm (BitVec.ofNat 8 (y / 10 * 16 + y % 10))) s = .next t ∧ exec .daA t = .next u ∧
      u.a.toNat = (x + y + (if s.cy then 1 else 0)) % 100 / 10 * 16 + (x + y + (if s.cy then 1 else 0)) % 10 ∧
      u.cy = decide (x + y + (if s.cy then 1 else 0) > 99)

/-! ### Logic -/

/-- 41_logic.md rules R150 to R154, R157 to R160 and R163 to R166. -/
def Obligations.LogicIntoAWorksBitByBit : Prop :=
  ∀ (op : LogicOp) (src : Source) (s : State),
    HasEncoding (logicForm op src) (columnBytes op.high src) 1 ∧
    ∀ v, src.read s = .next v →
      ∃ t, exec (logicForm op src) s = .next t ∧
        t = { s with a := t.a, pc := s.pc + BitVec.ofNat 16 src.len } ∧
        ∀ k, k < 8 → t.a.getLsbD k = op.onBits (s.a.getLsbD k) (v.getLsbD k)

/-- 41_logic.md rules R150, R155, R156, R161, R162, R167 and R168: the latch of a port is read, and the destination
alone is written. -/
def Obligations.LogicIntoDirectWorksBitByBit : Prop :=
  ∀ (op : LogicOp) (d k : Byte) (s : State),
    HasEncoding (logicDirectA op d) [op.high + 2, d] 1 ∧ HasEncoding (logicDirectImm op d k) [op.high + 3, d, k] 2 ∧
    ∀ v, directReadRmw d s = .next v →
      (∃ w, (∀ j, j < 8 → w.getLsbD j = op.onBits (v.getLsbD j) (s.a.getLsbD j)) ∧
        WritesDirect (logicDirectA op d) 2 d w s s) ∧
      ∃ w, (∀ j, j < 8 → w.getLsbD j = op.onBits (v.getLsbD j) (k.getLsbD j)) ∧
        WritesDirect (logicDirectImm op d k) 3 d w s s

/-- 41_logic.md rules R169 to R171, R173 and R175: A alone changes. -/
def Obligations.AccumulatorOperationsPermuteOrFillItsBits : Prop :=
  ∀ s : State,
    (HasEncoding .clrA [0xE4] 1 ∧ exec .clrA s = .next { s with a := 0x00, pc := s.pc + 1 }) ∧
    (HasEncoding .cplA [0xF4] 1 ∧ ∃ t, exec .cplA s = .next t ∧ t = { s with a := t.a, pc := s.pc + 1 } ∧
      ∀ k, k < 8 → t.a.getLsbD k = !s.a.getLsbD k) ∧
    (HasEncoding .rlA [0x23] 1 ∧ ∃ t, exec .rlA s = .next t ∧ t = { s with a := t.a, pc := s.pc + 1 } ∧
      ∀ k, k < 8 → t.a.getLsbD k = s.a.getLsbD ((k + 7) % 8)) ∧
    (HasEncoding .rrA [0x03] 1 ∧ ∃ t, exec .rrA s = .next t ∧ t = { s with a := t.a, pc := s.pc + 1 } ∧
      ∀ k, k < 8 → t.a.getLsbD k = s.a.getLsbD ((k + 1) % 8)) ∧
    (HasEncoding .swapA [0xC4] 1 ∧ ∃ t, exec .swapA s = .next t ∧ t = { s with a := t.a, pc := s.pc + 1 } ∧
      ∀ k, k < 8 → t.a.getLsbD k = s.a.getLsbD ((k + 4) % 8))

/-- 41_logic.md rules R172 and R174: A and C are one ring of nine bits. -/
def Obligations.RotatesThroughCarryTurnNineBits : Prop :=
  ∀ s : State,
    (HasEncoding .rlcA [0x33] 1 ∧ ∃ t, exec .rlcA s = .next t ∧
      t = { s with a := t.a, psw := t.psw, pc := s.pc + 1 } ∧ t.cy = s.a.getLsbD 7 ∧
      (∀ k, k < 8 → t.a.getLsbD k = if k = 0 then s.cy else s.a.getLsbD (k - 1)) ∧
      ∀ k, k < 7 → t.psw.getLsbD k = s.psw.getLsbD k) ∧
    HasEncoding .rrcA [0x13] 1 ∧ ∃ t, exec .rrcA s = .next t ∧
      t = { s with a := t.a, psw := t.psw, pc := s.pc + 1 } ∧ t.cy = s.a.getLsbD 0 ∧
      (∀ k, k < 8 → t.a.getLsbD k = if k = 7 then s.cy else s.a.getLsbD (k + 1)) ∧
      ∀ k, k < 7 → t.psw.getLsbD k = s.psw.getLsbD k

/-! ### Data transfer -/

/-- 42_data_transfer.md rules R180, R181, R183 and R184, and R182 for every address but that of ACC. -/
def Obligations.MovIntoACopiesItsSource : Prop :=
  ∀ (src : Source) (s : State), src ≠ .direct 0xE0 →
    HasEncoding (movAForm src)
      (match src with
        | .reg n => [0xE8 + BitVec.ofNat 8 n.val]
        | .direct d => [0xE5, d]
        | .ind i => [0xE6 + BitVec.ofNat 8 i.val]
        | .imm k => [0x74, k]) 1 ∧
    ∀ v, src.read s = .next v →
      exec (movAForm src) s = .next { s with a := v, pc := s.pc + BitVec.ofNat 16 src.len }

/-- 42_data_transfer.md rules R185 to R187. -/
def Obligations.MovIntoRegisterCopiesItsSource : Prop :=
  ∀ (n : RegNo) (d k : Byte) (s : State),
    (HasEncoding (.movRnA n) [0xF8 + BitVec.ofNat 8 n.val] 1 ∧
      ∃ t, exec (.movRnA n) s = .next t ∧ CellWritten (regCell n.val s) s.a 1 s t) ∧
    (HasEncoding (.movRnDirect n d) [0xA8 + BitVec.ofNat 8 n.val, d] 2 ∧
      ∀ v, directRead d s = .next v →
        ∃ t, exec (.movRnDirect n d) s = .next t ∧ CellWritten (regCell n.val s) v 2 s t) ∧
    HasEncoding (.movRnImm n k) [0x78 + BitVec.ofNat 8 n.val, k] 1 ∧
      ∃ t, exec (.movRnImm n k) s = .next t ∧ CellWritten (regCell n.val s) k 2 s t

/-- 42_data_transfer.md rules R188 to R192: the source is read before the destination is written; of MOV
direct,direct the first operand byte is the source. -/
def Obligations.MovIntoDirectCopiesItsSource : Prop :=
  ∀ (d : Byte) (s : State), DirectExists d s →
    (HasEncoding (.movDirectA d) [0xF5, d] 1 ∧ WritesDirect (.movDirectA d) 2 d s.a s s) ∧
    (∀ k, HasEncoding (.movDirectImm d k) [0x75, d, k] 2 ∧ WritesDirect (.movDirectImm d k) 3 d k s s) ∧
    (∀ n : RegNo, HasEncoding (.movDirectRn n d) [0x88 + BitVec.ofNat 8 n.val, d] 2 ∧
      ∀ v, regRead n s = .next v → WritesDirect (.movDirectRn n d) 2 d v s s) ∧
    (∀ i : IndNo, HasEncoding (.movDirectInd i d) [0x86 + BitVec.ofNat 8 i.val, d] 2 ∧
      ∀ v, indRead i s = .next v → WritesDirect (.movDirectInd i d) 2 d v s s) ∧
    ∀ src, HasEncoding (.movDirectDirect src d) [0x85, src, d] 2 ∧
      ∀ v, directRead src s = .next v → WritesDirect (.movDirectDirect src d) 3 d v s s

/-- 42_data_transfer.md rules R193 to R195. -/
def Obligations.MovIntoIndirectCopiesItsSource : Prop :=
  ∀ (i : IndNo) (a d k : Byte) (s : State),
    HasEncoding (.movIndA i) [0xF6 + BitVec.ofNat 8 i.val] 1 ∧
    HasEncoding (.movIndDirect i d) [0xA6 + BitVec.ofNat 8 i.val, d] 2 ∧
    HasEncoding (.movIndImm i k) [0x76 + BitVec.ofNat 8 i.val, k] 1 ∧
    (indAddress i s = .next a → a.toNat < s.plat.iramSize.count →
      (∃ t, exec (.movIndA i) s = .next t ∧ CellWritten a s.a 1 s t) ∧
      (∀ v, directRead d s = .next v → ∃ t, exec (.movIndDirect i d) s = .next t ∧ CellWritten a v 2 s t) ∧
      ∃ t, exec (.movIndImm i k) s = .next t ∧ CellWritten a k 2 s t)

/-- 42_data_transfer.md rules R197 and R198: the base is DPTR, or the address of the following instruction; the sum is
modulo 65536. -/
def Obligations.MovcReadsAProgramByte : Prop :=
  ∀ (s : State) (v : Byte),
    (HasEncoding .movcDptr [0x93] 2 ∧
      (s.code.read ((s.dph.toNat * 256 + s.dpl.toNat + s.a.toNat) % 65536) = some v →
        exec .movcDptr s = .next { s with a := v, pc := s.pc + 1 })) ∧
    HasEncoding .movcPc [0x83] 2 ∧
      (s.code.read ((s.pc.toNat + 1 + s.a.toNat) % 65536) = some v →
        exec .movcPc s = .next { s with a := v, pc := s.pc + 1 })

/-- 42_data_transfer.md rules R199 and R200 with 20_memory.md rules R62 and R82 (decisions D13, D28): A receives the byte
at the external address, whose high-order byte is, for @Ri, what the platform's XPAGE gives, be it the P2 latch or any
other function of the state; the P0 latch may change if the platform says so, and nothing else does. That a read of an
oracle device answers some byte and changes nothing is the model's choice (DESIGN CHOICE, notes/assumptions/14.md). -/
def Obligations.MovxReadsExternalDataMemory : Prop :=
  ∀ (s : State) (v : Byte),
    (HasEncoding .movxADptr [0xE0] 2 ∧
      (xRead (s.dph ++ s.dpl) s = .next v →
        ∃ x, exec .movxADptr s = .next { s with a := v, latch := { s.latch with p0 := x }, pc := s.pc + 1 } ∧
          (s.plat.p0Xbus = .unchanged → x = s.latch.p0))) ∧
    (∀ i : IndNo, HasEncoding (.movxAInd i) [0xE2 + BitVec.ofNat 8 i.val] 2 ∧
      ∀ r page, indAddress i s = .next r →
        PageIs page s →
        xRead (page ++ r) s = .next v →
        ∃ x, exec (.movxAInd i) s = .next { s with a := v, latch := { s.latch with p0 := x }, pc := s.pc + 1 } ∧
          (s.plat.p0Xbus = .unchanged → x = s.latch.p0)) ∧
    ∀ w : Word, (s.plat.xdataKind = .plainRam → s.xdata.read w.toNat = some v → xRead w s = .next v) ∧
      (s.plat.xdataKind = .oracle → ∃ x, xRead w s = .next x)

/-- 42_data_transfer.md rules R201 and R202 with 20_memory.md rules R62 and R82 (decisions D13, D28), the high-order
address byte of @Ri being, as for the reads, what the platform's XPAGE gives: plain external RAM then reads A at that
address and as before at every other; an oracle device receives the write, which the model's own record busLog shows
(DESIGN CHOICE, notes/assumptions/14.md). -/
def Obligations.MovxWritesExternalDataMemory : Prop :=
  ∀ (s : State) (i : IndNo),
    HasEncoding .movxDptrA [0xF0] 2 ∧ HasEncoding (.movxIndA i) [0xF2 + BitVec.ofNat 8 i.val] 2 ∧
    ∀ (form : Instr) (w : Word),
      (form = .movxDptrA ∧ w = s.dph ++ s.dpl ∨
        form = .movxIndA i ∧ ∃ r page, indAddress i s = .next r ∧ PageIs page s ∧ w = page ++ r) →
      ∃ t, exec form s = .next t ∧
        t = { s with
          xdata := t.xdata, busLog := t.busLog, latch := { s.latch with p0 := t.latch.p0 }, pc := s.pc + 1 } ∧
        (s.plat.p0Xbus = .unchanged → t.latch.p0 = s.latch.p0) ∧
        (s.plat.xdataKind = .plainRam →
          t.busLog = s.busLog ∧ xRead w t = .next s.a ∧ ∀ c, c ≠ w → xRead c t = xRead c s) ∧
        (s.plat.xdataKind = .oracle → t.xdata = s.xdata ∧ t.busLog = .xdata w s.a :: s.busLog)

/-- 42_data_transfer.md rule R203: SP is incremented before the source is read, so PUSH SP stores the new SP. -/
def Obligations.PushStoresItsSourceOnTheStack : Prop :=
  ∀ (d v : Byte) (s : State),
    HasEncoding (.push d) [0xC0, d] 2 ∧
    ((s.sp + 1).toNat < s.plat.iramSize.count →
      (directRead d { s with sp := s.sp + 1 } = .next v →
        ∃ t, exec (.push d) s = .next t ∧ t = { s with sp := s.sp + 1, iram := t.iram, pc := s.pc + 2 } ∧
          iramRead (s.sp + 1) t = .next v ∧ ∀ c, c ≠ s.sp + 1 → iramRead c t = iramRead c s) ∧
      ∃ t, exec (.push 0x81) s = .next t ∧ iramRead (s.sp + 1) t = .next (s.sp + 1))

/-- 42_data_transfer.md rule R204: SP is decremented before the destination is written, so POP SP leaves the byte. -/
def Obligations.PopLoadsItsDestinationFromTheStack : Prop :=
  ∀ (d v : Byte) (s : State),
    HasEncoding (.pop d) [0xD0, d] 2 ∧
    (iramRead s.sp s = .next v →
      (DirectExists d s → WritesDirect (.pop d) 2 d v s { s with sp := s.sp - 1 }) ∧
      exec (.pop 0x81) s = .next { s with sp := v, pc := s.pc + 2 })

/-- 42_data_transfer.md rules R205 to R207. Of a port the pins are read and the latch is written: decision D14, a DESIGN
CHOICE (notes/assumptions/19.md). -/
def Obligations.XchExchangesAWithItsOperand : Prop :=
  ∀ (v : Byte) (s : State),
    (∀ n : RegNo, HasEncoding (.xchRn n) [0xC8 + BitVec.ofNat 8 n.val] 1 ∧
      (regRead n s = .next v →
        ∃ t, exec (.xchRn n) s = .next t ∧ t = { s with a := v, iram := t.iram, pc := s.pc + 1 } ∧
          iramRead (regCell n.val s) t = .next s.a ∧ ∀ c, c ≠ regCell n.val s → iramRead c t = iramRead c s)) ∧
    (∀ i : IndNo, HasEncoding (.xchInd i) [0xC6 + BitVec.ofNat 8 i.val] 1 ∧
      ∀ a, indAddress i s = .next a → iramRead a s = .next v →
        ∃ t, exec (.xchInd i) s = .next t ∧ t = { s with a := v, iram := t.iram, pc := s.pc + 1 } ∧
          iramRead a t = .next s.a ∧ ∀ c, c ≠ a → iramRead c t = iramRead c s) ∧
    ∀ d : Byte, HasEncoding (.xchDirect d) [0xC5, d] 1 ∧
      (directRead d s = .next v →
        ∃ t, directWrite d s.a s = .next t ∧ DirectChange d s.a s t ∧
          exec (.xchDirect d) s = .next { t with a := v, pc := s.pc + 2 })

/-- 42_data_transfer.md rule R208. -/
def Obligations.XchdExchangesLowNibbles : Prop :=
  ∀ (i : IndNo) (a v : Byte) (s : State),
    HasEncoding (.xchd i) [0xD6 + BitVec.ofNat 8 i.val] 1 ∧
    (indAddress i s = .next a → iramRead a s = .next v →
      ∃ t w, exec (.xchd i) s = .next t ∧ t = { s with a := t.a, iram := t.iram, pc := s.pc + 1 } ∧
        t.a.toNat = s.a.toNat / 16 * 16 + v.toNat % 16 ∧ w.toNat = v.toNat / 16 * 16 + s.a.toNat % 16 ∧
        iramRead a t = .next w ∧ ∀ c, c ≠ a → iramRead c t = iramRead c s)

/-! ### Boolean operations -/

/-- 43_boolean.md rules R216, R218 and R220. -/
def Obligations.CarryIsClearedSetAndComplemented : Prop :=
  ∀ s : State,
    (HasEncoding .clrC [0xC3] 1 ∧ ∃ t, exec .clrC s = .next t ∧ OnlyCy false s t ∧ t.pc = s.pc + 1) ∧
    (HasEncoding .setbC [0xD3] 1 ∧ ∃ t, exec .setbC s = .next t ∧ OnlyCy true s t ∧ t.pc = s.pc + 1) ∧
    HasEncoding .cplC [0xB3] 1 ∧ ∃ t, exec .cplC s = .next t ∧ OnlyCy (!s.cy) s t ∧ t.pc = s.pc + 1

/-- 43_boolean.md rules R217, R219, R221 and R227: the bit alone changes; the latch of a port is read. -/
def Obligations.BitWritesChangeOneBit : Prop :=
  ∀ (b : Byte) (s : State),
    HasEncoding (.clrBit b) [0xC2, b] 1 ∧ HasEncoding (.setbBit b) [0xD2, b] 1 ∧
    HasEncoding (.cplBit b) [0xB2, b] 1 ∧ HasEncoding (.movBitC b) [0x92, b] 2 ∧
    ∀ v, bitReadRmw b s = .next v →
      WritesBit (.clrBit b) b false s ∧ WritesBit (.setbBit b) b true s ∧ WritesBit (.cplBit b) b (!v) s ∧
        WritesBit (.movBitC b) b s.cy s

/-- 43_boolean.md rules R222 to R226: C alone changes; the pin of a port bit is read. -/
def Obligations.BitsCombineIntoTheCarry : Prop :=
  ∀ (b : Byte) (s : State),
    HasEncoding (.anlCBit b) [0x82, b] 2 ∧ HasEncoding (.anlCNotBit b) [0xB0, b] 2 ∧
    HasEncoding (.orlCBit b) [0x72, b] 2 ∧ HasEncoding (.orlCNotBit b) [0xA0, b] 2 ∧
    HasEncoding (.movCBit b) [0xA2, b] 1 ∧
    ∀ v, bitRead b s = .next v →
      (∃ t, exec (.anlCBit b) s = .next t ∧ OnlyCy (s.cy && v) s t ∧ t.pc = s.pc + 2) ∧
      (∃ t, exec (.anlCNotBit b) s = .next t ∧ OnlyCy (s.cy && !v) s t ∧ t.pc = s.pc + 2) ∧
      (∃ t, exec (.orlCBit b) s = .next t ∧ OnlyCy (s.cy || v) s t ∧ t.pc = s.pc + 2) ∧
      (∃ t, exec (.orlCNotBit b) s = .next t ∧ OnlyCy (s.cy || !v) s t ∧ t.pc = s.pc + 2) ∧
      ∃ t, exec (.movCBit b) s = .next t ∧ OnlyCy v s t ∧ t.pc = s.pc + 2

/-! ### Program control -/

/-- 44_program_control.md rules R232 and R233 with 20_memory.md rules R72 and R73: the address of the following
instruction is pushed, low-order byte first; ACALL stays in the 2-Kbyte page of that address. -/
def Obligations.CallsPushTheFollowingAddress : Prop :=
  ∀ (p : BitVec 3) (h l : Byte) (s : State),
    HasEncoding (.acall (p ++ l)) [p ++ (0x11 : BitVec 5), l] 2 ∧ HasEncoding (.lcall (h ++ l)) [0x12, h, l] 2 ∧
    (RoomToPush s →
      (∃ t, exec (.acall (p ++ l)) s = .next t ∧ AddressPushed (s.pc + 2) s t ∧
        t = { s with sp := t.sp, iram := t.iram, pc := t.pc } ∧
        t.pc.toNat = (s.pc + 2).toNat / 2048 * 2048 + p.toNat * 256 + l.toNat) ∧
      ∃ t, exec (.lcall (h ++ l)) s = .next t ∧ AddressPushed (s.pc + 3) s t ∧
        t = { s with sp := t.sp, iram := t.iram, pc := h ++ l })

/-- 44_program_control.md rule R234: RET touches pc and SP alone, and not the interrupt logic. -/
def Obligations.RetPopsTheReturnAddress : Prop :=
  ∀ (h l : Byte) (s : State),
    HasEncoding .ret [0x22] 2 ∧
    (iramRead s.sp s = .next h → iramRead (s.sp - 1) s = .next l →
      exec .ret s = .next { s with sp := s.sp - 2, pc := h ++ l })

/-- 44_program_control.md rule R235 and 60_exceptions.md rule R266 (decision D17): RETI also takes the highest level out
of service, if there is one, and sets RetiShadow; it writes nothing else. -/
def Obligations.RetiAlsoLeavesTheHighestLevel : Prop :=
  ∀ (h l : Byte) (s : State),
    HasEncoding .reti [0x32] 2 ∧
    (iramRead s.sp s = .next h → iramRead (s.sp - 1) s = .next l → levelsDescend s.inService = true →
      exec .reti s = .next { s with
        sp := s.sp - 2, pc := h ++ l, inService := s.inService.tail, retiShadow := true })

/-- 44_program_control.md rules R236 to R239 and R253: pc alone changes. -/
def Obligations.JumpsLoadTheProgramCounter : Prop :=
  ∀ (p : BitVec 3) (h l rel : Byte) (s : State),
    (HasEncoding (.ajmp (p ++ l)) [p ++ (0x01 : BitVec 5), l] 2 ∧
      ∃ t, exec (.ajmp (p ++ l)) s = .next t ∧ t = { s with pc := t.pc } ∧
        t.pc.toNat = (s.pc + 2).toNat / 2048 * 2048 + p.toNat * 256 + l.toNat) ∧
    (HasEncoding (.ljmp (h ++ l)) [0x02, h, l] 2 ∧ exec (.ljmp (h ++ l)) s = .next { s with pc := h ++ l }) ∧
    (HasEncoding (.sjmp rel) [0x80, rel] 2 ∧
      ∃ t, exec (.sjmp rel) s = .next t ∧ t = { s with pc := t.pc } ∧ PcIs t.pc (s.pc.toNat + 2 + rel.toInt)) ∧
    (HasEncoding .jmpADptr [0x73] 2 ∧
      ∃ t, exec .jmpADptr s = .next t ∧ t = { s with pc := t.pc } ∧
        PcIs t.pc (s.dph.toNat * 256 + s.dpl.toNat + s.a.toNat)) ∧
    HasEncoding .nop [0x00] 1 ∧ exec .nop s = .next { s with pc := s.pc + 1 }

/-- 44_program_control.md rules R230 and R240 to R243: pc alone changes. -/
def Obligations.ConditionalJumpsTestAAndC : Prop :=
  ∀ (rel : Byte) (s : State),
    (HasEncoding (.jz rel) [0x60, rel] 2 ∧ ∃ t, exec (.jz rel) s = .next t ∧ t = { s with pc := t.pc } ∧
      PcIs t.pc (s.pc.toNat + 2 + if s.a.toNat = 0 then rel.toInt else 0)) ∧
    (HasEncoding (.jnz rel) [0x70, rel] 2 ∧ ∃ t, exec (.jnz rel) s = .next t ∧ t = { s with pc := t.pc } ∧
      PcIs t.pc (s.pc.toNat + 2 + if s.a.toNat = 0 then 0 else rel.toInt)) ∧
    (HasEncoding (.jc rel) [0x40, rel] 2 ∧ ∃ t, exec (.jc rel) s = .next t ∧ t = { s with pc := t.pc } ∧
      PcIs t.pc (s.pc.toNat + 2 + if s.cy = true then rel.toInt else 0)) ∧
    HasEncoding (.jnc rel) [0x50, rel] 2 ∧ ∃ t, exec (.jnc rel) s = .next t ∧ t = { s with pc := t.pc } ∧
      PcIs t.pc (s.pc.toNat + 2 + if s.cy = true then 0 else rel.toInt)

/-- 44_program_control.md rules R244 and R245: pc alone changes; the pin of a port bit is read. -/
def Obligations.BitJumpsTestOneBit : Prop :=
  ∀ (b rel : Byte) (s : State),
    HasEncoding (.jb b rel) [0x20, b, rel] 2 ∧ HasEncoding (.jnb b rel) [0x30, b, rel] 2 ∧
    ∀ v, bitRead b s = .next v →
      (∃ t, exec (.jb b rel) s = .next t ∧ t = { s with pc := t.pc } ∧
        PcIs t.pc (s.pc.toNat + 3 + if v = true then rel.toInt else 0)) ∧
      ∃ t, exec (.jnb b rel) s = .next t ∧ t = { s with pc := t.pc } ∧
        PcIs t.pc (s.pc.toNat + 3 + if v = true then 0 else rel.toInt)

/-- 44_program_control.md rule R246 (decision D24): a bit that was 1 is cleared and the jump is taken; a bit that was 0 is
not written. -/
def Obligations.JbcJumpsAndClearsASetBit : Prop :=
  ∀ (b rel : Byte) (s : State),
    HasEncoding (.jbc b rel) [0x10, b, rel] 2 ∧
    (bitReadRmw b s = .next true →
      ∃ t u, bitWrite b false s = .next u ∧ BitChange b false s u ∧ exec (.jbc b rel) s = .next t ∧
        t = { u with pc := t.pc } ∧ PcIs t.pc (s.pc.toNat + 3 + rel.toInt)) ∧
    (bitReadRmw b s = .next false → exec (.jbc b rel) s = .next { s with pc := s.pc + 3 })

/-- 44_program_control.md rules R247 to R250: C tells an unsigned "below", whether or not the jump is taken. -/
def Obligations.CjneComparesUnsigned : Prop :=
  ∀ (d k rel : Byte) (s : State) (form : Instr) (dest src : Byte),
    HasEncoding (.cjneADirect d rel) [0xB5, d, rel] 2 ∧ HasEncoding (.cjneAImm k rel) [0xB4, k, rel] 2 ∧
    (∀ n : RegNo, HasEncoding (.cjneRnImm n k rel) [0xB8 + BitVec.ofNat 8 n.val, k, rel] 2) ∧
    (∀ i : IndNo, HasEncoding (.cjneIndImm i k rel) [0xB6 + BitVec.ofNat 8 i.val, k, rel] 2) ∧
    ((form = .cjneADirect d rel ∧ dest = s.a ∧ directRead d s = .next src) ∨
      (form = .cjneAImm k rel ∧ dest = s.a ∧ src = k) ∨
      (∃ n, form = .cjneRnImm n k rel ∧ regRead n s = .next dest ∧ src = k) ∨
      (∃ i, form = .cjneIndImm i k rel ∧ indRead i s = .next dest ∧ src = k) →
      ∃ t, exec form s = .next t ∧ OnlyCy (decide (dest.toNat < src.toNat)) s t ∧
        PcIs t.pc (s.pc.toNat + 3 + if dest.toNat = src.toNat then 0 else rel.toInt))

/-- 44_program_control.md rules R251 and R252: the test is on the byte written; a port is read from its latch. -/
def Obligations.DjnzDecrementsAndTests : Prop :=
  ∀ (d rel v w : Byte) (s : State), w.toNat = (v.toNat + 255) % 256 →
    (∀ n : RegNo, HasEncoding (.djnzRn n rel) [0xD8 + BitVec.ofNat 8 n.val, rel] 2 ∧
      (regRead n s = .next v →
        ∃ t, exec (.djnzRn n rel) s = .next t ∧ t = { s with iram := t.iram, pc := t.pc } ∧
          iramRead (regCell n.val s) t = .next w ∧ (∀ c, c ≠ regCell n.val s → iramRead c t = iramRead c s) ∧
          PcIs t.pc (s.pc.toNat + 2 + if w.toNat = 0 then 0 else rel.toInt))) ∧
    HasEncoding (.djnzDirect d rel) [0xD5, d, rel] 2 ∧
      (directReadRmw d s = .next v →
        ∃ t u, directWrite d w s = .next u ∧ DirectChange d w s u ∧ exec (.djnzDirect d rel) s = .next t ∧
          t = { u with pc := t.pc } ∧ PcIs t.pc (s.pc.toNat + 3 + if w.toNat = 0 then 0 else rel.toInt))

/-! ### Steps and interrupts -/

/-- 60_exceptions.md rule R264 and 30_encoding.md rule R91 (decisions D11, D17): at a boundary where no interrupt is taken
and the run is not over, the instruction whose bytes stand at pc runs, in the state that the environment's input leaves,
with RetiShadow cleared and the model's own draw counter moved on. -/
def Obligations.StepRunsTheDecodedInstruction : Prop :=
  ∀ (s : State) (bytes : List Byte) (i : Instr),
    decode bytes = .ok (i, []) → CodeAtPc bytes s → RunsAnInstruction s →
    step s = exec i { sampleEnvironment s with retiShadow := false, draws := s.draws + 1 }

/-- 60_exceptions.md rule R265 (decision D17): an accepted source pushes pc, low-order byte first, adds its level, is
acknowledged, and goes to its vector; nothing else changes. Rules R262 and R265 leave the acknowledgement to the platform;
that it is a change of requests and of bits of the platform's registers, the source's own or a function of the state with
the level already added, is the model's form of it (DESIGN CHOICE, notes/assumptions/10.md). -/
def Obligations.InterruptEntryPushesPcAndGoesToTheVector : Prop :=
  ∀ (s u : State) (src : IrqSource), u = sampleEnvironment s → endOfRun u = false →
    acceptedSource u = some src → RoomToPush u →
    ∃ t, step s = .next t ∧ AddressPushed u.pc u t ∧
      t = { u with
        sp := t.sp, iram := t.iram, pc := src.vector, inService := t.inService, requests := t.requests,
        device := t.device } ∧
      (∀ n, n ∈ t.inService ↔ n = src.level ∨ n ∈ u.inService) ∧
      FlagsChanged
        (match src.ack with
          | .change c => c
          | .board => Config.boardAck src.id { t with pc := u.pc, requests := u.requests, device := u.device })
        u.requests t.requests u.device t.device

/-- 60_exceptions.md rules R264 and R267 (decision D17): an interrupt is taken exactly when RetiShadow is false and some
source that is pending has a level above every level in service; of those the highest level goes first, and among equal
levels the first in the platform's order. That a source is pending by requests, by bits of registers or by a function of
the state is the model's form of Irq.pending (DESIGN CHOICE, notes/assumptions/10.md). -/
def Obligations.MostUrgentSourceAboveEveryLevelIsAccepted : Prop :=
  ∀ s : State,
    (acceptedSource s = none ↔ s.retiShadow = true ∨ ∀ o ∈ s.plat.irqSources, Pending o s →
      ∃ n ∈ s.inService, o.level ≤ n) ∧
    ∀ src, acceptedSource s = some src →
      s.retiShadow = false ∧ Pending src s ∧ (∀ n ∈ s.inService, n < src.level) ∧
      ∃ before after, s.plat.irqSources = before ++ src :: after ∧
        (∀ o ∈ before, Pending o s → (∀ n ∈ s.inService, n < o.level) → o.level < src.level) ∧
        ∀ o ∈ after, Pending o s → (∀ n ∈ s.inService, n < o.level) → o.level ≤ src.level

/-- 70_reset_and_hazards.md rule R295 with decision D17: after a RETI no interrupt is taken at the next boundary, whatever
requests have come, so that the next step runs one instruction, unless a predicate of the platform's own says there that
the run is over; an instruction that is no RETI leaves RetiShadow false, so that interrupts are open again at its end.
That the hold is against requests of every level is PRESUMED (notes/assumptions/11.md): the source of the spec speaks of
lower and same-level ones. -/
def Obligations.OneInstructionRunsAfterReti : Prop :=
  ∀ s t : State, exec .reti s = .next t →
    acceptedSource (sampleEnvironment t) = none ∧
    (t.plat.endOfRun ≠ .board → RunsAnInstruction t) ∧
    ∀ bytes i, decode bytes = .ok (i, []) → CodeAtPc bytes t → endOfRun (sampleEnvironment t) = false →
      step t = exec i { sampleEnvironment t with retiShadow := false, draws := t.draws + 1 } ∧
      ∀ u, i ≠ .reti → step t = .next u → u.retiShadow = false

/-- 60_exceptions.md rules R265 and R266 (decision D17): an RETI after an entry restores pc, SP and the levels in service;
the entry leaves two bytes on the stack, and its acknowledgement may change requests and bits of the platform's registers
(DESIGN CHOICE, notes/assumptions/10.md), and RETI sets RetiShadow. -/
def Obligations.RetiUndoesInterruptEntry : Prop :=
  ∀ (s : State) (src : IrqSource), levelsDescend s.inService = true → (∀ n ∈ s.inService, n < src.level) →
    RoomToPush s →
    ∃ t u, interruptEntry src s = .next t ∧ exec .reti t = .next u ∧
      u = { s with iram := u.iram, requests := u.requests, device := u.device, retiShadow := true } ∧
      u.device.map (fun r => (r.addr, r.kind, r.input)) = s.device.map (fun r => (r.addr, r.kind, r.input)) ∧
      ∀ c, c ≠ s.sp + 1 → c ≠ s.sp + 2 → iramRead c u = iramRead c s

/-- 60_exceptions.md rules R273 and R277: the environment changes pins, requests and the platform's registers, between
instructions, and no register or memory of the core. What it does is the model's choice of form: a schedule of inputs of
which each step takes the first, nothing happening when it is empty (DESIGN CHOICE, notes/assumptions/9.md); requests
raised and withdrawn by number, raised counting where one input does both, and bits of the platform's registers set or
cleared (DESIGN CHOICE, notes/assumptions/10.md); a platform register showing the first of the input's bytes for its
address, or else what it showed before (DESIGN CHOICE, notes/assumptions/13.md). -/
def Obligations.EnvironmentTouchesNoCoreState : Prop :=
  ∀ s : State, ∃ pins requests device,
    sampleEnvironment s = { s with
      pins := pins, requests := requests, device := device, inputs := s.inputs.tail } ∧
    (s.inputs = [] → sampleEnvironment s = s) ∧
    ∀ e es, s.inputs = e :: es →
      pins = e.pins.getD s.pins ∧
      ∃ flagged, FlagsChanged e.flags s.requests requests s.device flagged ∧
        device.map (fun r => (r.addr, r.kind, r.latch)) = flagged.map (fun r => (r.addr, r.kind, r.latch)) ∧
        ∀ (k : Nat) (r q : DeviceReg), flagged[k]? = some r → device[k]? = some q →
          ((∀ c ∈ e.deviceInputs, c.1 ≠ r.addr) → q.input = r.input) ∧
          ∀ before v after, e.deviceInputs = before ++ (r.addr, v) :: after → (∀ c ∈ before, c.1 ≠ r.addr) → q.input = v

/-! ### Encoding -/

/-- 30_encoding.md rules R100 and R101, 42_data_transfer.md rule R182 (decisions D18, D19): the first byte A5H and the
bytes E5H E0H are refused by the decoder, by the meaning and by a step. -/
def Obligations.ExcludedEncodingsAreRefused : Prop :=
  ∀ (rest : List Byte) (s : State),
    decode (0xA5 :: rest) = .error (.excluded .reservedOpcode) ∧
    decode (0xE5 :: 0xE0 :: rest) = .error (.excluded .movAAcc) ∧
    exec (.movADirect 0xE0) s = .refused .movAAcc ∧
    (RunsAnInstruction s → CodeAtPc [0xA5] s → step s = .refused .reservedOpcode) ∧
    (RunsAnInstruction s → CodeAtPc [0xE5, 0xE0] s → step s = .refused .movAAcc)

/-- 30_encoding.md rules R90 and R98: every first byte but A5H selects exactly one of the 111 forms, which gives the
length; and the words of a few forms, written from the table of rule R99. -/
def Obligations.EveryFirstByteButA5HSelectsOneForm : Prop :=
  opTable.length = 111 ∧
  (∀ op : Byte, (opTable.filter fun r => r.selects op).length = if op = 0xA5 then 0 else 1) ∧
  decode [0x2F] = .ok (.addRn 7, []) ∧ decode [0x27] = .ok (.addInd 1, []) ∧
  decode [0x85, 0x90, 0xA0] = .ok (.movDirectDirect 0x90 0xA0, []) ∧
  decode [0x90, 0x12, 0x34] = .ok (.movDptr 0x1234, []) ∧
  decode [0xB0, 0xD2] = .ok (.anlCNotBit 0xD2, []) ∧
  decode [0x71, 0x45] = .ok (.acall 0x345, []) ∧ decode [0x52, 0x30] = .ok (.anlDirectA 0x30, [])

/-- 30_encoding.md rules R92 to R99: decoding the bytes of a well-formed instruction gives it back, with every operand,
and leaves the bytes after it. -/
def Obligations.DecodeInvertsEncode : Prop :=
  ∀ (i : Instr) (rest : List Byte), i.wf = true →
    decode (encode i ++ rest) = .ok (i, rest) ∧ (encode i).length = i.len

/-- 30_encoding.md rules R90 and R98: the bytes that the decoder reads an instruction from are that instruction's only
encoding, and the instruction is well formed. -/
def Obligations.EncodeInvertsDecode : Prop :=
  ∀ (bytes rest : List Byte) (i : Instr), decode bytes = .ok (i, rest) →
    bytes = encode i ++ rest ∧ i.wf = true

/-! ### Whole-machine statements -/

/-- The model's invariant (memories canonical and inside their address spaces, the parity bit without storage by
10_state.md rule R35, the levels in service all different and highest first by 60_exceptions.md rule R266 and, like those
of the sources, levels of the platform, no source requesting twice) is kept by every step from every state. -/
def Obligations.InvariantIsKeptByEveryStep : Prop :=
  ∀ s t : State, s.Inv → step s = .next t → t.Inv

/-- The invariant holds after reset, and after the reset of 10_state.md rule R40 with any platform whose sources keep to
its levels. -/
def Obligations.InvariantHoldsAtReset : Prop :=
  State.reset.Inv ∧ ∀ p : Platform, sourcesKeepLevels p = true → (State.resetWith .ofR40 p).Inv

/-- 10_state.md rules R40 and R41 (decisions D16, D30): the reset values, and no value in internal RAM; State.reset is
that state but for the cells 00H..2FH, which the model sets to 00H (its own choice, notes/assumptions/1.md). -/
def Obligations.ResetLeavesTheValuesOfR40 : Prop :=
  (∀ p : Platform, ∃ s, s = State.resetWith .ofR40 p ∧
    s.pc = 0x0000 ∧ s.a = 0x00 ∧ s.b = 0x00 ∧ s.psw = 0x00 ∧ s.sp = 0x07 ∧ s.dph = 0x00 ∧ s.dpl = 0x00 ∧
    s.latch = ⟨0xFF, 0xFF, 0xFF, 0xFF⟩ ∧ s.inService = [] ∧ s.retiShadow = false ∧
    ∀ c v, iramRead c s ≠ .next v) ∧
  State.reset = { State.resetWith .ofR40 Platform.default with iram := State.reset.iram } ∧
  ∀ c : Byte, iramRead c State.reset = if c.toNat < 0x30 then .next 0x00 else .fault (.unwrittenIram c)

/-- 20_memory.md rule R80 and 10_state.md rule R33 (decision D12): no step writes program memory, nor the platform's
parameters. Two clauses are about the model's own form of the environment and of SfrDevice: a step takes one input of the
schedule (DESIGN CHOICE, notes/assumptions/9.md), and the list of the platform's registers keeps its addresses and kinds
(DESIGN CHOICE, notes/assumptions/13.md). -/
def Obligations.ProgramMemoryNeverChanges : Prop :=
  ∀ s t : State, step s = .next t →
    t.code = s.code ∧ t.plat = s.plat ∧ t.inputs = s.inputs.tail ∧ t.device.map (fun r => (r.addr, r.kind)) =
      s.device.map (fun r => (r.addr, r.kind))

/-- The table of 10_state.md rule R37, over all 111 forms: an instruction that does not name the PSW, or a bit of it, as
its destination leaves the bits F0, RS1, RS0 and F1, and those of C, AC and OV that the table gives it no write of. -/
def Obligations.FlagsChangeOnlyAsTheFlagTableSays : Prop :=
  ∀ (i : Instr) (s t : State), exec i s = .next t → (pswEffect i).namesPsw = false →
    (∀ k, k < 8 → k ≠ 7 → k ≠ 6 → k ≠ 2 → t.psw.getLsbD k = s.psw.getLsbD k) ∧
    ((pswEffect i).cWritten = false → t.cy = s.cy) ∧ ((pswEffect i).acWritten = false → t.ac = s.ac) ∧
    ((pswEffect i).ovWritten = false → t.ov = s.ov)

/-- 60_exceptions.md rules R263 and R269 over all 111 forms: RETI alone touches the interrupt logic; no instruction
changes pins, requests, program memory or the platform. -/
def Obligations.OnlyRetiTouchesTheInterruptLogic : Prop :=
  ∀ (i : Instr) (s t : State), exec i s = .next t →
    (i ≠ .reti → t.inService = s.inService ∧ t.retiShadow = s.retiShadow) ∧
    t.pins = s.pins ∧ t.requests = s.requests ∧ t.code = s.code ∧ t.plat = s.plat ∧ t.inputs = s.inputs ∧
    t.draws = s.draws
end

