-- ==== Sys2Proof/Laws/State.lean ====
section
/-! SUPPORT. One lemma per field for each update of the state that is a plain record update. -/

namespace Sys2Proof.Laws

open Sys2Proof.Machine

@[simp] theorem advance_a (n : Nat) (s : State) : (advance n s).a = s.a := rfl
@[simp] theorem advance_b (n : Nat) (s : State) : (advance n s).b = s.b := rfl
@[simp] theorem advance_psw (n : Nat) (s : State) : (advance n s).psw = s.psw := rfl
@[simp] theorem advance_sp (n : Nat) (s : State) : (advance n s).sp = s.sp := rfl
@[simp] theorem advance_dph (n : Nat) (s : State) : (advance n s).dph = s.dph := rfl
@[simp] theorem advance_dpl (n : Nat) (s : State) : (advance n s).dpl = s.dpl := rfl
@[simp] theorem advance_pc (n : Nat) (s : State) : (advance n s).pc = nextPc n s := rfl
@[simp] theorem advance_iram (n : Nat) (s : State) : (advance n s).iram = s.iram := rfl
@[simp] theorem advance_latch (n : Nat) (s : State) : (advance n s).latch = s.latch := rfl
@[simp] theorem advance_inService (n : Nat) (s : State) : (advance n s).inService = s.inService := rfl
@[simp] theorem advance_retiShadow (n : Nat) (s : State) : (advance n s).retiShadow = s.retiShadow := rfl
@[simp] theorem advance_xdata (n : Nat) (s : State) : (advance n s).xdata = s.xdata := rfl
@[simp] theorem advance_device (n : Nat) (s : State) : (advance n s).device = s.device := rfl
@[simp] theorem advance_code (n : Nat) (s : State) : (advance n s).code = s.code := rfl
@[simp] theorem advance_pins (n : Nat) (s : State) : (advance n s).pins = s.pins := rfl
@[simp] theorem advance_requests (n : Nat) (s : State) : (advance n s).requests = s.requests := rfl
@[simp] theorem advance_inputs (n : Nat) (s : State) : (advance n s).inputs = s.inputs := rfl
@[simp] theorem advance_plat (n : Nat) (s : State) : (advance n s).plat = s.plat := rfl
@[simp] theorem advance_draws (n : Nat) (s : State) : (advance n s).draws = s.draws := rfl
@[simp] theorem advance_busLog (n : Nat) (s : State) : (advance n s).busLog = s.busLog := rfl

@[simp] theorem branchIf_a (c : Bool) (r : Byte) (n : Nat) (s : State) : (branchIf c r n s).a = s.a := rfl
@[simp] theorem branchIf_b (c : Bool) (r : Byte) (n : Nat) (s : State) : (branchIf c r n s).b = s.b := rfl
@[simp] theorem branchIf_psw (c : Bool) (r : Byte) (n : Nat) (s : State) : (branchIf c r n s).psw = s.psw := rfl
@[simp] theorem branchIf_sp (c : Bool) (r : Byte) (n : Nat) (s : State) : (branchIf c r n s).sp = s.sp := rfl
@[simp] theorem branchIf_dph (c : Bool) (r : Byte) (n : Nat) (s : State) : (branchIf c r n s).dph = s.dph := rfl
@[simp] theorem branchIf_dpl (c : Bool) (r : Byte) (n : Nat) (s : State) : (branchIf c r n s).dpl = s.dpl := rfl
@[simp] theorem branchIf_pc (c : Bool) (r : Byte) (n : Nat) (s : State) : (branchIf c r n s).pc = if c then relTarget r n s else nextPc n s := rfl
@[simp] theorem branchIf_iram (c : Bool) (r : Byte) (n : Nat) (s : State) : (branchIf c r n s).iram = s.iram := rfl
@[simp] theorem branchIf_latch (c : Bool) (r : Byte) (n : Nat) (s : State) : (branchIf c r n s).latch = s.latch := rfl
@[simp] theorem branchIf_inService (c : Bool) (r : Byte) (n : Nat) (s : State) : (branchIf c r n s).inService = s.inService := rfl
@[simp] theorem branchIf_retiShadow (c : Bool) (r : Byte) (n : Nat) (s : State) : (branchIf c r n s).retiShadow = s.retiShadow := rfl
@[simp] theorem branchIf_xdata (c : Bool) (r : Byte) (n : Nat) (s : State) : (branchIf c r n s).xdata = s.xdata := rfl
@[simp] theorem branchIf_device (c : Bool) (r : Byte) (n : Nat) (s : State) : (branchIf c r n s).device = s.device := rfl
@[simp] theorem branchIf_code (c : Bool) (r : Byte) (n : Nat) (s : State) : (branchIf c r n s).code = s.code := rfl
@[simp] theorem branchIf_pins (c : Bool) (r : Byte) (n : Nat) (s : State) : (branchIf c r n s).pins = s.pins := rfl
@[simp] theorem branchIf_requests (c : Bool) (r : Byte) (n : Nat) (s : State) : (branchIf c r n s).requests = s.requests := rfl
@[simp] theorem branchIf_inputs (c : Bool) (r : Byte) (n : Nat) (s : State) : (branchIf c r n s).inputs = s.inputs := rfl
@[simp] theorem branchIf_plat (c : Bool) (r : Byte) (n : Nat) (s : State) : (branchIf c r n s).plat = s.plat := rfl
@[simp] theorem branchIf_draws (c : Bool) (r : Byte) (n : Nat) (s : State) : (branchIf c r n s).draws = s.draws := rfl
@[simp] theorem branchIf_busLog (c : Bool) (r : Byte) (n : Nat) (s : State) : (branchIf c r n s).busLog = s.busLog := rfl

@[simp] theorem setCy_a (c : Bool) (s : State) : (setCy c s).a = s.a := rfl
@[simp] theorem setCy_b (c : Bool) (s : State) : (setCy c s).b = s.b := rfl
@[simp] theorem setCy_psw (c : Bool) (s : State) : (setCy c s).psw = withBit s.psw 7 c := rfl
@[simp] theorem setCy_sp (c : Bool) (s : State) : (setCy c s).sp = s.sp := rfl
@[simp] theorem setCy_dph (c : Bool) (s : State) : (setCy c s).dph = s.dph := rfl
@[simp] theorem setCy_dpl (c : Bool) (s : State) : (setCy c s).dpl = s.dpl := rfl
@[simp] theorem setCy_pc (c : Bool) (s : State) : (setCy c s).pc = s.pc := rfl
@[simp] theorem setCy_iram (c : Bool) (s : State) : (setCy c s).iram = s.iram := rfl
@[simp] theorem setCy_latch (c : Bool) (s : State) : (setCy c s).latch = s.latch := rfl
@[simp] theorem setCy_inService (c : Bool) (s : State) : (setCy c s).inService = s.inService := rfl
@[simp] theorem setCy_retiShadow (c : Bool) (s : State) : (setCy c s).retiShadow = s.retiShadow := rfl
@[simp] theorem setCy_xdata (c : Bool) (s : State) : (setCy c s).xdata = s.xdata := rfl
@[simp] theorem setCy_device (c : Bool) (s : State) : (setCy c s).device = s.device := rfl
@[simp] theorem setCy_code (c : Bool) (s : State) : (setCy c s).code = s.code := rfl
@[simp] theorem setCy_pins (c : Bool) (s : State) : (setCy c s).pins = s.pins := rfl
@[simp] theorem setCy_requests (c : Bool) (s : State) : (setCy c s).requests = s.requests := rfl
@[simp] theorem setCy_inputs (c : Bool) (s : State) : (setCy c s).inputs = s.inputs := rfl
@[simp] theorem setCy_plat (c : Bool) (s : State) : (setCy c s).plat = s.plat := rfl
@[simp] theorem setCy_draws (c : Bool) (s : State) : (setCy c s).draws = s.draws := rfl
@[simp] theorem setCy_busLog (c : Bool) (s : State) : (setCy c s).busLog = s.busLog := rfl

@[simp] theorem setOv_a (o : Bool) (s : State) : (setOv o s).a = s.a := rfl
@[simp] theorem setOv_b (o : Bool) (s : State) : (setOv o s).b = s.b := rfl
@[simp] theorem setOv_psw (o : Bool) (s : State) : (setOv o s).psw = withBit s.psw 2 o := rfl
@[simp] theorem setOv_sp (o : Bool) (s : State) : (setOv o s).sp = s.sp := rfl
@[simp] theorem setOv_dph (o : Bool) (s : State) : (setOv o s).dph = s.dph := rfl
@[simp] theorem setOv_dpl (o : Bool) (s : State) : (setOv o s).dpl = s.dpl := rfl
@[simp] theorem setOv_pc (o : Bool) (s : State) : (setOv o s).pc = s.pc := rfl
@[simp] theorem setOv_iram (o : Bool) (s : State) : (setOv o s).iram = s.iram := rfl
@[simp] theorem setOv_latch (o : Bool) (s : State) : (setOv o s).latch = s.latch := rfl
@[simp] theorem setOv_inService (o : Bool) (s : State) : (setOv o s).inService = s.inService := rfl
@[simp] theorem setOv_retiShadow (o : Bool) (s : State) : (setOv o s).retiShadow = s.retiShadow := rfl
@[simp] theorem setOv_xdata (o : Bool) (s : State) : (setOv o s).xdata = s.xdata := rfl
@[simp] theorem setOv_device (o : Bool) (s : State) : (setOv o s).device = s.device := rfl
@[simp] theorem setOv_code (o : Bool) (s : State) : (setOv o s).code = s.code := rfl
@[simp] theorem setOv_pins (o : Bool) (s : State) : (setOv o s).pins = s.pins := rfl
@[simp] theorem setOv_requests (o : Bool) (s : State) : (setOv o s).requests = s.requests := rfl
@[simp] theorem setOv_inputs (o : Bool) (s : State) : (setOv o s).inputs = s.inputs := rfl
@[simp] theorem setOv_plat (o : Bool) (s : State) : (setOv o s).plat = s.plat := rfl
@[simp] theorem setOv_draws (o : Bool) (s : State) : (setOv o s).draws = s.draws := rfl
@[simp] theorem setOv_busLog (o : Bool) (s : State) : (setOv o s).busLog = s.busLog := rfl

@[simp] theorem setFlags_a (c h o : Bool) (s : State) : (setFlags c h o s).a = s.a := rfl
@[simp] theorem setFlags_b (c h o : Bool) (s : State) : (setFlags c h o s).b = s.b := rfl
@[simp] theorem setFlags_psw (c h o : Bool) (s : State) : (setFlags c h o s).psw = withBit (withBit (withBit s.psw 7 c) 6 h) 2 o := rfl
@[simp] theorem setFlags_sp (c h o : Bool) (s : State) : (setFlags c h o s).sp = s.sp := rfl
@[simp] theorem setFlags_dph (c h o : Bool) (s : State) : (setFlags c h o s).dph = s.dph := rfl
@[simp] theorem setFlags_dpl (c h o : Bool) (s : State) : (setFlags c h o s).dpl = s.dpl := rfl
@[simp] theorem setFlags_pc (c h o : Bool) (s : State) : (setFlags c h o s).pc = s.pc := rfl
@[simp] theorem setFlags_iram (c h o : Bool) (s : State) : (setFlags c h o s).iram = s.iram := rfl
@[simp] theorem setFlags_latch (c h o : Bool) (s : State) : (setFlags c h o s).latch = s.latch := rfl
@[simp] theorem setFlags_inService (c h o : Bool) (s : State) : (setFlags c h o s).inService = s.inService := rfl
@[simp] theorem setFlags_retiShadow (c h o : Bool) (s : State) : (setFlags c h o s).retiShadow = s.retiShadow := rfl
@[simp] theorem setFlags_xdata (c h o : Bool) (s : State) : (setFlags c h o s).xdata = s.xdata := rfl
@[simp] theorem setFlags_device (c h o : Bool) (s : State) : (setFlags c h o s).device = s.device := rfl
@[simp] theorem setFlags_code (c h o : Bool) (s : State) : (setFlags c h o s).code = s.code := rfl
@[simp] theorem setFlags_pins (c h o : Bool) (s : State) : (setFlags c h o s).pins = s.pins := rfl
@[simp] theorem setFlags_requests (c h o : Bool) (s : State) : (setFlags c h o s).requests = s.requests := rfl
@[simp] theorem setFlags_inputs (c h o : Bool) (s : State) : (setFlags c h o s).inputs = s.inputs := rfl
@[simp] theorem setFlags_plat (c h o : Bool) (s : State) : (setFlags c h o s).plat = s.plat := rfl
@[simp] theorem setFlags_draws (c h o : Bool) (s : State) : (setFlags c h o s).draws = s.draws := rfl
@[simp] theorem setFlags_busLog (c h o : Bool) (s : State) : (setFlags c h o s).busLog = s.busLog := rfl

@[simp] theorem applyAlu_a (r : AluResult) (s : State) : (applyAlu r s).a = r.value := rfl
@[simp] theorem applyAlu_b (r : AluResult) (s : State) : (applyAlu r s).b = s.b := rfl
@[simp] theorem applyAlu_psw (r : AluResult) (s : State) : (applyAlu r s).psw = withBit (withBit (withBit s.psw 7 r.cy) 6 r.ac) 2 r.ov := rfl
@[simp] theorem applyAlu_sp (r : AluResult) (s : State) : (applyAlu r s).sp = s.sp := rfl
@[simp] theorem applyAlu_dph (r : AluResult) (s : State) : (applyAlu r s).dph = s.dph := rfl
@[simp] theorem applyAlu_dpl (r : AluResult) (s : State) : (applyAlu r s).dpl = s.dpl := rfl
@[simp] theorem applyAlu_pc (r : AluResult) (s : State) : (applyAlu r s).pc = s.pc := rfl
@[simp] theorem applyAlu_iram (r : AluResult) (s : State) : (applyAlu r s).iram = s.iram := rfl
@[simp] theorem applyAlu_latch (r : AluResult) (s : State) : (applyAlu r s).latch = s.latch := rfl
@[simp] theorem applyAlu_inService (r : AluResult) (s : State) : (applyAlu r s).inService = s.inService := rfl
@[simp] theorem applyAlu_retiShadow (r : AluResult) (s : State) : (applyAlu r s).retiShadow = s.retiShadow := rfl
@[simp] theorem applyAlu_xdata (r : AluResult) (s : State) : (applyAlu r s).xdata = s.xdata := rfl
@[simp] theorem applyAlu_device (r : AluResult) (s : State) : (applyAlu r s).device = s.device := rfl
@[simp] theorem applyAlu_code (r : AluResult) (s : State) : (applyAlu r s).code = s.code := rfl
@[simp] theorem applyAlu_pins (r : AluResult) (s : State) : (applyAlu r s).pins = s.pins := rfl
@[simp] theorem applyAlu_requests (r : AluResult) (s : State) : (applyAlu r s).requests = s.requests := rfl
@[simp] theorem applyAlu_inputs (r : AluResult) (s : State) : (applyAlu r s).inputs = s.inputs := rfl
@[simp] theorem applyAlu_plat (r : AluResult) (s : State) : (applyAlu r s).plat = s.plat := rfl
@[simp] theorem applyAlu_draws (r : AluResult) (s : State) : (applyAlu r s).draws = s.draws := rfl
@[simp] theorem applyAlu_busLog (r : AluResult) (s : State) : (applyAlu r s).busLog = s.busLog := rfl

@[simp] theorem setDptr_a (w : Word) (s : State) : (setDptr w s).a = s.a := rfl
@[simp] theorem setDptr_b (w : Word) (s : State) : (setDptr w s).b = s.b := rfl
@[simp] theorem setDptr_psw (w : Word) (s : State) : (setDptr w s).psw = s.psw := rfl
@[simp] theorem setDptr_sp (w : Word) (s : State) : (setDptr w s).sp = s.sp := rfl
@[simp] theorem setDptr_dph (w : Word) (s : State) : (setDptr w s).dph = w.extractLsb' 8 8 := rfl
@[simp] theorem setDptr_dpl (w : Word) (s : State) : (setDptr w s).dpl = w.extractLsb' 0 8 := rfl
@[simp] theorem setDptr_pc (w : Word) (s : State) : (setDptr w s).pc = s.pc := rfl
@[simp] theorem setDptr_iram (w : Word) (s : State) : (setDptr w s).iram = s.iram := rfl
@[simp] theorem setDptr_latch (w : Word) (s : State) : (setDptr w s).latch = s.latch := rfl
@[simp] theorem setDptr_inService (w : Word) (s : State) : (setDptr w s).inService = s.inService := rfl
@[simp] theorem setDptr_retiShadow (w : Word) (s : State) : (setDptr w s).retiShadow = s.retiShadow := rfl
@[simp] theorem setDptr_xdata (w : Word) (s : State) : (setDptr w s).xdata = s.xdata := rfl
@[simp] theorem setDptr_device (w : Word) (s : State) : (setDptr w s).device = s.device := rfl
@[simp] theorem setDptr_code (w : Word) (s : State) : (setDptr w s).code = s.code := rfl
@[simp] theorem setDptr_pins (w : Word) (s : State) : (setDptr w s).pins = s.pins := rfl
@[simp] theorem setDptr_requests (w : Word) (s : State) : (setDptr w s).requests = s.requests := rfl
@[simp] theorem setDptr_inputs (w : Word) (s : State) : (setDptr w s).inputs = s.inputs := rfl
@[simp] theorem setDptr_plat (w : Word) (s : State) : (setDptr w s).plat = s.plat := rfl
@[simp] theorem setDptr_draws (w : Word) (s : State) : (setDptr w s).draws = s.draws := rfl
@[simp] theorem setDptr_busLog (w : Word) (s : State) : (setDptr w s).busLog = s.busLog := rfl

@[simp] theorem beginInstr_a (s : State) : (beginInstr s).a = s.a := rfl
@[simp] theorem beginInstr_b (s : State) : (beginInstr s).b = s.b := rfl
@[simp] theorem beginInstr_psw (s : State) : (beginInstr s).psw = s.psw := rfl
@[simp] theorem beginInstr_sp (s : State) : (beginInstr s).sp = s.sp := rfl
@[simp] theorem beginInstr_dph (s : State) : (beginInstr s).dph = s.dph := rfl
@[simp] theorem beginInstr_dpl (s : State) : (beginInstr s).dpl = s.dpl := rfl
@[simp] theorem beginInstr_pc (s : State) : (beginInstr s).pc = s.pc := rfl
@[simp] theorem beginInstr_iram (s : State) : (beginInstr s).iram = s.iram := rfl
@[simp] theorem beginInstr_latch (s : State) : (beginInstr s).latch = s.latch := rfl
@[simp] theorem beginInstr_inService (s : State) : (beginInstr s).inService = s.inService := rfl
@[simp] theorem beginInstr_retiShadow (s : State) : (beginInstr s).retiShadow = false := rfl
@[simp] theorem beginInstr_xdata (s : State) : (beginInstr s).xdata = s.xdata := rfl
@[simp] theorem beginInstr_device (s : State) : (beginInstr s).device = s.device := rfl
@[simp] theorem beginInstr_code (s : State) : (beginInstr s).code = s.code := rfl
@[simp] theorem beginInstr_pins (s : State) : (beginInstr s).pins = s.pins := rfl
@[simp] theorem beginInstr_requests (s : State) : (beginInstr s).requests = s.requests := rfl
@[simp] theorem beginInstr_inputs (s : State) : (beginInstr s).inputs = s.inputs := rfl
@[simp] theorem beginInstr_plat (s : State) : (beginInstr s).plat = s.plat := rfl
@[simp] theorem beginInstr_draws (s : State) : (beginInstr s).draws = s.draws + 1 := rfl
@[simp] theorem beginInstr_busLog (s : State) : (beginInstr s).busLog = s.busLog := rfl

end Sys2Proof.Laws
end

