-- ==== Sys2Proof/Laws/Flags.lean ====
section
/-! SUPPORT. The bits of a byte with one bit set, and the flags after each update of the PSW. -/

namespace Sys2Proof.Laws

open Sys2Proof.Machine

theorem getLsbD_withBit (v : Byte) (k j : Nat) (x : Bool) (hj : j < 8) :
    (withBit v k x).getLsbD j = if j = k then x else v.getLsbD j := by
  by_cases h : j = k
  · subst h
    cases x <;> simp [withBit, hj]
  · by_cases h2 : j < k
    · cases x <;> simp [withBit, hj, h, h2]
    · have h3 : ¬ j - k = 0 := by omega
      cases x <;> simp [withBit, hj, h, h2, h3]

@[simp] theorem getElem_withBit (v : Byte) (k j : Nat) (x : Bool) (hj : j < 8) :
    (withBit v k x)[j] = if j = k then x else v[j] := by
  simpa [BitVec.getLsbD_eq_getElem hj] using getLsbD_withBit v k j x hj

@[simp] theorem cy_setCy (c : Bool) (s : State) : (setCy c s).cy = c := by
  simp [State.cy]

@[simp] theorem ac_setCy (c : Bool) (s : State) : (setCy c s).ac = s.ac := by
  simp [State.ac]

@[simp] theorem ov_setCy (c : Bool) (s : State) : (setCy c s).ov = s.ov := by
  simp [State.ov]

@[simp] theorem cy_setOv (o : Bool) (s : State) : (setOv o s).cy = s.cy := by
  simp [State.cy]

@[simp] theorem ac_setOv (o : Bool) (s : State) : (setOv o s).ac = s.ac := by
  simp [State.ac]

@[simp] theorem ov_setOv (o : Bool) (s : State) : (setOv o s).ov = o := by
  simp [State.ov]

@[simp] theorem cy_setFlags (c h o : Bool) (s : State) : (setFlags c h o s).cy = c := by
  simp [State.cy]

@[simp] theorem ac_setFlags (c h o : Bool) (s : State) : (setFlags c h o s).ac = h := by
  simp [State.ac]

@[simp] theorem ov_setFlags (c h o : Bool) (s : State) : (setFlags c h o s).ov = o := by
  simp [State.ov]

@[simp] theorem cy_advance (n : Nat) (s : State) : (advance n s).cy = s.cy := rfl

@[simp] theorem ac_advance (n : Nat) (s : State) : (advance n s).ac = s.ac := rfl

@[simp] theorem ov_advance (n : Nat) (s : State) : (advance n s).ov = s.ov := rfl

@[simp] theorem cy_applyAlu (r : AluResult) (s : State) : (applyAlu r s).cy = r.cy := by
  simp [State.cy]

@[simp] theorem ac_applyAlu (r : AluResult) (s : State) : (applyAlu r s).ac = r.ac := by
  simp [State.ac]

@[simp] theorem ov_applyAlu (r : AluResult) (s : State) : (applyAlu r s).ov = r.ov := by
  simp [State.ov]

/-- What the PSW reads as, bit by bit (10_state.md rule R35). -/
theorem getLsbD_pswRead (s : State) (j : Nat) (hj : j < 8) :
    s.pswRead.getLsbD j = if j = 0 then parity s.a else s.psw.getLsbD j :=
  getLsbD_withBit s.psw 0 j (parity s.a) hj

end Sys2Proof.Laws
end

