-- ==== Sys2Proof/Laws/Memory.lean ====
section
/-! SUPPORT. The laws of a memory: a read after a write, and the canonical form is kept. -/

namespace Sys2Proof.Laws

open Sys2Proof.Machine

theorem read_write_same (m : Memory) (a : Nat) (v : Byte) : (m.write a v).read a = some v := by
  induction m with
  | nil => simp [Memory.write, Memory.read]
  | cons c m ih =>
    obtain ⟨b, w⟩ := c
    unfold Memory.write
    split
    · simp [Memory.read]
    · split
      · simp [Memory.read]
      · rename_i h
        simp [Memory.read, h, ih]

theorem read_write_other (m : Memory) (a c : Nat) (v : Byte) (h : c ≠ a) :
    (m.write a v).read c = m.read c := by
  induction m with
  | nil => simp [Memory.write, Memory.read, h]
  | cons d m ih =>
    obtain ⟨b, w⟩ := d
    unfold Memory.write
    split
    · simp [Memory.read, h]
    · split
      · rename_i hab
        subst hab
        simp [Memory.read, h]
      · simp [Memory.read, ih]

theorem read_write (m : Memory) (a c : Nat) (v : Byte) :
    (m.write a v).read c = if c = a then some v else m.read c := by
  split
  · rename_i h
    rw [h, read_write_same]
  · rename_i h
    exact read_write_other m a c v h

/-- The canonical form, as: every address is below all the later ones. -/
theorem wf_iff_pairwise (m : Memory) : m.wf = true ↔ m.Pairwise fun c d => c.1 < d.1 := by
  induction m with
  | nil => simp [Memory.wf]
  | cons c m ih =>
    cases m with
    | nil => simp [Memory.wf]
    | cons d m =>
      simp only [Memory.wf, Bool.and_eq_true, decide_eq_true_eq, ih]
      constructor
      · rintro ⟨hcd, hm⟩
        refine List.pairwise_cons.2 ⟨?_, hm⟩
        intro e he
        rcases List.mem_cons.1 he with rfl | he
        · exact hcd
        · exact lt_trans hcd (List.rel_of_pairwise_cons hm he)
      · intro h
        exact ⟨List.rel_of_pairwise_cons h (by simp), (List.pairwise_cons.1 h).2⟩

theorem mem_write (m : Memory) (a : Nat) (v : Byte) (c : Host.Cell) (h : c ∈ m.write a v) :
    c = (a, v) ∨ c ∈ m := by
  induction m with
  | nil => simpa [Memory.write] using h
  | cons d m ih =>
    obtain ⟨b, w⟩ := d
    unfold Memory.write at h
    split at h
    · simpa using h
    · split at h
      · rcases List.mem_cons.1 h with h | h
        · exact Or.inl h
        · exact Or.inr (List.mem_cons_of_mem _ h)
      · rcases List.mem_cons.1 h with h | h
        · exact Or.inr (h ▸ List.mem_cons_self)
        · rcases ih h with h | h
          · exact Or.inl h
          · exact Or.inr (List.mem_cons_of_mem _ h)

/-- A write keeps the canonical form. -/
theorem wf_write (m : Memory) (a : Nat) (v : Byte) (h : m.wf = true) : (m.write a v).wf = true := by
  rw [wf_iff_pairwise] at h ⊢
  induction m with
  | nil => simp [Memory.write]
  | cons d m ih =>
    obtain ⟨b, w⟩ := d
    obtain ⟨hd, hm⟩ := List.pairwise_cons.1 h
    unfold Memory.write
    split
    · rename_i hab
      refine List.pairwise_cons.2 ⟨?_, h⟩
      intro e he
      rcases List.mem_cons.1 he with rfl | he
      · exact hab
      · exact lt_trans hab (hd e he)
    · split
      · rename_i hab
        subst hab
        exact List.pairwise_cons.2 ⟨hd, hm⟩
      · rename_i h1 h2
        refine List.pairwise_cons.2 ⟨?_, ih hm⟩
        intro e he
        rcases mem_write m a v e he with rfl | he
        · change b < a
          omega
        · exact hd e he

/-- A write below the bound keeps every address below it. -/
theorem below_write (m : Memory) (a bound : Nat) (v : Byte) (h : m.below bound = true) (ha : a < bound) :
    (m.write a v).below bound = true := by
  simp only [Memory.below, List.all_eq_true, decide_eq_true_eq] at h ⊢
  intro c hc
  rcases mem_write m a v c hc with rfl | hc
  · exact ha
  · exact h c hc

end Sys2Proof.Laws
end

