-- ==== Sys2Proof/Laws/Ops.lean ====
section
/-! SUPPORT. For each shared operation, one lemma that says once everything it can do. -/

namespace Sys2Proof.Laws

open Sys2Proof.Machine

/-! ### Sequencing -/

@[simp] theorem andThen_next {α β : Type} (a : α) (f : α → Res β) : andThen (.next a) f = f a := rfl

@[simp] theorem andThen_fault {α β : Type} (r : Fault) (f : α → Res β) : andThen (.fault r) f = .fault r := rfl

@[simp] theorem andThen_refused {α β : Type} (r : Refusal) (f : α → Res β) : andThen (.refused r) f = .refused r := rfl

theorem andThen_eq_next {α β : Type} {x : Res α} {f : α → Res β} {b : β} (h : andThen x f = .next b) :
    ∃ a, x = .next a ∧ f a = .next b := by
  cases x with
  | next a => exact ⟨a, rfl, h⟩
  | fault r => cases h
  | refused r => cases h

/-! ### Two bytes as a word -/

theorem toNat_append_bytes (h l : Byte) : (h ++ l : Word).toNat = h.toNat * 256 + l.toNat := by
  have : (h ++ l : Word).toNat = h.toNat <<< 8 ||| l.toNat := BitVec.toNat_append h l
  rw [this, Nat.shiftLeft_eq, Nat.mul_comm, ← Nat.two_pow_add_eq_or_of_lt l.isLt]

theorem extract_high_append (h l : Byte) : (h ++ l : Word).extractLsb' 8 8 = h := by
  apply BitVec.eq_of_toNat_eq
  have h1 := h.isLt
  have h2 := l.isLt
  simp only [BitVec.extractLsb'_toNat, toNat_append_bytes, Nat.shiftRight_eq_div_pow]
  omega

theorem extract_low_append (h l : Byte) : (h ++ l : Word).extractLsb' 0 8 = l := by
  apply BitVec.eq_of_toNat_eq
  have h1 := h.isLt
  have h2 := l.isLt
  simp only [BitVec.extractLsb'_toNat, toNat_append_bytes, Nat.shiftRight_eq_div_pow]
  omega

theorem append_extract_bytes (w : Word) : (w.extractLsb' 8 8 : Byte) ++ (w.extractLsb' 0 8 : Byte) = w := by
  apply BitVec.eq_of_toNat_eq
  have h1 := w.isLt
  rw [toNat_append_bytes]
  simp only [BitVec.extractLsb'_toNat, Nat.shiftRight_eq_div_pow]
  omega

theorem toNat_dptr (s : State) : s.dptr.toNat = s.dph.toNat * 256 + s.dpl.toNat := toNat_append_bytes _ _

/-! ### Internal RAM -/

theorem iramRead_eq_next {a v : Byte} {s : State} :
    iramRead a s = .next v ↔ a.toNat < s.plat.iramSize.count ∧ s.iram.read a.toNat = some v := by
  unfold iramRead
  split
  · split <;> simp_all
  · simp_all

/-- A read depends on internal RAM and its size alone. -/
theorem iramRead_congr {s t : State} (a : Byte) (h : t.iram = s.iram) (hp : t.plat = s.plat) :
    iramRead a t = iramRead a s := by
  simp only [iramRead, h, hp]

theorem iramRead_after_write (a v c : Byte) (s : State) (h : a.toNat < s.plat.iramSize.count) :
    iramRead c { s with iram := s.iram.write a.toNat v } = if c = a then .next v else iramRead c s := by
  split
  · rename_i hc
    subst hc
    simp [iramRead, h, read_write_same]
  · rename_i hc
    have hn : c.toNat ≠ a.toNat := fun e => hc (BitVec.eq_of_toNat_eq e)
    simp [iramRead, read_write_other _ _ _ _ hn]

theorem iramWrite_eq_next {a v : Byte} {s t : State} (h : iramWrite a v s = .next t) :
    a.toNat < s.plat.iramSize.count ∧ t = { s with iram := s.iram.write a.toNat v } := by
  unfold iramWrite at h
  split at h
  · cases h
    exact ⟨by assumption, rfl⟩
  · cases h

theorem iramWrite_of_lt {a : Byte} {s : State} (v : Byte) (h : a.toNat < s.plat.iramSize.count) :
    iramWrite a v s = .next { s with iram := s.iram.write a.toNat v } := by
  simp [iramWrite, h]

theorem iramWrite_of_read {a x : Byte} {s : State} (v : Byte) (h : iramRead a s = .next x) :
    iramWrite a v s = .next { s with iram := s.iram.write a.toNat v } :=
  iramWrite_of_lt v (iramRead_eq_next.1 h).1

theorem count_ge (z : IramSize) : 128 ≤ z.count := by cases z <;> simp [IramSize.count]

theorem count_le (z : IramSize) : z.count ≤ 256 := by cases z <;> simp [IramSize.count]

theorem bank_lt (s : State) : s.bank < 4 := (s.psw.extractLsb' 3 2).isLt

/-- A working register's cell exists, whatever the size of internal RAM. -/
theorem regCell_lt (n : Nat) (s : State) (hn : n < 8) : (regCell n s).toNat < s.plat.iramSize.count := by
  have h := bank_lt s
  have h2 := count_ge s.plat.iramSize
  simp only [regCell, BitVec.toNat_ofNat]
  omega

theorem toNat_regCell (n : Nat) (s : State) (hn : n < 8) :
    (regCell n s).toNat = 8 * (s.psw.toNat / 8 % 4) + n := by
  have h := bank_lt s
  have hb : s.bank = s.psw.toNat / 8 % 4 := by
    simp [State.bank, BitVec.extractLsb'_toNat, Nat.shiftRight_eq_div_pow]
  rw [← hb]
  simp only [regCell, BitVec.toNat_ofNat]
  omega

/-- What a write of one cell and the move to the next instruction change together. -/
theorem cellWritten_advance (a v : Byte) (len : Nat) (s : State) (h : a.toNat < s.plat.iramSize.count) :
    CellWritten a v len s (advance len { s with iram := s.iram.write a.toNat v }) := by
  have key : ∀ c, iramRead c (advance len { s with iram := s.iram.write a.toNat v }) =
      if c = a then .next v else iramRead c s :=
    fun c => (iramRead_congr c rfl rfl).trans (iramRead_after_write a v c s h)
  refine ⟨rfl, ?_, ?_⟩
  · rw [key, if_pos rfl]
  · intro c hc
    rw [key, if_neg hc]

/-! ### The stack -/

theorem push_eq_next {v : Byte} {s t : State} (h : push v s = .next t) :
    (s.sp + 1).toNat < s.plat.iramSize.count ∧
      t = { s with sp := s.sp + 1, iram := s.iram.write (s.sp + 1).toNat v } := by
  obtain ⟨h1, h2⟩ := iramWrite_eq_next h
  exact ⟨h1, h2⟩

theorem push_of_lt {s : State} (v : Byte) (h : (s.sp + 1).toNat < s.plat.iramSize.count) :
    push v s = .next { s with sp := s.sp + 1, iram := s.iram.write (s.sp + 1).toNat v } :=
  iramWrite_of_lt (s := { s with sp := s.sp + 1 }) v h

theorem pop_eq_next {s : State} {r : Byte × State} (h : pop s = .next r) :
    iramRead s.sp s = .next r.1 ∧ r.2 = { s with sp := s.sp - 1 } := by
  obtain ⟨v, hv, h⟩ := andThen_eq_next h
  cases h
  exact ⟨hv, rfl⟩

theorem pop_of_read {s : State} {v : Byte} (h : iramRead s.sp s = .next v) :
    pop s = .next (v, { s with sp := s.sp - 1 }) := by
  simp [pop, h]

theorem pushWord_eq_next {w : Word} {s t : State} (h : pushWord w s = .next t) :
    (s.sp + 1).toNat < s.plat.iramSize.count ∧ (s.sp + 1 + 1).toNat < s.plat.iramSize.count ∧
      t = { s with
        sp := s.sp + 1 + 1
        iram := (s.iram.write (s.sp + 1).toNat (w.extractLsb' 0 8)).write (s.sp + 1 + 1).toNat (w.extractLsb' 8 8) } := by
  obtain ⟨u, hu, h⟩ := andThen_eq_next h
  obtain ⟨h1, rfl⟩ := push_eq_next hu
  obtain ⟨h2, rfl⟩ := push_eq_next h
  exact ⟨h1, h2, rfl⟩

theorem popWord_eq_next {s : State} {r : Word × State} (h : popWord s = .next r) :
    ∃ hi lo, iramRead s.sp s = .next hi ∧ iramRead (s.sp - 1) s = .next lo ∧
      r = (hi ++ lo, { s with sp := s.sp - 1 - 1 }) := by
  obtain ⟨p, hp, h⟩ := andThen_eq_next h
  obtain ⟨q, hq, h⟩ := andThen_eq_next h
  obtain ⟨p1, p2⟩ := p
  obtain ⟨q1, q2⟩ := q
  obtain ⟨h1, rfl⟩ := pop_eq_next hp
  obtain ⟨h2, rfl⟩ := pop_eq_next hq
  cases h
  exact ⟨p1, q1, h1, h2, rfl⟩

/-! ### Special function registers -/

theorem coreSfr_ge {d : Byte} {r : CoreSfr} (h : coreSfr d = some r) : ¬ d.toNat < 0x80 := by
  unfold coreSfr at h
  repeat' split at h
  all_goals first | (rename_i hd; subst hd; decide) | cases h

theorem find_setDeviceLatch (a v c : Byte) (l : List DeviceReg) :
    (setDeviceLatch a v l).find? (fun r => r.addr == c) =
      if c = a then (l.find? fun r => r.addr == c).map fun r => { r with latch := v }
      else l.find? fun r => r.addr == c := by
  induction l with
  | nil => simp [setDeviceLatch]
  | cons r rs ih =>
    unfold setDeviceLatch
    by_cases ha : r.addr = a
    · by_cases hc : c = a
      · subst hc
        simp [ha]
      · have : ¬ r.addr = c := fun e => hc (e ▸ ha)
        simp [ha, hc, show (a == c) = false by simp [Ne.symm hc]]
    · by_cases hrc : r.addr = c
      · have : ¬ c = a := fun e => ha (hrc.trans e)
        simp [hrc, this]
      · simp [ha, show (r.addr == c) = false by simp [hrc], ih]

theorem map_addr_kind_setDeviceLatch (a v : Byte) (l : List DeviceReg) :
    (setDeviceLatch a v l).map (fun r => (r.addr, r.kind)) = l.map fun r => (r.addr, r.kind) := by
  induction l with
  | nil => rfl
  | cons r rs ih =>
    unfold setDeviceLatch
    split <;> simp [ih]

theorem deviceWrite_eq_next {a v : Byte} {s t : State} (h : deviceWrite a v s = .next t) :
    ∃ r, findDevice a s = some r ∧
      (r.kind ≠ .oracle ∧ t = { s with device := setDeviceLatch a v s.device } ∨
        r.kind = .oracle ∧ t = { s with busLog := .sfr a v :: s.busLog }) := by
  unfold deviceWrite at h
  split at h
  · cases h
  · rename_i r hr
    refine ⟨r, hr, ?_⟩
    split at h <;> cases h <;> simp_all

/-- A direct write changes only its destination. -/
theorem directWrite_eq_next {d v : Byte} {s t : State} (h : directWrite d v s = .next t) : DirectChange d v s t := by
  unfold directWrite at h
  unfold DirectChange
  split
  · rename_i hd
    rw [if_pos hd] at h
    obtain ⟨hlt, rfl⟩ := iramWrite_eq_next h
    refine ⟨rfl, ?_, ?_⟩
    · rw [iramRead_after_write _ _ _ _ hlt, if_pos rfl]
    · intro c hc
      rw [iramRead_after_write _ _ _ _ hlt, if_neg hc]
  · rename_i hd
    rw [if_neg hd] at h
    unfold sfrWrite at h
    split
    · rename_i r hr
      rw [hr] at h
      cases h
      rfl
    · rename_i hr
      rw [hr] at h
      obtain ⟨r, hf, ⟨_, rfl⟩ | ⟨_, rfl⟩⟩ := deviceWrite_eq_next h <;> rfl

/-- A direct address that exists can be written. -/
theorem directWrite_of_exists {d : Byte} {s : State} (v : Byte) (h : DirectExists d s) :
    ∃ t, directWrite d v s = .next t := by
  unfold directWrite
  split
  · rename_i hd
    exact ⟨_, iramWrite_of_lt v (lt_of_lt_of_le hd (count_ge _))⟩
  · rename_i hd
    rcases h with h | h | h
    · exact absurd h hd
    · obtain ⟨r, hr⟩ := Option.isSome_iff_exists.1 h
      exact ⟨_, by simp [sfrWrite, hr]; rfl⟩
    · obtain ⟨r, hr⟩ := Option.isSome_iff_exists.1 h
      unfold sfrWrite
      split
      · exact ⟨_, rfl⟩
      · unfold deviceWrite
        rw [hr]
        dsimp only
        split <;> exact ⟨_, rfl⟩

/-- An address that can be read the latch way exists. -/
theorem exists_of_directReadRmw {d x : Byte} {s : State} (h : directReadRmw d s = .next x) : DirectExists d s := by
  unfold directReadRmw at h
  split at h
  · exact Or.inl ‹_›
  · unfold sfrReadLatch at h
    split at h
    · rename_i hr
      exact Or.inr (Or.inl (by simp [hr]))
    · unfold deviceReadLatch at h
      split at h
      · cases h
      · rename_i hr
        exact Or.inr (Or.inr (by simp [hr]))

/-- An address that can be read exists. -/
theorem exists_of_directRead {d x : Byte} {s : State} (h : directRead d s = .next x) : DirectExists d s := by
  unfold directRead at h
  split at h
  · exact Or.inl ‹_›
  · unfold sfrRead at h
    split at h
    · rename_i hr
      exact Or.inr (Or.inl (by simp [hr]))
    · unfold deviceRead at h
      split at h
      · cases h
      · rename_i hr
        exact Or.inr (Or.inr (by simp [hr]))

/-- A bit write reads its byte the latch way, and writes it back with the one bit changed. -/
theorem bitWrite_eq_next {b : Byte} {x : Bool} {s t : State} (h : bitWrite b x s = .next t) :
    ∃ v, directReadRmw (bitByte b) s = .next v ∧
      directWrite (bitByte b) (withBit v (bitNumber b) x) s = .next t := andThen_eq_next h

/-! ### External data memory -/

/-- The bits of a register after changes that do not name the bit j are those of before. -/
theorem setFlagBits_keeps (bits : List (FlagBit × Bool)) (a v : Byte) (j : Fin 8) (h : ∀ x ∈ bits, x.1 ≠ ⟨a, j⟩) :
    (bits.foldl (fun v c => if c.1.addr = a then withBit v c.1.bit.val c.2 else v) v).getLsbD j.val =
      v.getLsbD j.val := by
  induction bits generalizing v with
  | nil => rfl
  | cons x xs ih =>
    rw [List.foldl_cons, ih _ fun y hy => h y (List.mem_cons_of_mem _ hy)]
    split
    · rename_i ha
      rw [getLsbD_withBit _ _ _ _ j.isLt, if_neg]
      intro hj
      exact h x List.mem_cons_self (by rw [← ha, Fin.ext hj])
    · rfl

/-- All that a change of the platform's request flags does. -/
theorem applyFlags_eq (c : FlagChange) (s : State) :
    ∃ requests device, applyFlags c s = { s with requests := requests, device := device } ∧
      FlagsChanged c s.requests requests s.device device ∧ (s.requests.Nodup → requests.Nodup) := by
  refine ⟨_, _, rfl, ⟨?_, ?_, ?_⟩, ?_⟩
  · intro n
    simp [updateRequests]
    tauto
  · rw [List.map_map]
    rfl
  · intro k r q hr hq j
    rw [List.getElem?_map, hr] at hq
    cases hq
    refine ⟨setFlagBits_keeps _ _ _ _, ?_⟩
    rintro before v after hb ha
    simp only [setFlagBits, hb, List.foldl_append, List.foldl_cons, if_true]
    rw [setFlagBits_keeps _ _ _ _ ha, getLsbD_withBit _ _ _ _ j.isLt, if_pos rfl]
  · intro hn
    simp only [updateRequests]
    rw [List.nodup_append]
    refine ⟨hn.filter _, List.nodup_dedup _, ?_⟩
    intro a ha b hb hab
    subst hab
    simp at ha hb
    exact ha.2.2 hb

/-- The machine's test of a flag bit is the statements' one. -/
theorem flagBit_iff (f : FlagBit) (s : State) : flagBit f s = true ↔ BitHolds f s := by
  unfold flagBit BitHolds
  cases coreSfr f.addr with
  | some r => exact Iff.rfl
  | none => cases findDevice f.addr s <;> simp

/-- The machine's Irq.pending is the statements' one. -/
theorem isPending_iff (src : IrqSource) (s : State) : isPending src s = true ↔ Pending src s := by
  unfold isPending Pending
  cases src.pending with
  | board => exact Iff.rfl
  | rule byRequest bits =>
    simp only [Bool.and_eq_true, List.all_eq_true, flagBit_iff]
    cases byRequest <;> simp

/-! ### The end of a run -/

/-- What is pending depends neither on the count of draws nor on the inputs still to come. -/
theorem pendingSources_draws_inputs (s : State) (n : Nat) (es : List EnvInput) :
    pendingSources { s with draws := n, inputs := es } = pendingSources s := rfl

/-- Without a source, nothing is pending in any state. -/
theorem idleFor_of_no_source (n : Nat) (s : State) (h : s.plat.irqSources = []) : idleFor n s = true := by
  have none (t : State) (ht : t.plat.irqSources = []) : (pendingSources t).isEmpty = true := by
    simp [pendingSources, ht]
  induction n generalizing s with
  | zero => exact none s h
  | succ n ih =>
    have h2 : (sampleEnvironment s).plat = s.plat := by
      unfold sampleEnvironment
      split <;> rfl
    simp [idleFor, none s h, ih _ (h2 ▸ h)]

/-- Where no interrupt is taken, the loop SJMP to itself executes with no effect. -/
theorem runInstr_atSelfLoop (s : State) (h : atSelfLoop s = true) : runInstr (beginInstr s) = .next (beginInstr s) := by
  simp only [atSelfLoop, Bool.and_eq_true, beq_iff_eq] at h
  obtain ⟨⟨⟨h0, h1⟩, -⟩, -⟩ := h
  have first : fetchByte 0 (beginInstr s) = .next 0x80 := by
    simp only [fetchByte, codeRead, beginInstr, BitVec.ofNat_eq_ofNat, BitVec.add_zero, h0]
  have second : fetchByte 1 (beginInstr s) = .next 0xFE := by
    simp only [fetchByte, codeRead, beginInstr]
    exact h1 ▸ rfl
  have fetched : fetchInstr (beginInstr s) = .next (.sjmp 0xFE) := by
    rw [fetchInstr, first]
    change andThen (fetchByte 1 (beginInstr s)) _ = _
    rw [second]
    rfl
  have target : s.pc + 2 + (0xFE : Byte).signExtend 16 = s.pc := by
    rw [BitVec.add_assoc]
    exact BitVec.add_zero s.pc
  rw [runInstr, fetched]
  change Host.Outcome.next { beginInstr s with pc := s.pc + 2 + (0xFE : Byte).signExtend 16 } = _
  rw [target]
  rfl

/-- Nothing is pending until the last input has come exactly if nothing is pending ever after: the "for the rest of time"
of 92_eei_decisions.md D23. The loop itself changes nothing (runInstr_atSelfLoop) but the count of draws, on which nothing
pending depends (pendingSources_draws_inputs). -/
theorem idleFor_iff (s : State) :
    idleFor s.inputs.length s = true ↔ ∀ k, pendingSources (sampleEnvironment^[k] s) = [] := by
  obtain ⟨n, hn⟩ : ∃ n, s.inputs.length = n := ⟨_, rfl⟩
  rw [hn]
  induction n generalizing s with
  | zero =>
    have still : sampleEnvironment s = s := by
      unfold sampleEnvironment
      rw [List.length_eq_zero_iff.1 hn]
    simp [idleFor, Function.iterate_fixed still]
  | succ n ih =>
    have hl : (sampleEnvironment s).inputs.length = n := by
      unfold sampleEnvironment
      split <;> simp_all
    simp only [idleFor, Bool.and_eq_true, List.isEmpty_iff, ih _ hl, ← Function.iterate_succ_apply]
    exact ⟨fun h k => by cases k with
      | zero => exact h.1
      | succ k => exact h.2 k, fun h => ⟨h 0, fun k => h (k + 1)⟩⟩

/-- The page byte that XPAGE gives is the one that the machine forms. -/
theorem pageIs_iff (page : Byte) (s : State) : PageIs page s ↔ page = xPage s := by
  unfold PageIs xPage
  cases s.plat.xpage with
  | p2Latch => exact Iff.rfl
  | fixed p => exact Iff.rfl
  | board => exact Iff.rfl
  | wired lines =>
    have bit (k : Fin 8) : (BitVec.ofFnLE fun k : Fin 8 => pageLine lines[k] s).getLsbD k.val = pageLine lines[k] s := by
      rw [BitVec.getLsbD_ofFnLE, dif_pos k.isLt]
    constructor
    · intro h
      apply BitVec.eq_of_getLsbD_eq
      intro k hk
      exact (h ⟨k, hk⟩).trans (bit ⟨k, hk⟩).symm
    · rintro rfl k
      exact bit k

theorem xRead_after_xWrite (w c : Word) (v : Byte) (s : State) (h : s.plat.xdataKind = .plainRam) :
    xRead c (xWrite w v s) = if c = w then .next v else xRead c s := by
  split
  · rename_i hc
    subst hc
    simp [xRead, xWrite, h, read_write_same]
  · rename_i hc
    have hn : c.toNat ≠ w.toNat := fun e => hc (BitVec.eq_of_toNat_eq e)
    simp [xRead, xWrite, h, read_write_other _ _ _ _ hn]

theorem afterMovx_eq (s : State) : ∃ x, afterMovx s = { s with latch := { s.latch with p0 := x } } ∧
    (s.plat.p0Xbus = .unchanged → x = s.latch.p0) := by
  unfold afterMovx
  split
  · exact ⟨s.latch.p0, rfl, fun _ => rfl⟩
  · rename_i h
    exact ⟨_, rfl, fun h2 => by rw [h] at h2; cases h2⟩

/-! ### What every operation but RETI and the interrupt entry keeps -/

/-- From s to t the interrupt logic, the environment and the platform are unchanged; the memories stay canonical, and the
parity bit stays without storage, if they were so. -/
structure Keeps (s t : State) : Prop where
  code : t.code = s.code
  plat : t.plat = s.plat
  pins : t.pins = s.pins
  requests : t.requests = s.requests
  inputs : t.inputs = s.inputs
  draws : t.draws = s.draws
  inService : t.inService = s.inService
  retiShadow : t.retiShadow = s.retiShadow
  device : t.device.map (fun r => (r.addr, r.kind)) = s.device.map fun r => (r.addr, r.kind)
  memories : s.memoriesWf = true → t.memoriesWf = true
  parity : s.psw.getLsbD 0 = false → t.psw.getLsbD 0 = false

theorem Keeps.refl (s : State) : Keeps s s := by
  constructor <;> first | rfl | exact id

theorem Keeps.trans {s t u : State} (h : Keeps s t) (k : Keeps t u) : Keeps s u where
  code := k.code.trans h.code
  plat := k.plat.trans h.plat
  pins := k.pins.trans h.pins
  requests := k.requests.trans h.requests
  inputs := k.inputs.trans h.inputs
  draws := k.draws.trans h.draws
  inService := k.inService.trans h.inService
  retiShadow := k.retiShadow.trans h.retiShadow
  device := k.device.trans h.device
  memories := fun x => k.memories (h.memories x)
  parity := fun x => k.parity (h.parity x)

theorem Keeps.setPc (s : State) (w : Word) : Keeps s { s with pc := w } := by
  constructor <;> first | rfl | exact id

theorem Keeps.setA (s : State) (v : Byte) : Keeps s { s with a := v } := by
  constructor <;> first | rfl | exact id

theorem Keeps.setB (s : State) (v : Byte) : Keeps s { s with b := v } := by
  constructor <;> first | rfl | exact id

theorem Keeps.setSp (s : State) (v : Byte) : Keeps s { s with sp := v } := by
  constructor <;> first | rfl | exact id

theorem Keeps.setDptr (s : State) (h l : Byte) : Keeps s { s with dph := h, dpl := l } := by
  constructor <;> first | rfl | exact id

theorem Keeps.setLatch (s : State) (p : Ports) : Keeps s { s with latch := p } := by
  constructor <;> first | rfl | exact id

theorem Keeps.setBusLog (s : State) (l : List BusWrite) : Keeps s { s with busLog := l } := by
  constructor <;> first | rfl | exact id

theorem Keeps.setPsw (s : State) (v : Byte) (h : s.psw.getLsbD 0 = false → v.getLsbD 0 = false) :
    Keeps s { s with psw := v } := by
  constructor <;> first | rfl | exact id | exact h

theorem Keeps.setCy (s : State) (c : Bool) : Keeps s (setCy c s) :=
  Keeps.setPsw s _ fun h => by rw [getLsbD_withBit _ _ _ _ (by decide)]; simpa using h

theorem Keeps.setOv (s : State) (c : Bool) : Keeps s (setOv c s) :=
  Keeps.setPsw s _ fun h => by rw [getLsbD_withBit _ _ _ _ (by decide)]; simpa using h

theorem Keeps.setFlags (s : State) (c h o : Bool) : Keeps s (setFlags c h o s) :=
  Keeps.setPsw s _ fun h => by
    rw [getLsbD_withBit _ _ _ _ (by decide), getLsbD_withBit _ _ _ _ (by decide),
      getLsbD_withBit _ _ _ _ (by decide)]
    simpa using h

theorem Keeps.applyAlu (s : State) (r : AluResult) : Keeps s (applyAlu r s) :=
  (Keeps.setA s r.value).trans (Keeps.setFlags _ _ _ _)

theorem Keeps.advance (s : State) (n : Nat) : Keeps s (advance n s) := Keeps.setPc s _

theorem Keeps.branchIf (s : State) (c : Bool) (rel : Byte) (n : Nat) : Keeps s (branchIf c rel n s) :=
  Keeps.setPc s _

theorem Keeps.setIram (s : State) (a : Nat) (v : Byte) (h : a < s.plat.iramSize.count) :
    Keeps s { s with iram := s.iram.write a v } := by
  constructor <;> first | rfl | exact id | skip
  intro hw
  simp only [State.memoriesWf, Bool.and_eq_true] at hw ⊢
  obtain ⟨⟨⟨⟨⟨h1, h2⟩, h3⟩, h4⟩, h5⟩, h6⟩ := hw
  exact ⟨⟨⟨⟨⟨wf_write _ _ _ h1, below_write _ _ _ _ h2 h⟩, h3⟩, h4⟩, h5⟩, h6⟩

theorem Keeps.iramWrite {a v : Byte} {s t : State} (h : iramWrite a v s = .next t) : Keeps s t := by
  obtain ⟨hlt, rfl⟩ := iramWrite_eq_next h
  exact Keeps.setIram s _ _ hlt

theorem Keeps.push {v : Byte} {s t : State} (h : push v s = .next t) : Keeps s t :=
  (Keeps.setSp s _).trans (Keeps.iramWrite h)

theorem Keeps.pushWord {w : Word} {s t : State} (h : pushWord w s = .next t) : Keeps s t := by
  obtain ⟨u, hu, h⟩ := andThen_eq_next h
  exact (Keeps.push hu).trans (Keeps.push h)

theorem Keeps.pop {s : State} {r : Byte × State} (h : pop s = .next r) : Keeps s r.2 := by
  rw [(pop_eq_next h).2]
  exact Keeps.setSp s _

theorem Keeps.popWord {s : State} {r : Word × State} (h : popWord s = .next r) : Keeps s r.2 := by
  obtain ⟨hi, lo, _, _, rfl⟩ := popWord_eq_next h
  exact Keeps.setSp s _

theorem Keeps.coreWrite (r : CoreSfr) (v : Byte) (s : State) : Keeps s (coreWrite r v s) := by
  cases r with
  | psw => exact Keeps.setPsw s _ fun _ => by rw [getLsbD_withBit _ _ _ _ (by decide)]; rfl
  | port p => exact Keeps.setLatch s _
  | _ => constructor <;> first | rfl | exact id

theorem Keeps.directWrite {d v : Byte} {s t : State} (h : directWrite d v s = .next t) : Keeps s t := by
  unfold Machine.directWrite at h
  split at h
  · exact Keeps.iramWrite h
  · unfold sfrWrite at h
    split at h
    · cases h
      exact Keeps.coreWrite _ v s
    · obtain ⟨r, _, ⟨_, rfl⟩ | ⟨_, rfl⟩⟩ := deviceWrite_eq_next h
      · constructor <;> first | rfl | exact id | exact map_addr_kind_setDeviceLatch _ _ _
      · exact Keeps.setBusLog s _

theorem Keeps.bitWrite {b : Byte} {x : Bool} {s t : State} (h : bitWrite b x s = .next t) : Keeps s t := by
  obtain ⟨v, _, h⟩ := bitWrite_eq_next h
  exact Keeps.directWrite h

theorem Keeps.xWrite (w : Word) (v : Byte) (s : State) : Keeps s (xWrite w v s) := by
  unfold Machine.xWrite
  split
  · constructor <;> first | rfl | exact id | skip
    intro hw
    simp only [State.memoriesWf, Bool.and_eq_true] at hw ⊢
    obtain ⟨⟨⟨⟨⟨h1, h2⟩, h3⟩, h4⟩, h5⟩, h6⟩ := hw
    exact ⟨⟨⟨⟨⟨h1, h2⟩, wf_write _ _ _ h3⟩, below_write _ _ _ _ h4 w.isLt⟩, h5⟩, h6⟩
  · exact Keeps.setBusLog s _

theorem Keeps.afterMovx (s : State) : Keeps s (afterMovx s) := by
  obtain ⟨x, h, _⟩ := afterMovx_eq s
  rw [h]
  exact Keeps.setLatch s _

/-! ### Levels in service and reset -/

/-- A new level above every level in service stands first, and taking the highest level out removes it again. -/
theorem removeHighest_addLevel (n : Nat) (l : List Nat) (hl : ∀ m ∈ l, m < n) :
    addLevel n l = n :: l ∧ removeHighest (n :: l) = l := by
  have key : ∀ (l : List Nat) (k : Nat), (∀ m ∈ l, m ≤ k) → l.foldl max k = k := by
    intro l
    induction l with
    | nil => intros; rfl
    | cons a l ih =>
      intro k h
      have ha : max k a = k := Nat.max_eq_left (h a (by simp))
      simp only [List.foldl_cons, ha]
      exact ih k fun m hm => h m (by simp [hm])
  constructor
  · cases l with
    | nil => rfl
    | cons m l => simp [addLevel, hl m (by simp)]
  · have hh : highestLevel (n :: l) = n := by
      simp only [highestLevel, List.foldl_cons, Nat.zero_max]
      exact key l n fun m hm => Nat.le_of_lt (hl m hm)
    simp only [removeHighest, hh]
    rw [List.filter_cons_of_neg (by simp), List.filter_eq_self]
    intro m hm
    simpa using Nat.ne_of_lt (hl m hm)

/-- The memories after reset are in canonical form, whatever the platform. -/
theorem reset_memories (p : Platform) :
    State.reset.iram.wf = true ∧ State.reset.xdata.wf = true ∧ State.reset.code.wf = true ∧
      (State.resetWith .ofR40 p).iram.wf = true := ⟨by decide, rfl, rfl, rfl⟩

end Sys2Proof.Laws
end

