-- ==== Sys2Proof/Laws/Operands.lean ====
section
/-! SUPPORT. For each shape that instructions share (Machine/Operands.lean), one lemma that says once what it can do, and
that it keeps what Keeps says. -/

namespace Sys2Proof.Laws

open Sys2Proof.Machine

theorem onSource_eq_next {src : Source} {len : Nat} {act : Byte → State → State} {s t : State}
    (h : onSource src len act s = .next t) : ∃ v, src.read s = .next v ∧ t = advance len (act v s) := by
  obtain ⟨v, hv, h⟩ := andThen_eq_next h
  cases h
  exact ⟨v, hv, rfl⟩

theorem intoA_eq_next {src : Source} {len : Nat} {f : Byte → Byte → Byte} {s t : State}
    (h : intoA src len f s = .next t) :
    ∃ v, src.read s = .next v ∧ t = { s with a := f s.a v, pc := s.pc + BitVec.ofNat 16 len } :=
  onSource_eq_next h

theorem thenAdvance_eq_next {len : Nat} {x : Res State} {t : State} (h : thenAdvance len x = .next t) :
    ∃ u, x = .next u ∧ t = advance len u := by
  obtain ⟨u, hu, h⟩ := andThen_eq_next h
  cases h
  exact ⟨u, hu, rfl⟩

theorem changeReg_eq_next {n : RegNo} {f : Byte → Byte} {len : Nat} {s t : State}
    (h : changeReg n f len s = .next t) :
    ∃ v, regRead n s = .next v ∧ CellWritten (regCell n.val s) (f v) len s t := by
  obtain ⟨v, hv, h⟩ := andThen_eq_next h
  obtain ⟨u, hu, rfl⟩ := thenAdvance_eq_next h
  obtain ⟨hlt, rfl⟩ := iramWrite_eq_next hu
  exact ⟨v, hv, cellWritten_advance _ _ _ _ hlt⟩

theorem changeInd_eq_next {i : IndNo} {f : Byte → Byte} {len : Nat} {s t : State}
    (h : changeInd i f len s = .next t) :
    ∃ a v, indAddress i s = .next a ∧ iramRead a s = .next v ∧ CellWritten a (f v) len s t := by
  obtain ⟨a, ha, h⟩ := andThen_eq_next h
  obtain ⟨v, hv, h⟩ := andThen_eq_next h
  obtain ⟨u, hu, rfl⟩ := thenAdvance_eq_next h
  obtain ⟨hlt, rfl⟩ := iramWrite_eq_next hu
  exact ⟨a, v, ha, hv, cellWritten_advance _ _ _ _ hlt⟩

theorem changeDirect_eq_next {d : Byte} {f : Byte → Byte} {len : Nat} {s t : State}
    (h : changeDirect d f len s = .next t) :
    ∃ v u, directReadRmw d s = .next v ∧ directWrite d (f v) s = .next u ∧ t = advance len u := by
  obtain ⟨v, hv, h⟩ := andThen_eq_next h
  obtain ⟨u, hu, rfl⟩ := thenAdvance_eq_next h
  exact ⟨v, u, hv, hu, rfl⟩

theorem moveToDirect_eq_next {d : Byte} {src : Source} {len : Nat} {s t : State}
    (h : moveToDirect d src len s = .next t) :
    ∃ v u, src.read s = .next v ∧ directWrite d v s = .next u ∧ t = advance len u := by
  obtain ⟨v, hv, h⟩ := andThen_eq_next h
  obtain ⟨u, hu, rfl⟩ := thenAdvance_eq_next h
  exact ⟨v, u, hv, hu, rfl⟩

theorem moveToReg_eq_next {n : RegNo} {src : Source} {len : Nat} {s t : State}
    (h : moveToReg n src len s = .next t) :
    ∃ v, src.read s = .next v ∧ CellWritten (regCell n.val s) v len s t := by
  obtain ⟨v, hv, h⟩ := andThen_eq_next h
  obtain ⟨u, hu, rfl⟩ := thenAdvance_eq_next h
  obtain ⟨hlt, rfl⟩ := iramWrite_eq_next hu
  exact ⟨v, hv, cellWritten_advance _ _ _ _ hlt⟩

theorem moveToInd_eq_next {i : IndNo} {src : Source} {len : Nat} {s t : State}
    (h : moveToInd i src len s = .next t) :
    ∃ a v, indAddress i s = .next a ∧ src.read s = .next v ∧ CellWritten a v len s t := by
  obtain ⟨a, ha, h⟩ := andThen_eq_next h
  obtain ⟨v, hv, h⟩ := andThen_eq_next h
  obtain ⟨u, hu, rfl⟩ := thenAdvance_eq_next h
  obtain ⟨hlt, rfl⟩ := iramWrite_eq_next hu
  exact ⟨a, v, ha, hv, cellWritten_advance _ _ _ _ hlt⟩

theorem bitIntoC_eq_next {b : Byte} {f : Bool → Bool → Bool} {s t : State} (h : bitIntoC b f s = .next t) :
    ∃ v, bitRead b s = .next v ∧ t = advance 2 (setCy (f s.cy v) s) := by
  obtain ⟨v, hv, h⟩ := andThen_eq_next h
  cases h
  exact ⟨v, hv, rfl⟩

/-! ### The shapes keep what Keeps says -/

theorem Keeps.onSource {src : Source} {len : Nat} {act : Byte → State → State} {s t : State}
    (ha : ∀ v, Keeps s (act v s)) (h : onSource src len act s = .next t) : Keeps s t := by
  obtain ⟨v, _, rfl⟩ := onSource_eq_next h
  exact (ha v).trans (Keeps.advance _ _)

theorem Keeps.intoA {src : Source} {len : Nat} {f : Byte → Byte → Byte} {s t : State}
    (h : intoA src len f s = .next t) : Keeps s t :=
  Keeps.onSource (fun _ => Keeps.setA s _) h

theorem Keeps.changeA {f : Byte → Byte} {s t : State} (h : changeA f s = .next t) : Keeps s t := by
  cases h
  exact (Keeps.setA s _).trans (Keeps.advance _ _)

theorem Keeps.thenAdvance {len : Nat} {x : Res State} {s t : State} (hx : ∀ u, x = .next u → Keeps s u)
    (h : thenAdvance len x = .next t) : Keeps s t := by
  obtain ⟨u, hu, rfl⟩ := thenAdvance_eq_next h
  exact (hx u hu).trans (Keeps.advance _ _)

theorem Keeps.changeReg {n : RegNo} {f : Byte → Byte} {len : Nat} {s t : State}
    (h : changeReg n f len s = .next t) : Keeps s t := by
  obtain ⟨v, _, h⟩ := andThen_eq_next h
  exact Keeps.thenAdvance (fun _ => Keeps.iramWrite) h

theorem Keeps.changeInd {i : IndNo} {f : Byte → Byte} {len : Nat} {s t : State}
    (h : changeInd i f len s = .next t) : Keeps s t := by
  obtain ⟨a, _, h⟩ := andThen_eq_next h
  obtain ⟨v, _, h⟩ := andThen_eq_next h
  exact Keeps.thenAdvance (fun _ => Keeps.iramWrite) h

theorem Keeps.changeDirect {d : Byte} {f : Byte → Byte} {len : Nat} {s t : State}
    (h : changeDirect d f len s = .next t) : Keeps s t := by
  obtain ⟨v, _, h⟩ := andThen_eq_next h
  exact Keeps.thenAdvance (fun _ => Keeps.directWrite) h

theorem Keeps.moveToDirect {d : Byte} {src : Source} {len : Nat} {s t : State}
    (h : moveToDirect d src len s = .next t) : Keeps s t := by
  obtain ⟨v, _, h⟩ := andThen_eq_next h
  exact Keeps.thenAdvance (fun _ => Keeps.directWrite) h

theorem Keeps.moveToReg {n : RegNo} {src : Source} {len : Nat} {s t : State}
    (h : moveToReg n src len s = .next t) : Keeps s t := by
  obtain ⟨v, _, h⟩ := andThen_eq_next h
  exact Keeps.thenAdvance (fun _ => Keeps.iramWrite) h

theorem Keeps.moveToInd {i : IndNo} {src : Source} {len : Nat} {s t : State}
    (h : moveToInd i src len s = .next t) : Keeps s t := by
  obtain ⟨a, _, h⟩ := andThen_eq_next h
  obtain ⟨v, _, h⟩ := andThen_eq_next h
  exact Keeps.thenAdvance (fun _ => Keeps.iramWrite) h

theorem Keeps.bitIntoC {b : Byte} {f : Bool → Bool → Bool} {s t : State} (h : bitIntoC b f s = .next t) : Keeps s t := by
  obtain ⟨v, _, rfl⟩ := bitIntoC_eq_next h
  exact (Keeps.setCy s _).trans (Keeps.advance _ _)

theorem Keeps.writeBit {b : Byte} {v : Bool} {s t : State} (h : writeBit b v s = .next t) : Keeps s t :=
  Keeps.thenAdvance (fun _ => Keeps.bitWrite) h

theorem Keeps.compareJump {dest src rel : Byte} {s t : State} (h : compareJump dest src rel s = .next t) :
    Keeps s t := by
  cases h
  exact (Keeps.setCy s _).trans (Keeps.branchIf _ _ _ _)

end Sys2Proof.Laws
end

