-- ==== Sys2Proof/Laws/PerInstr.lean ====
section
/-! SUPPORT. What the first byte of an encoding says of its length, one lemma for each instruction (30_encoding.md rule
R103). -/

namespace Sys2Proof.Laws

/-- The encoding of an instruction is as long as the instruction, and its first byte alone gives that length. -/
def EncodeShape.Statement (i : Instr) : Prop :=
  (encode i).length = i.len ∧ (encode i).head?.bind opLength = some i.len

theorem opLength_withPage (p : BitVec 3) :
    opLength (p ++ (0x11 : BitVec 5)) = some 2 ∧ opLength (p ++ (0x01 : BitVec 5)) = some 2 := by
  revert p
  decide

theorem EncodeShape.addRn (n : RegNo) : EncodeShape.Statement (.addRn n) :=
  ⟨rfl, by revert n; exact (by decide : ∀ n, opLength (opWithReg 0x28 n) = some 1)⟩
theorem EncodeShape.addDirect (direct : Byte) : EncodeShape.Statement (.addDirect direct) :=
  ⟨rfl, (by decide : opLength 0x25 = some 2)⟩
theorem EncodeShape.addInd (i : IndNo) : EncodeShape.Statement (.addInd i) :=
  ⟨rfl, by revert i; exact (by decide : ∀ i, opLength (opWithInd 0x26 i) = some 1)⟩
theorem EncodeShape.addImm (data : Byte) : EncodeShape.Statement (.addImm data) :=
  ⟨rfl, (by decide : opLength 0x24 = some 2)⟩
theorem EncodeShape.addcRn (n : RegNo) : EncodeShape.Statement (.addcRn n) :=
  ⟨rfl, by revert n; exact (by decide : ∀ n, opLength (opWithReg 0x38 n) = some 1)⟩
theorem EncodeShape.addcDirect (direct : Byte) : EncodeShape.Statement (.addcDirect direct) :=
  ⟨rfl, (by decide : opLength 0x35 = some 2)⟩
theorem EncodeShape.addcInd (i : IndNo) : EncodeShape.Statement (.addcInd i) :=
  ⟨rfl, by revert i; exact (by decide : ∀ i, opLength (opWithInd 0x36 i) = some 1)⟩
theorem EncodeShape.addcImm (data : Byte) : EncodeShape.Statement (.addcImm data) :=
  ⟨rfl, (by decide : opLength 0x34 = some 2)⟩
theorem EncodeShape.subbRn (n : RegNo) : EncodeShape.Statement (.subbRn n) :=
  ⟨rfl, by revert n; exact (by decide : ∀ n, opLength (opWithReg 0x98 n) = some 1)⟩
theorem EncodeShape.subbDirect (direct : Byte) : EncodeShape.Statement (.subbDirect direct) :=
  ⟨rfl, (by decide : opLength 0x95 = some 2)⟩
theorem EncodeShape.subbInd (i : IndNo) : EncodeShape.Statement (.subbInd i) :=
  ⟨rfl, by revert i; exact (by decide : ∀ i, opLength (opWithInd 0x96 i) = some 1)⟩
theorem EncodeShape.subbImm (data : Byte) : EncodeShape.Statement (.subbImm data) :=
  ⟨rfl, (by decide : opLength 0x94 = some 2)⟩
theorem EncodeShape.incA : EncodeShape.Statement .incA :=
  ⟨rfl, (by decide : opLength 0x04 = some 1)⟩
theorem EncodeShape.incRn (n : RegNo) : EncodeShape.Statement (.incRn n) :=
  ⟨rfl, by revert n; exact (by decide : ∀ n, opLength (opWithReg 0x08 n) = some 1)⟩
theorem EncodeShape.incDirect (direct : Byte) : EncodeShape.Statement (.incDirect direct) :=
  ⟨rfl, (by decide : opLength 0x05 = some 2)⟩
theorem EncodeShape.incInd (i : IndNo) : EncodeShape.Statement (.incInd i) :=
  ⟨rfl, by revert i; exact (by decide : ∀ i, opLength (opWithInd 0x06 i) = some 1)⟩
theorem EncodeShape.decA : EncodeShape.Statement .decA :=
  ⟨rfl, (by decide : opLength 0x14 = some 1)⟩
theorem EncodeShape.decRn (n : RegNo) : EncodeShape.Statement (.decRn n) :=
  ⟨rfl, by revert n; exact (by decide : ∀ n, opLength (opWithReg 0x18 n) = some 1)⟩
theorem EncodeShape.decDirect (direct : Byte) : EncodeShape.Statement (.decDirect direct) :=
  ⟨rfl, (by decide : opLength 0x15 = some 2)⟩
theorem EncodeShape.decInd (i : IndNo) : EncodeShape.Statement (.decInd i) :=
  ⟨rfl, by revert i; exact (by decide : ∀ i, opLength (opWithInd 0x16 i) = some 1)⟩
theorem EncodeShape.incDptr : EncodeShape.Statement .incDptr :=
  ⟨rfl, (by decide : opLength 0xA3 = some 1)⟩
theorem EncodeShape.mulAb : EncodeShape.Statement .mulAb :=
  ⟨rfl, (by decide : opLength 0xA4 = some 1)⟩
theorem EncodeShape.divAb : EncodeShape.Statement .divAb :=
  ⟨rfl, (by decide : opLength 0x84 = some 1)⟩
theorem EncodeShape.daA : EncodeShape.Statement .daA :=
  ⟨rfl, (by decide : opLength 0xD4 = some 1)⟩
theorem EncodeShape.anlARn (n : RegNo) : EncodeShape.Statement (.anlARn n) :=
  ⟨rfl, by revert n; exact (by decide : ∀ n, opLength (opWithReg 0x58 n) = some 1)⟩
theorem EncodeShape.anlADirect (direct : Byte) : EncodeShape.Statement (.anlADirect direct) :=
  ⟨rfl, (by decide : opLength 0x55 = some 2)⟩
theorem EncodeShape.anlAInd (i : IndNo) : EncodeShape.Statement (.anlAInd i) :=
  ⟨rfl, by revert i; exact (by decide : ∀ i, opLength (opWithInd 0x56 i) = some 1)⟩
theorem EncodeShape.anlAImm (data : Byte) : EncodeShape.Statement (.anlAImm data) :=
  ⟨rfl, (by decide : opLength 0x54 = some 2)⟩
theorem EncodeShape.anlDirectA (direct : Byte) : EncodeShape.Statement (.anlDirectA direct) :=
  ⟨rfl, (by decide : opLength 0x52 = some 2)⟩
theorem EncodeShape.anlDirectImm (direct : Byte) (data : Byte) : EncodeShape.Statement (.anlDirectImm direct data) :=
  ⟨rfl, (by decide : opLength 0x53 = some 3)⟩
theorem EncodeShape.orlARn (n : RegNo) : EncodeShape.Statement (.orlARn n) :=
  ⟨rfl, by revert n; exact (by decide : ∀ n, opLength (opWithReg 0x48 n) = some 1)⟩
theorem EncodeShape.orlADirect (direct : Byte) : EncodeShape.Statement (.orlADirect direct) :=
  ⟨rfl, (by decide : opLength 0x45 = some 2)⟩
theorem EncodeShape.orlAInd (i : IndNo) : EncodeShape.Statement (.orlAInd i) :=
  ⟨rfl, by revert i; exact (by decide : ∀ i, opLength (opWithInd 0x46 i) = some 1)⟩
theorem EncodeShape.orlAImm (data : Byte) : EncodeShape.Statement (.orlAImm data) :=
  ⟨rfl, (by decide : opLength 0x44 = some 2)⟩
theorem EncodeShape.orlDirectA (direct : Byte) : EncodeShape.Statement (.orlDirectA direct) :=
  ⟨rfl, (by decide : opLength 0x42 = some 2)⟩
theorem EncodeShape.orlDirectImm (direct : Byte) (data : Byte) : EncodeShape.Statement (.orlDirectImm direct data) :=
  ⟨rfl, (by decide : opLength 0x43 = some 3)⟩
theorem EncodeShape.xrlARn (n : RegNo) : EncodeShape.Statement (.xrlARn n) :=
  ⟨rfl, by revert n; exact (by decide : ∀ n, opLength (opWithReg 0x68 n) = some 1)⟩
theorem EncodeShape.xrlADirect (direct : Byte) : EncodeShape.Statement (.xrlADirect direct) :=
  ⟨rfl, (by decide : opLength 0x65 = some 2)⟩
theorem EncodeShape.xrlAInd (i : IndNo) : EncodeShape.Statement (.xrlAInd i) :=
  ⟨rfl, by revert i; exact (by decide : ∀ i, opLength (opWithInd 0x66 i) = some 1)⟩
theorem EncodeShape.xrlAImm (data : Byte) : EncodeShape.Statement (.xrlAImm data) :=
  ⟨rfl, (by decide : opLength 0x64 = some 2)⟩
theorem EncodeShape.xrlDirectA (direct : Byte) : EncodeShape.Statement (.xrlDirectA direct) :=
  ⟨rfl, (by decide : opLength 0x62 = some 2)⟩
theorem EncodeShape.xrlDirectImm (direct : Byte) (data : Byte) : EncodeShape.Statement (.xrlDirectImm direct data) :=
  ⟨rfl, (by decide : opLength 0x63 = some 3)⟩
theorem EncodeShape.clrA : EncodeShape.Statement .clrA :=
  ⟨rfl, (by decide : opLength 0xE4 = some 1)⟩
theorem EncodeShape.cplA : EncodeShape.Statement .cplA :=
  ⟨rfl, (by decide : opLength 0xF4 = some 1)⟩
theorem EncodeShape.rlA : EncodeShape.Statement .rlA :=
  ⟨rfl, (by decide : opLength 0x23 = some 1)⟩
theorem EncodeShape.rlcA : EncodeShape.Statement .rlcA :=
  ⟨rfl, (by decide : opLength 0x33 = some 1)⟩
theorem EncodeShape.rrA : EncodeShape.Statement .rrA :=
  ⟨rfl, (by decide : opLength 0x03 = some 1)⟩
theorem EncodeShape.rrcA : EncodeShape.Statement .rrcA :=
  ⟨rfl, (by decide : opLength 0x13 = some 1)⟩
theorem EncodeShape.swapA : EncodeShape.Statement .swapA :=
  ⟨rfl, (by decide : opLength 0xC4 = some 1)⟩
theorem EncodeShape.movARn (n : RegNo) : EncodeShape.Statement (.movARn n) :=
  ⟨rfl, by revert n; exact (by decide : ∀ n, opLength (opWithReg 0xE8 n) = some 1)⟩
theorem EncodeShape.movADirect (direct : Byte) : EncodeShape.Statement (.movADirect direct) :=
  ⟨rfl, (by decide : opLength 0xE5 = some 2)⟩
theorem EncodeShape.movAInd (i : IndNo) : EncodeShape.Statement (.movAInd i) :=
  ⟨rfl, by revert i; exact (by decide : ∀ i, opLength (opWithInd 0xE6 i) = some 1)⟩
theorem EncodeShape.movAImm (data : Byte) : EncodeShape.Statement (.movAImm data) :=
  ⟨rfl, (by decide : opLength 0x74 = some 2)⟩
theorem EncodeShape.movRnA (n : RegNo) : EncodeShape.Statement (.movRnA n) :=
  ⟨rfl, by revert n; exact (by decide : ∀ n, opLength (opWithReg 0xF8 n) = some 1)⟩
theorem EncodeShape.movRnDirect (n : RegNo) (direct : Byte) : EncodeShape.Statement (.movRnDirect n direct) :=
  ⟨rfl, by revert n; exact (by decide : ∀ n, opLength (opWithReg 0xA8 n) = some 2)⟩
theorem EncodeShape.movRnImm (n : RegNo) (data : Byte) : EncodeShape.Statement (.movRnImm n data) :=
  ⟨rfl, by revert n; exact (by decide : ∀ n, opLength (opWithReg 0x78 n) = some 2)⟩
theorem EncodeShape.movDirectA (direct : Byte) : EncodeShape.Statement (.movDirectA direct) :=
  ⟨rfl, (by decide : opLength 0xF5 = some 2)⟩
theorem EncodeShape.movDirectRn (n : RegNo) (direct : Byte) : EncodeShape.Statement (.movDirectRn n direct) :=
  ⟨rfl, by revert n; exact (by decide : ∀ n, opLength (opWithReg 0x88 n) = some 2)⟩
theorem EncodeShape.movDirectDirect (src : Byte) (dst : Byte) : EncodeShape.Statement (.movDirectDirect src dst) :=
  ⟨rfl, (by decide : opLength 0x85 = some 3)⟩
theorem EncodeShape.movDirectInd (i : IndNo) (direct : Byte) : EncodeShape.Statement (.movDirectInd i direct) :=
  ⟨rfl, by revert i; exact (by decide : ∀ i, opLength (opWithInd 0x86 i) = some 2)⟩
theorem EncodeShape.movDirectImm (direct : Byte) (data : Byte) : EncodeShape.Statement (.movDirectImm direct data) :=
  ⟨rfl, (by decide : opLength 0x75 = some 3)⟩
theorem EncodeShape.movIndA (i : IndNo) : EncodeShape.Statement (.movIndA i) :=
  ⟨rfl, by revert i; exact (by decide : ∀ i, opLength (opWithInd 0xF6 i) = some 1)⟩
theorem EncodeShape.movIndDirect (i : IndNo) (direct : Byte) : EncodeShape.Statement (.movIndDirect i direct) :=
  ⟨rfl, by revert i; exact (by decide : ∀ i, opLength (opWithInd 0xA6 i) = some 2)⟩
theorem EncodeShape.movIndImm (i : IndNo) (data : Byte) : EncodeShape.Statement (.movIndImm i data) :=
  ⟨rfl, by revert i; exact (by decide : ∀ i, opLength (opWithInd 0x76 i) = some 2)⟩
theorem EncodeShape.movDptr (data : Word) : EncodeShape.Statement (.movDptr data) :=
  ⟨rfl, (by decide : opLength 0x90 = some 3)⟩
theorem EncodeShape.movcDptr : EncodeShape.Statement .movcDptr :=
  ⟨rfl, (by decide : opLength 0x93 = some 1)⟩
theorem EncodeShape.movcPc : EncodeShape.Statement .movcPc :=
  ⟨rfl, (by decide : opLength 0x83 = some 1)⟩
theorem EncodeShape.movxAInd (i : IndNo) : EncodeShape.Statement (.movxAInd i) :=
  ⟨rfl, by revert i; exact (by decide : ∀ i, opLength (opWithInd 0xE2 i) = some 1)⟩
theorem EncodeShape.movxADptr : EncodeShape.Statement .movxADptr :=
  ⟨rfl, (by decide : opLength 0xE0 = some 1)⟩
theorem EncodeShape.movxIndA (i : IndNo) : EncodeShape.Statement (.movxIndA i) :=
  ⟨rfl, by revert i; exact (by decide : ∀ i, opLength (opWithInd 0xF2 i) = some 1)⟩
theorem EncodeShape.movxDptrA : EncodeShape.Statement .movxDptrA :=
  ⟨rfl, (by decide : opLength 0xF0 = some 1)⟩
theorem EncodeShape.push (direct : Byte) : EncodeShape.Statement (.push direct) :=
  ⟨rfl, (by decide : opLength 0xC0 = some 2)⟩
theorem EncodeShape.pop (direct : Byte) : EncodeShape.Statement (.pop direct) :=
  ⟨rfl, (by decide : opLength 0xD0 = some 2)⟩
theorem EncodeShape.xchRn (n : RegNo) : EncodeShape.Statement (.xchRn n) :=
  ⟨rfl, by revert n; exact (by decide : ∀ n, opLength (opWithReg 0xC8 n) = some 1)⟩
theorem EncodeShape.xchDirect (direct : Byte) : EncodeShape.Statement (.xchDirect direct) :=
  ⟨rfl, (by decide : opLength 0xC5 = some 2)⟩
theorem EncodeShape.xchInd (i : IndNo) : EncodeShape.Statement (.xchInd i) :=
  ⟨rfl, by revert i; exact (by decide : ∀ i, opLength (opWithInd 0xC6 i) = some 1)⟩
theorem EncodeShape.xchd (i : IndNo) : EncodeShape.Statement (.xchd i) :=
  ⟨rfl, by revert i; exact (by decide : ∀ i, opLength (opWithInd 0xD6 i) = some 1)⟩
theorem EncodeShape.clrC : EncodeShape.Statement .clrC :=
  ⟨rfl, (by decide : opLength 0xC3 = some 1)⟩
theorem EncodeShape.clrBit (bit : Byte) : EncodeShape.Statement (.clrBit bit) :=
  ⟨rfl, (by decide : opLength 0xC2 = some 2)⟩
theorem EncodeShape.setbC : EncodeShape.Statement .setbC :=
  ⟨rfl, (by decide : opLength 0xD3 = some 1)⟩
theorem EncodeShape.setbBit (bit : Byte) : EncodeShape.Statement (.setbBit bit) :=
  ⟨rfl, (by decide : opLength 0xD2 = some 2)⟩
theorem EncodeShape.cplC : EncodeShape.Statement .cplC :=
  ⟨rfl, (by decide : opLength 0xB3 = some 1)⟩
theorem EncodeShape.cplBit (bit : Byte) : EncodeShape.Statement (.cplBit bit) :=
  ⟨rfl, (by decide : opLength 0xB2 = some 2)⟩
theorem EncodeShape.anlCBit (bit : Byte) : EncodeShape.Statement (.anlCBit bit) :=
  ⟨rfl, (by decide : opLength 0x82 = some 2)⟩
theorem EncodeShape.anlCNotBit (bit : Byte) : EncodeShape.Statement (.anlCNotBit bit) :=
  ⟨rfl, (by decide : opLength 0xB0 = some 2)⟩
theorem EncodeShape.orlCBit (bit : Byte) : EncodeShape.Statement (.orlCBit bit) :=
  ⟨rfl, (by decide : opLength 0x72 = some 2)⟩
theorem EncodeShape.orlCNotBit (bit : Byte) : EncodeShape.Statement (.orlCNotBit bit) :=
  ⟨rfl, (by decide : opLength 0xA0 = some 2)⟩
theorem EncodeShape.movCBit (bit : Byte) : EncodeShape.Statement (.movCBit bit) :=
  ⟨rfl, (by decide : opLength 0xA2 = some 2)⟩
theorem EncodeShape.movBitC (bit : Byte) : EncodeShape.Statement (.movBitC bit) :=
  ⟨rfl, (by decide : opLength 0x92 = some 2)⟩
theorem EncodeShape.acall (addr : BitVec 11) : EncodeShape.Statement (.acall addr) :=
  ⟨rfl, (opLength_withPage (addr.extractLsb' 8 3)).1⟩
theorem EncodeShape.lcall (addr : Word) : EncodeShape.Statement (.lcall addr) :=
  ⟨rfl, (by decide : opLength 0x12 = some 3)⟩
theorem EncodeShape.ret : EncodeShape.Statement .ret :=
  ⟨rfl, (by decide : opLength 0x22 = some 1)⟩
theorem EncodeShape.reti : EncodeShape.Statement .reti :=
  ⟨rfl, (by decide : opLength 0x32 = some 1)⟩
theorem EncodeShape.ajmp (addr : BitVec 11) : EncodeShape.Statement (.ajmp addr) :=
  ⟨rfl, (opLength_withPage (addr.extractLsb' 8 3)).2⟩
theorem EncodeShape.ljmp (addr : Word) : EncodeShape.Statement (.ljmp addr) :=
  ⟨rfl, (by decide : opLength 0x02 = some 3)⟩
theorem EncodeShape.sjmp (rel : Byte) : EncodeShape.Statement (.sjmp rel) :=
  ⟨rfl, (by decide : opLength 0x80 = some 2)⟩
theorem EncodeShape.jmpADptr : EncodeShape.Statement .jmpADptr :=
  ⟨rfl, (by decide : opLength 0x73 = some 1)⟩
theorem EncodeShape.jz (rel : Byte) : EncodeShape.Statement (.jz rel) :=
  ⟨rfl, (by decide : opLength 0x60 = some 2)⟩
theorem EncodeShape.jnz (rel : Byte) : EncodeShape.Statement (.jnz rel) :=
  ⟨rfl, (by decide : opLength 0x70 = some 2)⟩
theorem EncodeShape.jc (rel : Byte) : EncodeShape.Statement (.jc rel) :=
  ⟨rfl, (by decide : opLength 0x40 = some 2)⟩
theorem EncodeShape.jnc (rel : Byte) : EncodeShape.Statement (.jnc rel) :=
  ⟨rfl, (by decide : opLength 0x50 = some 2)⟩
theorem EncodeShape.jb (bit : Byte) (rel : Byte) : EncodeShape.Statement (.jb bit rel) :=
  ⟨rfl, (by decide : opLength 0x20 = some 3)⟩
theorem EncodeShape.jnb (bit : Byte) (rel : Byte) : EncodeShape.Statement (.jnb bit rel) :=
  ⟨rfl, (by decide : opLength 0x30 = some 3)⟩
theorem EncodeShape.jbc (bit : Byte) (rel : Byte) : EncodeShape.Statement (.jbc bit rel) :=
  ⟨rfl, (by decide : opLength 0x10 = some 3)⟩
theorem EncodeShape.cjneADirect (direct : Byte) (rel : Byte) : EncodeShape.Statement (.cjneADirect direct rel) :=
  ⟨rfl, (by decide : opLength 0xB5 = some 3)⟩
theorem EncodeShape.cjneAImm (data : Byte) (rel : Byte) : EncodeShape.Statement (.cjneAImm data rel) :=
  ⟨rfl, (by decide : opLength 0xB4 = some 3)⟩
theorem EncodeShape.cjneRnImm (n : RegNo) (data : Byte) (rel : Byte) : EncodeShape.Statement (.cjneRnImm n data rel) :=
  ⟨rfl, by revert n; exact (by decide : ∀ n, opLength (opWithReg 0xB8 n) = some 3)⟩
theorem EncodeShape.cjneIndImm (i : IndNo) (data : Byte) (rel : Byte) : EncodeShape.Statement (.cjneIndImm i data rel) :=
  ⟨rfl, by revert i; exact (by decide : ∀ i, opLength (opWithInd 0xB6 i) = some 3)⟩
theorem EncodeShape.djnzRn (n : RegNo) (rel : Byte) : EncodeShape.Statement (.djnzRn n rel) :=
  ⟨rfl, by revert n; exact (by decide : ∀ n, opLength (opWithReg 0xD8 n) = some 2)⟩
theorem EncodeShape.djnzDirect (direct : Byte) (rel : Byte) : EncodeShape.Statement (.djnzDirect direct rel) :=
  ⟨rfl, (by decide : opLength 0xD5 = some 3)⟩
theorem EncodeShape.nop : EncodeShape.Statement .nop :=
  ⟨rfl, (by decide : opLength 0x00 = some 1)⟩

end Sys2Proof.Laws
end

