-- ==== Sys2Proof/Tests/Slice0.lean ====
section
/-! SUPPORT. The model's own tests: what WellFormed refuses, one word of every form written out from the table of
30_encoding.md rule R99 with the form it decodes to, one step of most forms with the outcome that 95_test_vectors.md
prints, interrupts, and for every statement that has hypotheses a concrete state that meets them. -/

namespace Sys2Proof.Tests

open Sys2Proof.Machine

set_option maxRecDepth 2000
set_option Elab.async false

/-! ### Well-formedness -/

/-- MOV A,ACC is the one ill-formed instruction (rule R101). -/
theorem test_wf_refuses_mov_a_acc : (Instr.movADirect 0xE0).wf = false := by decide

/-- Its neighbours, and the same address in other forms, are well formed. -/
theorem test_wf_admits_the_rest : (Instr.movADirect 0xE1).wf = true ∧ (Instr.movADirect 0x00).wf = true ∧
    (Instr.movDirectA 0xE0).wf = true ∧ (Instr.xchDirect 0xE0).wf = true := by decide

/-! ### Decoding -/

/-- Do the bytes decode to the instruction, with nothing left over? -/
def decodesTo (bytes : List Byte) (i : Instr) : Bool :=
  match decode bytes with
  | .ok (j, rest) => decide (j = i) && rest.isEmpty
  | .error _ => false

/-- Words of the forms of 40_arithmetic.md, bit by bit: rrr = 101, i = 1, aaa = 011, d = 30H, k = 7AH, b = D3H, e = FBH. -/
def arithmeticWords : List (List Byte × Instr) :=
  [([0b00101101], .addRn 5),
   ([0b00100101, 0x30], .addDirect 0x30),
   ([0b00100111], .addInd 1),
   ([0b00100100, 0x7A], .addImm 0x7A),
   ([0b00111101], .addcRn 5),
   ([0b00110101, 0x30], .addcDirect 0x30),
   ([0b00110111], .addcInd 1),
   ([0b00110100, 0x7A], .addcImm 0x7A),
   ([0b10011101], .subbRn 5),
   ([0b10010101, 0x30], .subbDirect 0x30),
   ([0b10010111], .subbInd 1),
   ([0b10010100, 0x7A], .subbImm 0x7A),
   ([0b00000100], .incA),
   ([0b00001101], .incRn 5),
   ([0b00000101, 0x30], .incDirect 0x30),
   ([0b00000111], .incInd 1),
   ([0b00010100], .decA),
   ([0b00011101], .decRn 5),
   ([0b00010101, 0x30], .decDirect 0x30),
   ([0b00010111], .decInd 1),
   ([0b10100011], .incDptr),
   ([0b10100100], .mulAb),
   ([0b10000100], .divAb),
   ([0b11010100], .daA)]

theorem test_decode_arithmetic : arithmeticWords.all (fun p => decodesTo p.1 p.2) = true := by decide +kernel

/-- Words of the forms of 41_logic.md, bit by bit: rrr = 101, i = 1, aaa = 011, d = 30H, k = 7AH, b = D3H, e = FBH. -/
def logicWords : List (List Byte × Instr) :=
  [([0b01011101], .anlARn 5),
   ([0b01010101, 0x30], .anlADirect 0x30),
   ([0b01010111], .anlAInd 1),
   ([0b01010100, 0x7A], .anlAImm 0x7A),
   ([0b01010010, 0x30], .anlDirectA 0x30),
   ([0b01010011, 0x30, 0x7A], .anlDirectImm 0x30 0x7A),
   ([0b01001101], .orlARn 5),
   ([0b01000101, 0x30], .orlADirect 0x30),
   ([0b01000111], .orlAInd 1),
   ([0b01000100, 0x7A], .orlAImm 0x7A),
   ([0b01000010, 0x30], .orlDirectA 0x30),
   ([0b01000011, 0x30, 0x7A], .orlDirectImm 0x30 0x7A),
   ([0b01101101], .xrlARn 5),
   ([0b01100101, 0x30], .xrlADirect 0x30),
   ([0b01100111], .xrlAInd 1),
   ([0b01100100, 0x7A], .xrlAImm 0x7A),
   ([0b01100010, 0x30], .xrlDirectA 0x30),
   ([0b01100011, 0x30, 0x7A], .xrlDirectImm 0x30 0x7A),
   ([0b11100100], .clrA),
   ([0b11110100], .cplA),
   ([0b00100011], .rlA),
   ([0b00110011], .rlcA),
   ([0b00000011], .rrA),
   ([0b00010011], .rrcA),
   ([0b11000100], .swapA)]

theorem test_decode_logic : logicWords.all (fun p => decodesTo p.1 p.2) = true := by decide +kernel

/-- Words of the forms of 42_data_transfer.md, bit by bit: rrr = 101, i = 1, aaa = 011, d = 30H, k = 7AH, b = D3H, e = FBH. -/
def transferWords : List (List Byte × Instr) :=
  [([0b11101101], .movARn 5),
   ([0b11100101, 0x30], .movADirect 0x30),
   ([0b11100111], .movAInd 1),
   ([0b01110100, 0x7A], .movAImm 0x7A),
   ([0b11111101], .movRnA 5),
   ([0b10101101, 0x30], .movRnDirect 5 0x30),
   ([0b01111101, 0x7A], .movRnImm 5 0x7A),
   ([0b11110101, 0x30], .movDirectA 0x30),
   ([0b10001101, 0x30], .movDirectRn 5 0x30),
   ([0b10000101, 0x90, 0xA0], .movDirectDirect 0x90 0xA0),
   ([0b10000111, 0x30], .movDirectInd 1 0x30),
   ([0b01110101, 0x30, 0x7A], .movDirectImm 0x30 0x7A),
   ([0b11110111], .movIndA 1),
   ([0b10100111, 0x30], .movIndDirect 1 0x30),
   ([0b01110111, 0x7A], .movIndImm 1 0x7A),
   ([0b10010000, 0x12, 0x34], .movDptr 0x1234),
   ([0b10010011], .movcDptr),
   ([0b10000011], .movcPc),
   ([0b11100011], .movxAInd 1),
   ([0b11100000], .movxADptr),
   ([0b11110011], .movxIndA 1),
   ([0b11110000], .movxDptrA),
   ([0b11000000, 0x30], .push 0x30),
   ([0b11010000, 0x30], .pop 0x30),
   ([0b11001101], .xchRn 5),
   ([0b11000101, 0x30], .xchDirect 0x30),
   ([0b11000111], .xchInd 1),
   ([0b11010111], .xchd 1)]

theorem test_decode_transfer : transferWords.all (fun p => decodesTo p.1 p.2) = true := by decide +kernel

/-- Words of the forms of 43_boolean.md, bit by bit: rrr = 101, i = 1, aaa = 011, d = 30H, k = 7AH, b = D3H, e = FBH. -/
def booleanWords : List (List Byte × Instr) :=
  [([0b11000011], .clrC),
   ([0b11000010, 0xD3], .clrBit 0xD3),
   ([0b11010011], .setbC),
   ([0b11010010, 0xD3], .setbBit 0xD3),
   ([0b10110011], .cplC),
   ([0b10110010, 0xD3], .cplBit 0xD3),
   ([0b10000010, 0xD3], .anlCBit 0xD3),
   ([0b10110000, 0xD3], .anlCNotBit 0xD3),
   ([0b01110010, 0xD3], .orlCBit 0xD3),
   ([0b10100000, 0xD3], .orlCNotBit 0xD3),
   ([0b10100010, 0xD3], .movCBit 0xD3),
   ([0b10010010, 0xD3], .movBitC 0xD3)]

theorem test_decode_boolean : booleanWords.all (fun p => decodesTo p.1 p.2) = true := by decide +kernel

/-- Words of the forms of 44_program_control.md, bit by bit: rrr = 101, i = 1, aaa = 011, d = 30H, k = 7AH, b = D3H, e = FBH. -/
def controlWords : List (List Byte × Instr) :=
  [([0b01110001, 0x45], .acall 0x345),
   ([0b00010010, 0x12, 0x34], .lcall 0x1234),
   ([0b00100010], .ret),
   ([0b00110010], .reti),
   ([0b01100001, 0x45], .ajmp 0x345),
   ([0b00000010, 0x12, 0x34], .ljmp 0x1234),
   ([0b10000000, 0xFB], .sjmp 0xFB),
   ([0b01110011], .jmpADptr),
   ([0b01100000, 0xFB], .jz 0xFB),
   ([0b01110000, 0xFB], .jnz 0xFB),
   ([0b01000000, 0xFB], .jc 0xFB),
   ([0b01010000, 0xFB], .jnc 0xFB),
   ([0b00100000, 0xD3, 0xFB], .jb 0xD3 0xFB),
   ([0b00110000, 0xD3, 0xFB], .jnb 0xD3 0xFB),
   ([0b00010000, 0xD3, 0xFB], .jbc 0xD3 0xFB),
   ([0b10110101, 0x30, 0xFB], .cjneADirect 0x30 0xFB),
   ([0b10110100, 0x7A, 0xFB], .cjneAImm 0x7A 0xFB),
   ([0b10111101, 0x7A, 0xFB], .cjneRnImm 5 0x7A 0xFB),
   ([0b10110111, 0x7A, 0xFB], .cjneIndImm 1 0x7A 0xFB),
   ([0b11011101, 0xFB], .djnzRn 5 0xFB),
   ([0b11010101, 0x30, 0xFB], .djnzDirect 0x30 0xFB),
   ([0b00000000], .nop)]

theorem test_decode_control : controlWords.all (fun p => decodesTo p.1 p.2) = true := by decide +kernel

/-- One instruction of each form. -/
def allForms : List Instr :=
  (arithmeticWords ++ logicWords ++ transferWords ++ booleanWords ++ controlWords).map fun p => p.2

/-- The totals that 70_reset_and_hazards.md rule R297 prints. -/
theorem test_totals : allForms.countP (fun i => i.len == 1) = 49 ∧ allForms.countP (fun i => i.len == 2) = 46 ∧
    allForms.countP (fun i => i.len == 3) = 16 ∧ allForms.countP (fun i => i.cycles == 1) = 64 ∧
    allForms.countP (fun i => i.cycles == 2) = 45 ∧ allForms.countP (fun i => i.cycles == 4) = 2 := by decide +kernel

/-- The first bytes that 30_encoding.md rule R103 lists as three bytes long. -/
theorem test_three_byte_forms :
    ([0x02, 0x10, 0x12, 0x20, 0x30, 0x43, 0x53, 0x63, 0x75, 0x85, 0x90, 0xD5] ++
      (List.range 12).map fun n => BitVec.ofNat 8 (0xB4 + n)).all (fun op => opLength op == some 3) = true := by
  decide +kernel

theorem test_decode_needs_every_byte : decode [0x24] = .error .truncated ∧ decode [] = .error .truncated ∧
    decode [0x12, 0x34] = .error .truncated := ⟨rfl, rfl, rfl⟩

/-- A second operand byte is read from the third byte: bit 0 of the table's number is in the first byte. -/
theorem test_table_word : decodeTableWord 24 0xA09085 = some (.movDirectDirect 0x90 0xA0) ∧
    decodeTableWord 8 0x85 = some (.movDirectDirect 0x00 0x00) ∧ decodeTableWord 16 0xE0E5 = none := by decide +kernel

/-- An interrupt source that is pending while its number requests, and whose acknowledgement withdraws that. -/
def source (id : Nat) (vector : Word) (level : Nat) : IrqSource :=
  ⟨id, vector, level, .rule true [], .change ⟨[], [id], []⟩⟩

/-- It runs where an interrupt would come first, and where the run would be over. -/
theorem test_withFetchWord_first :
    (match step ({ State.resetWith .ofR40 { Platform.default with
          irqSources := [source 0 0x0003 0], irqLevels := 1, endOfRun := .never } with
        requests := [0] }.withFetchWord 16 0xFE80) with
      | .next t => t.pc == 0x0000 && t.sp == 0x07
      | _ => false) = true ∧
    (match step ((State.resetWith .ofR40 { Platform.default with endOfRun := .selfLoop }).withFetchWord 16 0xFE80) with
      | .next t => t.pc == 0x0000
      | _ => false) = true := by decide +kernel

/-- An instruction placed with withFetchWord is the next one to run, at the top of program memory too. -/
theorem test_withFetchWord : (match step ({ State.reset with pc := 0xFFFF }.withFetchWord 16 0x5A74) with
    | .next t => t.a == 0x5A && t.pc == 0x0001
    | _ => false) = true := by decide +kernel

/-! ### One step -/

/-- The start that 95_test_vectors.md section 2 gives its vectors: the reset values, no internal RAM written, the bytes at
0100H; the P0 latch is left by MOVX (P0_XBUS unchanged), as there. -/
def start (bytes : List Byte) : State :=
  { State.resetWith .ofR40 { Platform.default with p0Xbus := .unchanged } with
    pc := 0x0100, code := placeCode [] 0x0100 bytes }

/-- Does one step answer a next state with the property? -/
def after (s : State) (p : State → Bool) : Bool :=
  match step s with
  | .next t => p t
  | .fault _ => false
  | .refused _ => false

/-- Does internal RAM hold this byte at this address? -/
def cell (t : State) (a : Nat) (v : Byte) : Bool := t.iram.read a == some v

/-- 95_test_vectors.md section 2: 25 E0 ADD A,E0H, A = 81H: A = 02H; C = 1, AC = 0, OV = 1; PC = 0102H -/
theorem test_step_addDirect :
    after { start [0x25, 0xE0] with a := 0x81 }
      (fun t => t.a == 0x02 && t.psw == 0x84 && t.pc == 0x0102) = true := by decide +kernel

/-- 95_test_vectors.md section 2: 27 ADD A,@R1, A = 01H, R1 = 30H, IRAM[30H] = 7FH: A = 80H; C = 0, AC = 1, OV = 1; PC = 0101H -/
theorem test_step_addInd :
    after { start [0x27] with a := 0x01, iram := [(0x01, 0x30), (0x30, 0x7F)] }
      (fun t => t.a == 0x80 && t.psw == 0x44 && t.pc == 0x0101) = true := by decide +kernel

/-- 95_test_vectors.md section 2: 24 FF ADD A,#FFH, A = FFH, C = 1: A = FEH; C = 1, AC = 1, OV = 0; PC = 0102H -/
theorem test_step_addImm :
    after { start [0x24, 0xFF] with a := 0xFF, psw := 0x80 }
      (fun t => t.a == 0xFE && t.psw == 0xC0 && t.pc == 0x0102) = true := by decide +kernel

/-- 95_test_vectors.md section 2: 35 30 ADDC A,30H, A = 80H, IRAM[30H] = 7FH, C = 1: A = 00H; C = 1, AC = 1, OV = 0; PC = 0102H -/
theorem test_step_addcDirect :
    after { start [0x35, 0x30] with a := 0x80, psw := 0x80, iram := [(0x30, 0x7F)] }
      (fun t => t.a == 0x00 && t.psw == 0xC0 && t.pc == 0x0102) = true := by decide +kernel

/-- 95_test_vectors.md section 2: 36 ADDC A,@R0, A = 40H, R0 = 30H, IRAM[30H] = 40H, C = 0: A = 80H; C = 0, AC = 0, OV = 1; PC = 0101H -/
theorem test_step_addcInd :
    after { start [0x36] with a := 0x40, iram := [(0x00, 0x30), (0x30, 0x40)] }
      (fun t => t.a == 0x80 && t.psw == 0x04 && t.pc == 0x0101) = true := by decide +kernel

/-- 95_test_vectors.md section 2: 34 FF ADDC A,#FFH, A = FFH, C = 1: A = FFH; C = 1, AC = 1, OV = 0; PC = 0102H -/
theorem test_step_addcImm :
    after { start [0x34, 0xFF] with a := 0xFF, psw := 0x80 }
      (fun t => t.a == 0xFF && t.psw == 0xC0 && t.pc == 0x0102) = true := by decide +kernel

/-- 95_test_vectors.md section 2: 9F SUBB A,R7, A = 05H, R7 = 05H, C = 0: A = 00H; C = 0, AC = 0, OV = 0; PC = 0101H -/
theorem test_step_subbRn :
    after { start [0x9F] with a := 0x05, iram := [(0x07, 0x05)] }
      (fun t => t.a == 0x00 && t.psw == 0x00 && t.pc == 0x0101) = true := by decide +kernel

/-- 95_test_vectors.md section 2: 95 30 SUBB A,30H, A = 50H, IRAM[30H] = 20H, C = 1: A = 2FH; C = 0, AC = 1, OV = 0; PC = 0102H -/
theorem test_step_subbDirect :
    after { start [0x95, 0x30] with a := 0x50, psw := 0x80, iram := [(0x30, 0x20)] }
      (fun t => t.a == 0x2F && t.psw == 0x40 && t.pc == 0x0102) = true := by decide +kernel

/-- 95_test_vectors.md section 2: 97 SUBB A,@R1, A = 00H, R1 = 31H, IRAM[31H] = FFH, C = 1: A = 00H; C = 1, AC = 1, OV = 0; PC = 0101H -/
theorem test_step_subbInd :
    after { start [0x97] with psw := 0x80, iram := [(0x01, 0x31), (0x31, 0xFF)] }
      (fun t => t.a == 0x00 && t.psw == 0xC0 && t.pc == 0x0101) = true := by decide +kernel

/-- 95_test_vectors.md section 2: 94 FF SUBB A,#FFH, A = 7FH, C = 0: A = 80H; C = 1, AC = 0, OV = 1; PC = 0102H -/
theorem test_step_subbImm :
    after { start [0x94, 0xFF] with a := 0x7F }
      (fun t => t.a == 0x80 && t.psw == 0x84 && t.pc == 0x0102) = true := by decide +kernel

/-- 95_test_vectors.md section 2: 04 INC A, A = FFH, PSW = 00H: A = 00H; C = 0, AC = 0, OV = 0; PC = 0101H -/
theorem test_step_incA :
    after { start [0x04] with a := 0xFF }
      (fun t => t.a == 0x00 && t.psw == 0x00 && t.pc == 0x0101) = true := by decide +kernel

/-- 95_test_vectors.md section 2: 0F INC R7, R7 = 7FH: IRAM[07H] = 80H; PC = 0101H -/
theorem test_step_incRn :
    after { start [0x0F] with iram := [(0x07, 0x7F)] }
      (fun t => cell t 0x07 0x80 && t.pc == 0x0101) = true := by decide +kernel

/-- 95_test_vectors.md section 2: 05 90 INC 90H, P1 latch = 0FH, P1 pins = 00H: P1 latch = 10H; PC = 0102H -/
theorem test_step_incDirect :
    after { start [0x05, 0x90] with latch := ⟨0xFF, 0x0F, 0xFF, 0xFF⟩, pins := ⟨0xFF, 0x00, 0xFF, 0xFF⟩ }
      (fun t => t.latch.p1 == 0x10 && t.pc == 0x0102) = true := by decide +kernel

/-- 95_test_vectors.md section 2: 06 INC @R0, R0 = 00H: IRAM[00H] = 01H; PC = 0101H -/
theorem test_step_incInd :
    after { start [0x06] with iram := [(0x00, 0x00)] }
      (fun t => cell t 0x00 0x01 && t.pc == 0x0101) = true := by decide +kernel

/-- 95_test_vectors.md section 2: 14 DEC A, A = 00H, PSW = 80H: A = FFH; C = 1, AC = 0, OV = 0; PC = 0101H -/
theorem test_step_decA :
    after { start [0x14] with psw := 0x80 }
      (fun t => t.a == 0xFF && t.psw == 0x80 && t.pc == 0x0101) = true := by decide +kernel

/-- 95_test_vectors.md section 2: 1A DEC R2, R2 = 00H: IRAM[02H] = FFH; PC = 0101H -/
theorem test_step_decRn :
    after { start [0x1A] with iram := [(0x02, 0x00)] }
      (fun t => cell t 0x02 0xFF && t.pc == 0x0101) = true := by decide +kernel

/-- 95_test_vectors.md section 2: 15 B0 DEC B0H, P3 latch = 80H, P3 pins = 00H: P3 latch = 7FH; PC = 0102H -/
theorem test_step_decDirect :
    after { start [0x15, 0xB0] with latch := ⟨0xFF, 0xFF, 0xFF, 0x80⟩, pins := ⟨0xFF, 0xFF, 0xFF, 0x00⟩ }
      (fun t => t.latch.p3 == 0x7F && t.pc == 0x0102) = true := by decide +kernel

/-- 95_test_vectors.md section 2: 17 DEC @R1, R1 = 7FH, IRAM[7FH] = 80H: IRAM[7FH] = 7FH; PC = 0101H -/
theorem test_step_decInd :
    after { start [0x17] with iram := [(0x01, 0x7F), (0x7F, 0x80)] }
      (fun t => cell t 0x7F 0x7F && t.pc == 0x0101) = true := by decide +kernel

/-- 95_test_vectors.md section 2: A3 INC DPTR, DPTR = FFFFH: A = 00H; DPTR = 0000H; C = 0, AC = 0, OV = 0; PC = 0101H -/
theorem test_step_incDptr :
    after { start [0xA3] with dph := 0xFF, dpl := 0xFF }
      (fun t => t.a == 0x00 && t.dph == 0x00 && t.dpl == 0x00 && t.psw == 0x00 && t.pc == 0x0101) = true := by decide +kernel

/-- 95_test_vectors.md section 2: A4 MUL AB, A = FFH, B = FFH: A = 01H; B = FEH; C = 0, AC = 0, OV = 1; PC = 0101H -/
theorem test_step_mulAb :
    after { start [0xA4] with a := 0xFF, b := 0xFF }
      (fun t => t.a == 0x01 && t.b == 0xFE && t.psw == 0x04 && t.pc == 0x0101) = true := by decide +kernel

/-- 95_test_vectors.md section 2: 84 DIV AB, A = FFH, B = FFH: A = 01H; B = 00H; C = 0, AC = 0, OV = 0; PC = 0101H -/
theorem test_step_divAb :
    after { start [0x84] with a := 0xFF, b := 0xFF }
      (fun t => t.a == 0x01 && t.b == 0x00 && t.psw == 0x00 && t.pc == 0x0101) = true := by decide +kernel

/-- 95_test_vectors.md section 2: D4 DA A, A = FFH: A = 65H; C = 1, AC = 0, OV = 0; PC = 0101H -/
theorem test_step_daA :
    after { start [0xD4] with a := 0xFF }
      (fun t => t.a == 0x65 && t.psw == 0x80 && t.pc == 0x0101) = true := by decide +kernel

/-- 95_test_vectors.md section 2: 55 90 ANL A,90H, A = FFH, P1 latch = 00H, P1 pins = 5AH: A = 5AH; PC = 0102H -/
theorem test_step_anlADirect :
    after { start [0x55, 0x90] with a := 0xFF, latch := ⟨0xFF, 0x00, 0xFF, 0xFF⟩, pins := ⟨0xFF, 0x5A, 0xFF, 0xFF⟩ }
      (fun t => t.a == 0x5A && t.pc == 0x0102) = true := by decide +kernel

/-- 95_test_vectors.md section 2: 56 ANL A,@R0, A = F0H, R0 = 30H, IRAM[30H] = 3CH: A = 30H; PC = 0101H -/
theorem test_step_anlAInd :
    after { start [0x56] with a := 0xF0, iram := [(0x00, 0x30), (0x30, 0x3C)] }
      (fun t => t.a == 0x30 && t.pc == 0x0101) = true := by decide +kernel

/-- 95_test_vectors.md section 2: 54 0F ANL A,#0FH, A = A5H, PSW = C4H: A = 05H; C = 1, AC = 1, OV = 1; PC = 0102H -/
theorem test_step_anlAImm :
    after { start [0x54, 0x0F] with a := 0xA5, psw := 0xC4 }
      (fun t => t.a == 0x05 && t.psw == 0xC4 && t.pc == 0x0102) = true := by decide +kernel

/-- 95_test_vectors.md section 2: 52 90 ANL 90H,A, A = 0FH, P1 latch = AAH, P1 pins = 00H: P1 latch = 0AH; PC = 0102H -/
theorem test_step_anlDirectA :
    after { start [0x52, 0x90] with a := 0x0F, latch := ⟨0xFF, 0xAA, 0xFF, 0xFF⟩, pins := ⟨0xFF, 0x00, 0xFF, 0xFF⟩ }
      (fun t => t.latch.p1 == 0x0A && t.pc == 0x0102) = true := by decide +kernel

/-- 95_test_vectors.md section 2: 53 D0 7F ANL D0H,#7FH, PSW = C5H: C = 0; PC = 0103H -/
theorem test_step_anlDirectImm :
    after { start [0x53, 0xD0, 0x7F] with psw := 0xC4 }
      (fun t => t.psw == 0x44 && t.pc == 0x0103) = true := by decide +kernel

/-- 95_test_vectors.md section 2: 45 30 ORL A,30H, A = 11H, IRAM[30H] = 22H: A = 33H; PC = 0102H -/
theorem test_step_orlADirect :
    after { start [0x45, 0x30] with a := 0x11, iram := [(0x30, 0x22)] }
      (fun t => t.a == 0x33 && t.pc == 0x0102) = true := by decide +kernel

/-- 95_test_vectors.md section 2: 47 ORL A,@R1, A = 00H, R1 = 30H, IRAM[30H] = 00H: PC = 0101H -/
theorem test_step_orlAInd :
    after { start [0x47] with iram := [(0x01, 0x30), (0x30, 0x00)] }
      (fun t => t.pc == 0x0101) = true := by decide +kernel

/-- 95_test_vectors.md section 2: 44 80 ORL A,#80H, A = 01H: A = 81H; PC = 0102H -/
theorem test_step_orlAImm :
    after { start [0x44, 0x80] with a := 0x01 }
      (fun t => t.a == 0x81 && t.pc == 0x0102) = true := by decide +kernel

/-- 95_test_vectors.md section 2: 42 A0 ORL A0H,A, A = 01H, P2 latch = 10H, P2 pins = 00H: P2 latch = 11H; PC = 0102H -/
theorem test_step_orlDirectA :
    after { start [0x42, 0xA0] with a := 0x01, latch := ⟨0xFF, 0xFF, 0x10, 0xFF⟩, pins := ⟨0xFF, 0xFF, 0x00, 0xFF⟩ }
      (fun t => t.latch.p2 == 0x11 && t.pc == 0x0102) = true := by decide +kernel

/-- 95_test_vectors.md section 2: 43 D0 18 ORL D0H,#18H, PSW = 00H: PSW = 18H; PC = 0103H -/
theorem test_step_orlDirectImm :
    after (start [0x43, 0xD0, 0x18])
      (fun t => t.psw == 0x18 && t.pc == 0x0103) = true := by decide +kernel

/-- 95_test_vectors.md section 2: 65 E0 XRL A,E0H, A = 5AH: A = 00H; PC = 0102H -/
theorem test_step_xrlADirect :
    after { start [0x65, 0xE0] with a := 0x5A }
      (fun t => t.a == 0x00 && t.pc == 0x0102) = true := by decide +kernel

/-- 95_test_vectors.md section 2: 66 XRL A,@R0, A = FFH, R0 = 30H, IRAM[30H] = 0FH: A = F0H; PC = 0101H -/
theorem test_step_xrlAInd :
    after { start [0x66] with a := 0xFF, iram := [(0x00, 0x30), (0x30, 0x0F)] }
      (fun t => t.a == 0xF0 && t.pc == 0x0101) = true := by decide +kernel

/-- 95_test_vectors.md section 2: 64 FF XRL A,#FFH, A = 5AH: A = A5H; PC = 0102H -/
theorem test_step_xrlAImm :
    after { start [0x64, 0xFF] with a := 0x5A }
      (fun t => t.a == 0xA5 && t.pc == 0x0102) = true := by decide +kernel

/-- 95_test_vectors.md section 2: 62 80 XRL 80H,A, A = FFH, P0 latch = 55H, P0 pins = FFH: P0 latch = AAH; PC = 0102H -/
theorem test_step_xrlDirectA :
    after { start [0x62, 0x80] with a := 0xFF, latch := ⟨0x55, 0xFF, 0xFF, 0xFF⟩ }
      (fun t => t.latch.p0 == 0xAA && t.pc == 0x0102) = true := by decide +kernel

/-- 95_test_vectors.md section 2: 63 30 81 XRL 30H,#81H, IRAM[30H] = 81H: IRAM[30H] = 00H; PC = 0103H -/
theorem test_step_xrlDirectImm :
    after { start [0x63, 0x30, 0x81] with iram := [(0x30, 0x81)] }
      (fun t => cell t 0x30 0x00 && t.pc == 0x0103) = true := by decide +kernel

/-- 95_test_vectors.md section 2: E4 CLR A, A = FFH, PSW = C4H: A = 00H; C = 1, AC = 1, OV = 1; PC = 0101H -/
theorem test_step_clrA :
    after { start [0xE4] with a := 0xFF, psw := 0xC4 }
      (fun t => t.a == 0x00 && t.psw == 0xC4 && t.pc == 0x0101) = true := by decide +kernel

/-- 95_test_vectors.md section 2: F4 CPL A, A = 00H: A = FFH; PC = 0101H -/
theorem test_step_cplA :
    after (start [0xF4])
      (fun t => t.a == 0xFF && t.pc == 0x0101) = true := by decide +kernel

/-- 95_test_vectors.md section 2: 23 RL A, A = 01H, C = 1: A = 02H; C = 1; PC = 0101H -/
theorem test_step_rlA :
    after { start [0x23] with a := 0x01, psw := 0x80 }
      (fun t => t.a == 0x02 && t.psw == 0x80 && t.pc == 0x0101) = true := by decide +kernel

/-- 95_test_vectors.md section 2: 33 RLC A, A = 80H, C = 1: A = 01H; C = 1; PC = 0101H -/
theorem test_step_rlcA :
    after { start [0x33] with a := 0x80, psw := 0x80 }
      (fun t => t.a == 0x01 && t.psw == 0x80 && t.pc == 0x0101) = true := by decide +kernel

/-- 95_test_vectors.md section 2: 03 RR A, A = 80H, C = 1: A = 40H; C = 1; PC = 0101H -/
theorem test_step_rrA :
    after { start [0x03] with a := 0x80, psw := 0x80 }
      (fun t => t.a == 0x40 && t.psw == 0x80 && t.pc == 0x0101) = true := by decide +kernel

/-- 95_test_vectors.md section 2: 13 RRC A, A = 01H, C = 0: A = 00H; C = 1; PC = 0101H -/
theorem test_step_rrcA :
    after { start [0x13] with a := 0x01 }
      (fun t => t.a == 0x00 && t.psw == 0x80 && t.pc == 0x0101) = true := by decide +kernel

/-- 95_test_vectors.md section 2: C4 SWAP A, A = F0H: A = 0FH; PC = 0101H -/
theorem test_step_swapA :
    after { start [0xC4] with a := 0xF0 }
      (fun t => t.a == 0x0F && t.pc == 0x0101) = true := by decide +kernel

/-- 95_test_vectors.md section 2: E8 MOV A,R0, R0 = 5AH: A = 5AH; PC = 0101H -/
theorem test_step_movARn :
    after { start [0xE8] with iram := [(0x00, 0x5A)] }
      (fun t => t.a == 0x5A && t.pc == 0x0101) = true := by decide +kernel

/-- 95_test_vectors.md section 2: E5 90 MOV A,90H, P1 latch = FFH, P1 pins = 3CH: A = 3CH; PC = 0102H -/
theorem test_step_movADirect :
    after { start [0xE5, 0x90] with pins := ⟨0xFF, 0x3C, 0xFF, 0xFF⟩ }
      (fun t => t.a == 0x3C && t.pc == 0x0102) = true := by decide +kernel

/-- 95_test_vectors.md section 2: E7 MOV A,@R1, R1 = 80H, IRAM[80H] = 99H: A = 99H; PC = 0101H -/
theorem test_step_movAInd :
    after { start [0xE7] with iram := [(0x01, 0x80), (0x80, 0x99)] }
      (fun t => t.a == 0x99 && t.pc == 0x0101) = true := by decide +kernel

/-- 95_test_vectors.md section 2: 74 00 MOV A,#00H, A = FFH: A = 00H; PC = 0102H -/
theorem test_step_movAImm :
    after { start [0x74, 0x00] with a := 0xFF }
      (fun t => t.a == 0x00 && t.pc == 0x0102) = true := by decide +kernel

/-- 95_test_vectors.md section 2: F8 MOV R0,A, A = 77H: IRAM[00H] = 77H; PC = 0101H -/
theorem test_step_movRnA :
    after { start [0xF8] with a := 0x77 }
      (fun t => cell t 0x00 0x77 && t.pc == 0x0101) = true := by decide +kernel

/-- 95_test_vectors.md section 2: A9 30 MOV R1,30H, IRAM[30H] = 12H: IRAM[01H] = 12H; PC = 0102H -/
theorem test_step_movRnDirect :
    after { start [0xA9, 0x30] with iram := [(0x30, 0x12)] }
      (fun t => cell t 0x01 0x12 && t.pc == 0x0102) = true := by decide +kernel

/-- 95_test_vectors.md section 2: 7F FF MOV R7,#FFH, defaults: IRAM[07H] = FFH; PC = 0102H -/
theorem test_step_movRnImm :
    after (start [0x7F, 0xFF])
      (fun t => cell t 0x07 0xFF && t.pc == 0x0102) = true := by decide +kernel

/-- 95_test_vectors.md section 2: F5 D0 MOV D0H,A, A = FFH: C = 1; AC = 1; OV = 1; PSW = FEH; PC = 0102H -/
theorem test_step_movDirectA :
    after { start [0xF5, 0xD0] with a := 0xFF }
      (fun t => t.psw == 0xFE && t.pc == 0x0102) = true := by decide +kernel

/-- 95_test_vectors.md section 2: 88 30 MOV 30H,R0, R0 = 11H: IRAM[30H] = 11H; PC = 0102H -/
theorem test_step_movDirectRn :
    after { start [0x88, 0x30] with iram := [(0x00, 0x11)] }
      (fun t => cell t 0x30 0x11 && t.pc == 0x0102) = true := by decide +kernel

/-- 95_test_vectors.md section 2: 85 30 40 MOV 40H,30H, IRAM[30H] = ABH: IRAM[40H] = ABH; PC = 0103H -/
theorem test_step_movDirectDirect :
    after { start [0x85, 0x30, 0x40] with iram := [(0x30, 0xAB)] }
      (fun t => cell t 0x40 0xAB && t.pc == 0x0103) = true := by decide +kernel

/-- 95_test_vectors.md section 2: 86 40 MOV 40H,@R0, R0 = 30H, IRAM[30H] = 66H: IRAM[40H] = 66H; PC = 0102H -/
theorem test_step_movDirectInd :
    after { start [0x86, 0x40] with iram := [(0x00, 0x30), (0x30, 0x66)] }
      (fun t => cell t 0x40 0x66 && t.pc == 0x0102) = true := by decide +kernel

/-- 95_test_vectors.md section 2: 75 81 3F MOV 81H,#3FH, defaults: SP = 3FH; PC = 0103H -/
theorem test_step_movDirectImm :
    after (start [0x75, 0x81, 0x3F])
      (fun t => t.sp == 0x3F && t.pc == 0x0103) = true := by decide +kernel

/-- 95_test_vectors.md section 2: F6 MOV @R0,A, A = EEH, R0 = 00H: IRAM[00H] = EEH; PC = 0101H -/
theorem test_step_movIndA :
    after { start [0xF6] with a := 0xEE, iram := [(0x00, 0x00)] }
      (fun t => cell t 0x00 0xEE && t.pc == 0x0101) = true := by decide +kernel

/-- 95_test_vectors.md section 2: A7 31 MOV @R1,31H, R1 = 40H, IRAM[31H] = 09H: IRAM[40H] = 09H; PC = 0102H -/
theorem test_step_movIndDirect :
    after { start [0xA7, 0x31] with iram := [(0x01, 0x40), (0x31, 0x09)] }
      (fun t => cell t 0x40 0x09 && t.pc == 0x0102) = true := by decide +kernel

/-- 95_test_vectors.md section 2: 76 5A MOV @R0,#5AH, R0 = FFH: IRAM[FFH] = 5AH; PC = 0102H -/
theorem test_step_movIndImm :
    after { start [0x76, 0x5A] with iram := [(0x00, 0xFF)] }
      (fun t => cell t 0xFF 0x5A && t.pc == 0x0102) = true := by decide +kernel

/-- 95_test_vectors.md section 2: 90 FF 00 MOV DPTR,#FF00H, defaults: DPTR = FF00H; PC = 0103H -/
theorem test_step_movDptr :
    after (start [0x90, 0xFF, 0x00])
      (fun t => t.dph == 0xFF && t.dpl == 0x00 && t.pc == 0x0103) = true := by decide +kernel

/-- 95_test_vectors.md section 2: 93 MOVC A,@A+DPTR, A = 02H, DPTR = FFFFH: A = 7DH; PC = 0101H -/
theorem test_step_movcDptr :
    after { start [0x93] with a := 0x02, dph := 0xFF, dpl := 0xFF, code := [(0x0001, 0x7D), (0x0100, 0x93)] }
      (fun t => t.a == 0x7D && t.pc == 0x0101) = true := by decide +kernel

/-- 95_test_vectors.md section 2: 83 MOVC A,@A+PC, at FFFEH; A = FFH: A = 42H; PC = FFFFH -/
theorem test_step_movcPc :
    after { start [0x83] with a := 0xFF, pc := 0xFFFE, code := [(0x00FE, 0x42), (0xFFFE, 0x83)] }
      (fun t => t.a == 0x42 && t.pc == 0xFFFF) = true := by decide +kernel

/-- 95_test_vectors.md section 2: E2 MOVX A,@R0, R0 = 34H, P2 latch = 12H, XDATA[1234H] = 77H: A = 77H; PC = 0101H -/
theorem test_step_movxAInd :
    after { start [0xE2] with latch := ⟨0xFF, 0xFF, 0x12, 0xFF⟩, iram := [(0x00, 0x34)], xdata := [(0x1234, 0x77)] }
      (fun t => t.a == 0x77 && t.pc == 0x0101) = true := by decide +kernel

/-- 95_test_vectors.md section 2: E0 MOVX A,@DPTR, DPTR = 1234H, XDATA[1234H] = A5H: A = A5H; PC = 0101H -/
theorem test_step_movxADptr :
    after { start [0xE0] with dph := 0x12, dpl := 0x34, xdata := [(0x1234, 0xA5)] }
      (fun t => t.a == 0xA5 && t.pc == 0x0101) = true := by decide +kernel

/-- 95_test_vectors.md section 2: F3 MOVX @R1,A, A = 01H, R1 = 00H, P2 latch = 00H: XDATA[0000H] = 01H; PC = 0101H -/
theorem test_step_movxIndA :
    after { start [0xF3] with a := 0x01, latch := ⟨0xFF, 0xFF, 0x00, 0xFF⟩, iram := [(0x01, 0x00)] }
      (fun t => t.xdata.read 0x0000 == some 0x01 && t.pc == 0x0101) = true := by decide +kernel

/-- 95_test_vectors.md section 2: F0 MOVX @DPTR,A, A = 5AH, DPTR = FFFFH: XDATA[FFFFH] = 5AH; PC = 0101H -/
theorem test_step_movxDptrA :
    after { start [0xF0] with a := 0x5A, dph := 0xFF, dpl := 0xFF }
      (fun t => t.xdata.read 0xFFFF == some 0x5A && t.pc == 0x0101) = true := by decide +kernel

/-- 95_test_vectors.md section 2: C0 90 PUSH 90H, P1 latch = 0FH, P1 pins = F0H, SP = 07H: SP = 08H; IRAM[08H] = F0H; PC = 0102H -/
theorem test_step_push :
    after { start [0xC0, 0x90] with latch := ⟨0xFF, 0x0F, 0xFF, 0xFF⟩, pins := ⟨0xFF, 0xF0, 0xFF, 0xFF⟩ }
      (fun t => t.sp == 0x08 && cell t 0x08 0xF0 && t.pc == 0x0102) = true := by decide +kernel

/-- 95_test_vectors.md section 2: D0 D0 POP D0H, SP = 08H, IRAM[08H] = 99H: SP = 07H; C = 1; PSW = 98H; PC = 0102H -/
theorem test_step_pop :
    after { start [0xD0, 0xD0] with sp := 0x08, iram := [(0x08, 0x99)] }
      (fun t => t.sp == 0x07 && t.psw == 0x98 && t.pc == 0x0102) = true := by decide +kernel

/-- 95_test_vectors.md section 2: C8 XCH A,R0, A = 12H, R0 = 34H: A = 34H; IRAM[00H] = 12H; PC = 0101H -/
theorem test_step_xchRn :
    after { start [0xC8] with a := 0x12, iram := [(0x00, 0x34)] }
      (fun t => t.a == 0x34 && cell t 0x00 0x12 && t.pc == 0x0101) = true := by decide +kernel

/-- 95_test_vectors.md section 2: C5 90 XCH A,90H, A = 0FH, P1 latch = FFH, P1 pins = 3CH: A = 3CH; P1 latch = 0FH; PC = 0102H -/
theorem test_step_xchDirect :
    after { start [0xC5, 0x90] with a := 0x0F, pins := ⟨0xFF, 0x3C, 0xFF, 0xFF⟩ }
      (fun t => t.a == 0x3C && t.latch.p1 == 0x0F && t.pc == 0x0102) = true := by decide +kernel

/-- 95_test_vectors.md section 2: C7 XCH A,@R1, A = ABH, R1 = 30H, IRAM[30H] = CDH: A = CDH; IRAM[30H] = ABH; PC = 0101H -/
theorem test_step_xchInd :
    after { start [0xC7] with a := 0xAB, iram := [(0x01, 0x30), (0x30, 0xCD)] }
      (fun t => t.a == 0xCD && cell t 0x30 0xAB && t.pc == 0x0101) = true := by decide +kernel

/-- 95_test_vectors.md section 2: D7 XCHD A,@R1, A = ABH, R1 = 30H, IRAM[30H] = CDH: A = ADH; IRAM[30H] = CBH; PC = 0101H -/
theorem test_step_xchd :
    after { start [0xD7] with a := 0xAB, iram := [(0x01, 0x30), (0x30, 0xCD)] }
      (fun t => t.a == 0xAD && cell t 0x30 0xCB && t.pc == 0x0101) = true := by decide +kernel

/-- 95_test_vectors.md section 2: C3 CLR C, PSW = C4H: C = 0, AC = 1, OV = 1; PC = 0101H -/
theorem test_step_clrC :
    after { start [0xC3] with psw := 0xC4 }
      (fun t => t.psw == 0x44 && t.pc == 0x0101) = true := by decide +kernel

/-- 95_test_vectors.md section 2: C2 00 CLR 00H, IRAM[20H] = FFH: IRAM[20H] = FEH; PC = 0102H -/
theorem test_step_clrBit :
    after { start [0xC2, 0x00] with iram := [(0x20, 0xFF)] }
      (fun t => cell t 0x20 0xFE && t.pc == 0x0102) = true := by decide +kernel

/-- 95_test_vectors.md section 2: D3 SETB C, defaults: C = 1; PC = 0101H -/
theorem test_step_setbC :
    after (start [0xD3])
      (fun t => t.psw == 0x80 && t.pc == 0x0101) = true := by decide +kernel

/-- 95_test_vectors.md section 2: D2 3A SETB 3AH, IRAM[27H] = 00H: IRAM[27H] = 04H; PC = 0102H -/
theorem test_step_setbBit :
    after { start [0xD2, 0x3A] with iram := [(0x27, 0x00)] }
      (fun t => cell t 0x27 0x04 && t.pc == 0x0102) = true := by decide +kernel

/-- 95_test_vectors.md section 2: B3 CPL C, C = 1: C = 0; PC = 0101H -/
theorem test_step_cplC :
    after { start [0xB3] with psw := 0x80 }
      (fun t => t.psw == 0x00 && t.pc == 0x0101) = true := by decide +kernel

/-- 95_test_vectors.md section 2: B2 90 CPL 90H, P1 latch = 00H, P1 pins = FFH: P1 latch = 01H; PC = 0102H -/
theorem test_step_cplBit :
    after { start [0xB2, 0x90] with latch := ⟨0xFF, 0x00, 0xFF, 0xFF⟩ }
      (fun t => t.latch.p1 == 0x01 && t.pc == 0x0102) = true := by decide +kernel

/-- 95_test_vectors.md section 2: 82 90 ANL C,90H, C = 1, P1 latch = FFH, P1 pins = FEH: C = 0; PC = 0102H -/
theorem test_step_anlCBit :
    after { start [0x82, 0x90] with psw := 0x80, pins := ⟨0xFF, 0xFE, 0xFF, 0xFF⟩ }
      (fun t => t.psw == 0x00 && t.pc == 0x0102) = true := by decide +kernel

/-- 95_test_vectors.md section 2: B0 00 ANL C,/00H, C = 1, IRAM[20H] = 00H: C = 1; PC = 0102H -/
theorem test_step_anlCNotBit :
    after { start [0xB0, 0x00] with psw := 0x80, iram := [(0x20, 0x00)] }
      (fun t => t.psw == 0x80 && t.pc == 0x0102) = true := by decide +kernel

/-- 95_test_vectors.md section 2: 72 07 ORL C,07H, C = 0, IRAM[20H] = 80H: C = 1; PC = 0102H -/
theorem test_step_orlCBit :
    after { start [0x72, 0x07] with iram := [(0x20, 0x80)] }
      (fun t => t.psw == 0x80 && t.pc == 0x0102) = true := by decide +kernel

/-- 95_test_vectors.md section 2: A0 D7 ORL C,/D7H, C = 0: C = 1; PC = 0102H -/
theorem test_step_orlCNotBit :
    after (start [0xA0, 0xD7])
      (fun t => t.psw == 0x80 && t.pc == 0x0102) = true := by decide +kernel

/-- 95_test_vectors.md section 2: A2 B7 MOV C,B7H, P3 pins = 7FH, P3 latch = FFH: C = 0; PC = 0102H -/
theorem test_step_movCBit :
    after { start [0xA2, 0xB7] with pins := ⟨0xFF, 0xFF, 0xFF, 0x7F⟩ }
      (fun t => t.psw == 0x00 && t.pc == 0x0102) = true := by decide +kernel

/-- 95_test_vectors.md section 2: 92 97 MOV 97H,C, C = 0, P1 latch = FFH, P1 pins = 00H: P1 latch = 7FH; PC = 0102H -/
theorem test_step_movBitC :
    after { start [0x92, 0x97] with pins := ⟨0xFF, 0x00, 0xFF, 0xFF⟩ }
      (fun t => t.latch.p1 == 0x7F && t.pc == 0x0102) = true := by decide +kernel

/-- 95_test_vectors.md section 2: F1 FF ACALL 07FFH, at 0000H; SP = 07H: SP = 09H; IRAM[08H] = 02H; IRAM[09H] = 00H; PC = 07FFH -/
theorem test_step_acall :
    after { start [0xF1, 0xFF] with pc := 0x0000, code := [(0x0000, 0xF1), (0x0001, 0xFF)] }
      (fun t => t.sp == 0x09 && cell t 0x08 0x02 && cell t 0x09 0x00 && t.pc == 0x07FF) = true := by decide +kernel

/-- 95_test_vectors.md section 2: 12 FF FE LCALL FFFEH, at FFFDH; SP = 07H: SP = 09H; IRAM[08H] = 00H; IRAM[09H] = 00H; PC = FFFEH -/
theorem test_step_lcall :
    after { start [0x12, 0xFF, 0xFE] with pc := 0xFFFD, code := [(0xFFFD, 0x12), (0xFFFE, 0xFF), (0xFFFF, 0xFE)] }
      (fun t => t.sp == 0x09 && cell t 0x08 0x00 && cell t 0x09 0x00 && t.pc == 0xFFFE) = true := by decide +kernel

/-- 95_test_vectors.md section 2: 22 RET, SP = 01H, IRAM[01H] = ABH, IRAM[00H] = CDH: SP = FFH; PC = ABCDH -/
theorem test_step_ret :
    after { start [0x22] with sp := 0x01, iram := [(0x00, 0xCD), (0x01, 0xAB)] }
      (fun t => t.sp == 0xFF && t.pc == 0xABCD) = true := by decide +kernel

/-- 95_test_vectors.md section 2: 32 RETI, SP = 09H, IRAM[09H] = 02H, IRAM[08H] = 00H, InService = (0, 1): SP = 07H; InService = (0); RetiShadow = true; PC = 0200H -/
theorem test_step_reti :
    after { start [0x32] with sp := 0x09, iram := [(0x08, 0x00), (0x09, 0x02)], inService := [1, 0] }
      (fun t => t.sp == 0x07 && t.inService == [0] && t.retiShadow == true && t.pc == 0x0200) = true := by decide +kernel

/-- 95_test_vectors.md section 2: E1 FF AJMP 17FFH, at 1000H; defaults: PC = 17FFH -/
theorem test_step_ajmp :
    after { start [0xE1, 0xFF] with pc := 0x1000, code := [(0x1000, 0xE1), (0x1001, 0xFF)] }
      (fun t => t.pc == 0x17FF) = true := by decide +kernel

/-- 95_test_vectors.md section 2: 02 00 00 LJMP 0000H, at 8000H; defaults: PC = 0000H -/
theorem test_step_ljmp :
    after { start [0x02, 0x00, 0x00] with pc := 0x8000, code := [(0x8000, 0x02), (0x8001, 0x00), (0x8002, 0x00)] }
      (fun t => t.pc == 0x0000) = true := by decide +kernel

/-- 95_test_vectors.md section 2: 80 10 SJMP 000CH, at FFFAH; defaults: PC = 000CH -/
theorem test_step_sjmp :
    after { start [0x80, 0x10] with pc := 0xFFFA, code := [(0xFFFA, 0x80), (0xFFFB, 0x10)] }
      (fun t => t.pc == 0x000C) = true := by decide +kernel

/-- 95_test_vectors.md section 2: 73 JMP @A+DPTR, A = FFH, DPTR = FFFFH: PC = 00FEH -/
theorem test_step_jmpADptr :
    after { start [0x73] with a := 0xFF, dph := 0xFF, dpl := 0xFF }
      (fun t => t.pc == 0x00FE) = true := by decide +kernel

/-- 95_test_vectors.md section 2: 60 10 JZ 0112H, A = 00H: PC = 0112H -/
theorem test_step_jz :
    after (start [0x60, 0x10])
      (fun t => t.pc == 0x0112) = true := by decide +kernel

/-- 95_test_vectors.md section 2: 70 F0 JNZ 00F2H, A = 00H: PC = 0102H -/
theorem test_step_jnz :
    after (start [0x70, 0xF0])
      (fun t => t.pc == 0x0102) = true := by decide +kernel

/-- 95_test_vectors.md section 2: 40 05 JC 0107H, C = 1: PC = 0107H -/
theorem test_step_jc :
    after { start [0x40, 0x05] with psw := 0x80 }
      (fun t => t.pc == 0x0107) = true := by decide +kernel

/-- 95_test_vectors.md section 2: 50 05 JNC 0107H, C = 0: PC = 0107H -/
theorem test_step_jnc :
    after (start [0x50, 0x05])
      (fun t => t.pc == 0x0107) = true := by decide +kernel

/-- 95_test_vectors.md section 2: 20 90 20 JB 90H,0123H, P1 latch = FFH, P1 pins = FEH: PC = 0103H -/
theorem test_step_jb :
    after { start [0x20, 0x90, 0x20] with pins := ⟨0xFF, 0xFE, 0xFF, 0xFF⟩ }
      (fun t => t.pc == 0x0103) = true := by decide +kernel

/-- 95_test_vectors.md section 2: 30 90 20 JNB 90H,0123H, P1 latch = 00H, P1 pins = FFH: PC = 0103H -/
theorem test_step_jnb :
    after { start [0x30, 0x90, 0x20] with latch := ⟨0xFF, 0x00, 0xFF, 0xFF⟩ }
      (fun t => t.pc == 0x0103) = true := by decide +kernel

/-- 95_test_vectors.md section 2: 10 90 20 JBC 90H,0123H, P1 latch = 01H, P1 pins = 00H: P1 latch = 00H; PC = 0123H -/
theorem test_step_jbc :
    after { start [0x10, 0x90, 0x20] with latch := ⟨0xFF, 0x01, 0xFF, 0xFF⟩, pins := ⟨0xFF, 0x00, 0xFF, 0xFF⟩ }
      (fun t => t.latch.p1 == 0x00 && t.pc == 0x0123) = true := by decide +kernel

/-- 95_test_vectors.md section 2: B5 30 FD CJNE A,30H,0100H, A = 80H, IRAM[30H] = 7FH: C = 0; PC = 0100H -/
theorem test_step_cjneADirect :
    after { start [0xB5, 0x30, 0xFD] with a := 0x80, iram := [(0x30, 0x7F)] }
      (fun t => t.psw == 0x00 && t.pc == 0x0100) = true := by decide +kernel

/-- 95_test_vectors.md section 2: B4 FF 05 CJNE A,#FFH,0108H, A = 00H: C = 1; PC = 0108H -/
theorem test_step_cjneAImm :
    after (start [0xB4, 0xFF, 0x05])
      (fun t => t.psw == 0x80 && t.pc == 0x0108) = true := by decide +kernel

/-- 95_test_vectors.md section 2: B8 00 05 CJNE R0,#00H,0108H, R0 = 00H, C = 1: C = 0; PC = 0103H -/
theorem test_step_cjneRnImm :
    after { start [0xB8, 0x00, 0x05] with psw := 0x80, iram := [(0x00, 0x00)] }
      (fun t => t.psw == 0x00 && t.pc == 0x0103) = true := by decide +kernel

/-- 95_test_vectors.md section 2: B7 55 05 CJNE @R1,#55H,0108H, R1 = 30H, IRAM[30H] = 54H: C = 1; PC = 0108H -/
theorem test_step_cjneIndImm :
    after { start [0xB7, 0x55, 0x05] with iram := [(0x01, 0x30), (0x30, 0x54)] }
      (fun t => t.psw == 0x80 && t.pc == 0x0108) = true := by decide +kernel

/-- 95_test_vectors.md section 2: D8 FE DJNZ R0,0100H, R0 = 02H, PSW = 80H: C = 1, AC = 0, OV = 0; IRAM[00H] = 01H; PC = 0100H -/
theorem test_step_djnzRn :
    after { start [0xD8, 0xFE] with psw := 0x80, iram := [(0x00, 0x02)] }
      (fun t => t.psw == 0x80 && cell t 0x00 0x01 && t.pc == 0x0100) = true := by decide +kernel

/-- 95_test_vectors.md section 2: D5 90 FD DJNZ 90H,0100H, P1 latch = 01H, P1 pins = FFH: P1 latch = 00H; PC = 0103H -/
theorem test_step_djnzDirect :
    after { start [0xD5, 0x90, 0xFD] with latch := ⟨0xFF, 0x01, 0xFF, 0xFF⟩ }
      (fun t => t.latch.p1 == 0x00 && t.pc == 0x0103) = true := by decide +kernel

/-- 95_test_vectors.md section 2: 00 NOP, at FFFFH; defaults: PC = 0000H -/
theorem test_step_nop :
    after { start [0x00] with pc := 0xFFFF, code := [(0xFFFF, 0x00)] }
      (fun t => t.pc == 0x0000) = true := by decide +kernel

/-- 40_arithmetic.md rule R122, the source's example: C3H + AAH. -/
theorem test_step_addRn :
    after { start [0x28] with a := 0xC3, iram := [(0x00, 0xAA)] } (fun t => t.a == 0x6D && t.psw == 0x84) = true := by
  decide +kernel

/-- Rule R126, the source's example: C3H + AAH + 1. -/
theorem test_step_addcRn :
    after { start [0x38] with a := 0xC3, psw := 0x80, iram := [(0x00, 0xAA)] }
      (fun t => t.a == 0x6E && t.psw == 0x84) = true := by decide +kernel

/-- 41_logic.md rule R151 (90_conflicts.md C7): C3H and AAH. -/
theorem test_step_anlARn :
    after { start [0x58] with a := 0xC3, iram := [(0x00, 0xAA)] } (fun t => t.a == 0x82 && t.psw == 0x00) = true := by
  decide +kernel

/-- Rule R157, the source's example: C3H or 55H. -/
theorem test_step_orlARn :
    after { start [0x48] with a := 0xC3, iram := [(0x00, 0x55)] } (fun t => t.a == 0xD7) = true := by decide +kernel

/-- Rule R163, the source's example: C3H xor AAH. -/
theorem test_step_xrlARn :
    after { start [0x68] with a := 0xC3, iram := [(0x00, 0xAA)] } (fun t => t.a == 0x69) = true := by decide +kernel

/-- 95_test_vectors.md section 2: 84 DIV AB, B = 00H: the two bytes are free; C = 0, OV = 1, AC kept. -/
theorem test_step_divByZero :
    after { start [0x84] with a := 0x55, psw := 0xC0 } (fun t => t.psw == 0x44 && t.pc == 0x0101) = true := by
  decide +kernel

/-- 20_memory.md rule R72: with 128 cells a push from SP = 7FH is refused. -/
theorem test_step_pushAboveIram :
    (match step { start [0xC0, 0x81] with
        sp := 0x7F, plat := { Platform.default with iramSize := .cells128 } } with
      | .refused (.noSuchIramCell a) => a == 0x80
      | _ => false) = true := by decide +kernel

/-- 92_eei_decisions.md D32: bit address C8H names a bit of C8H, which is no core register. -/
theorem test_step_noSuchSfr :
    (match step (start [0xD2, 0xC8]) with
      | .refused (.noSuchSfr a) => a == 0xC8
      | _ => false) = true := by decide +kernel

/-- 10_state.md rule R41: a cell that nothing has written. -/
theorem test_step_unwritten :
    (match step (start [0xE5, 0x30]) with
      | .fault (.unwrittenIram a) => a == 0x30
      | _ => false) = true := by decide +kernel

/-! ### Interrupts (95_test_vectors.md section 2.7) -/

/-- The platform of section 2.7: s0 with vector 0003H and level 0, s1 with vector 000BH and level 1. -/
def twoSources : Platform :=
  { Platform.default with irqSources := [source 0 0x0003 0, source 1 0x000B 1], irqLevels := 2 }

/-- A program whose main part is NOPs at 0102H and whose routines are RETI. -/
def irqState : State :=
  { State.resetWith .ofR40 twoSources with
    pc := 0x0102, code := [(0x0003, 0x32), (0x000B, 0x32), (0x0102, 0x00), (0x0103, 0x00)] }

/-- Row 2: s0 is taken. -/
theorem test_irq_entry : after { irqState with requests := [0] }
    (fun t => t.sp == 0x09 && cell t 0x08 0x02 && cell t 0x09 0x01 && t.inService == [0] && t.requests == [] &&
      t.pc == 0x0003) = true := by decide +kernel

/-- Row 4: s1 is taken while s0 is in service; a request of s0 itself (row 3) waits. -/
theorem test_irq_nests :
    after { irqState with requests := [0, 1], inService := [0], sp := 0x09 }
      (fun t => t.sp == 0x0B && t.inService == [1, 0] && t.requests == [0] && t.pc == 0x000B) = true ∧
    after { irqState with requests := [0], inService := [0] } (fun t => t.pc == 0x0103 && t.inService == [0]) = true := by
  decide +kernel

/-- Rows 5 and 7: RETI takes the highest level out. -/
theorem test_irq_reti :
    after { irqState with pc := 0x000B, sp := 0x0B, iram := [(0x0A, 0x03), (0x0B, 0x00)], inService := [1, 0] }
      (fun t => t.sp == 0x09 && t.pc == 0x0003 && t.inService == [0] && t.retiShadow) = true := by decide +kernel

/-- Row 6: RetiShadow holds s1 off for one instruction, and is then false. -/
theorem test_irq_shadow :
    after { irqState with requests := [1], retiShadow := true }
      (fun t => t.pc == 0x0103 && !t.retiShadow && t.requests == [1]) = true := by decide +kernel

/-- Rule R273: an input of the environment arrives before the instruction reads a pin, and raises a request. -/
theorem test_environment_input :
    after { irqState with code := [(0x0102, 0xE5), (0x0103, 0x90)], inputs := [⟨some ⟨0, 0x5A, 0, 0⟩, ⟨[], [], []⟩, []⟩] }
      (fun t => t.a == 0x5A && t.inputs == []) = true ∧
    after { irqState with inputs := [⟨none, ⟨[1], [], []⟩, []⟩] } (fun t => t.pc == 0x000B) = true := by decide +kernel

/-- Rule R262: the enable bits A8H.7 and A8H.0, which the program writes, gate the source; its request flag 88H.1 is
cleared by the acknowledgement. -/
def gated : State :=
  { irqState with
    plat := { Platform.default with
      irqSources := [⟨0, 0x0003, 0, .rule false [⟨0xA8, 7⟩, ⟨0xA8, 0⟩, ⟨0x88, 1⟩],
        .change ⟨[], [], [(⟨0x88, 1⟩, false)]⟩⟩], irqLevels := 1 }
    code := [(0x0102, 0xD2), (0x0103, 0xAF), (0x0104, 0x00)]
    device := [⟨0x88, .register, 0x03, 0x00⟩, ⟨0xA8, .register, 0x01, 0x00⟩] }

/-- The same with both enable bits set. -/
def gatedOn : State :=
  { gated with pc := 0x0104, device := [⟨0x88, .register, 0x03, 0x00⟩, ⟨0xA8, .register, 0x81, 0x00⟩] }

theorem test_irq_enable_bit :
    after gated (fun t => t.pc == 0x0104 && (acceptedSource t).isSome) = true ∧
    after gatedOn (fun t => t.pc == 0x0003 && t.inService == [0] &&
        t.device == [⟨0x88, .register, 0x01, 0x00⟩, ⟨0xA8, .register, 0x81, 0x00⟩]) = true := by decide +kernel

/-- Is the run over at the next boundary? -/
def stops (s : State) : Bool :=
  match step s with
  | .fault .endOfRun => true
  | _ => false

/-- The loop SJMP to itself on a platform, with a request to come at the boundary after next. -/
def loopThenRequest (id : Nat) (p : Platform) : State :=
  { start [0x80, 0xFE] with plat := p, inputs := [⟨none, ⟨[], [], []⟩, []⟩, ⟨none, ⟨[id], [], []⟩, []⟩] }

/-- Decision D23: by default the loop SJMP to itself is the end of the run, also where requests come of which no source
knows, but not while a source is still to become pending, nor where the parameter says never. Rule R276 by itself asks
for the present only. -/
theorem test_end_of_run :
    stops (start [0x80, 0xFE]) = true ∧ stops (loopThenRequest 0 Platform.default) = true ∧
    stops (loopThenRequest 1 { Platform.default with irqSources := [source 0 0x0003 0] }) = true ∧
    after (loopThenRequest 0 { Platform.default with irqSources := [source 0 0x0003 0] }) (fun t => t.pc == 0x0100) =
      true ∧
    stops (loopThenRequest 0 { Platform.default with irqSources := [source 0 0x0003 0], endOfRun := .selfLoopNow }) =
      true ∧
    after (loopThenRequest 0 { Platform.default with endOfRun := .never }) (fun t => t.pc == 0x0100) = true := by decide +kernel

/-! ### States that meet the hypotheses of the statements -/

/-- The state after reset: bank 0, the cells 00H..2FH at 00H, the pins at FFH, 256 cells. -/
abbrev s0 : State := State.reset

/-- With every internal RAM cell of a small part written, its last one at 5AH, R1 of bank 3 at 7FH. -/
def small : State :=
  { State.reset with
    psw := 0x98, sp := 0x7E, iram := [(0x18, 0x20), (0x19, 0x7F), (0x1F, 0x01), (0x20, 0x80), (0x2F, 0x80),
      (0x7E, 0x34), (0x7F, 0x5A)]
    plat := { Platform.default with iramSize := .cells128, p0Xbus := .unchanged } }

/-- With one register of the platform of each kind. -/
def devices : State :=
  { State.reset with
    device := [⟨0x84, .register, 0x12, 0x00⟩, ⟨0xC0, .port, 0x34, 0xF0⟩, ⟨0xFF, .oracle, 0x00, 0x00⟩] }

theorem test_witness_InternalRamReadsBackWhatWasWritten :
    (0xFF : Byte).toNat < s0.plat.iramSize.count ∧ s0.iram.read (0xFF : Byte).toNat = none ∧
    (0x7F : Byte).toNat < small.plat.iramSize.count ∧ small.plat.iramSize.count ≤ (0x80 : Byte).toNat ∧
    indAddress 1 small = .next 0x7F ∧ indAddress 0 s0 = .next 0x00 :=
  ⟨by decide, by decide, by decide, by decide, rfl, rfl⟩

theorem test_witness_DirectAddressesReachRamBelow80HAndRegistersAbove :
    (0x7F : Byte).toNat < 0x80 ∧ 0x80 ≤ (0x84 : Byte).toNat ∧ 0x80 ≤ (0xFF : Byte).toNat ∧
    (0x84 : Byte) ∉ [(0x80 : Byte), 0x81, 0x82, 0x83, 0x90, 0xA0, 0xB0, 0xD0, 0xE0, 0xF0] ∧
    (0xFF : Byte) ∉ [(0x80 : Byte), 0x81, 0x82, 0x83, 0x90, 0xA0, 0xB0, 0xD0, 0xE0, 0xF0] ∧
    findDevice 0x84 s0 = none ∧ findDevice 0xFF s0 = none ∧
    (findDevice 0x84 devices).map (fun r => r.kind) = some .register ∧
    (findDevice 0xC0 devices).map (fun r => r.kind) = some .port ∧
    (findDevice 0xFF devices).map (fun r => r.kind) = some .oracle := by decide

theorem test_witness_DirectWriteChangesOnlyItsDestination :
    DirectExists 0x7F s0 ∧ DirectExists 0x80 s0 ∧ DirectExists 0xF0 s0 ∧ DirectExists 0x84 devices ∧
    DirectExists 0xFF devices ∧ coreSfr 0x84 = none ∧ (findDevice 0x84 devices).map (fun r => r.kind) ≠ some .oracle :=
  ⟨.inl (by decide), .inr (.inl (by decide)), .inr (.inl (by decide)), .inr (.inr (by decide)),
    .inr (.inr (by decide)), by decide, by decide⟩

theorem test_witness_ParityBitFollowsTheAccumulator :
    (∃ u, bitWrite 0xD0 true s0 = .next u) ∧ ∃ u, bitWrite 0xD0 false small = .next u := ⟨⟨_, rfl⟩, ⟨_, rfl⟩⟩

theorem test_witness_BitAddressesNameOneBitOfOneByte :
    ((0x20 : Byte).toNat = (if (0x00 : Byte).toNat < 0x80 then 0x20 + (0x00 : Byte).toNat / 8 else
      (0x00 : Byte).toNat / 8 * 8) ∧ directRead 0x20 s0 = .next 0x00 ∧ directReadRmw 0x20 s0 = .next 0x00) ∧
    ((0x2F : Byte).toNat = (if (0x7F : Byte).toNat < 0x80 then 0x20 + (0x7F : Byte).toNat / 8 else
      (0x7F : Byte).toNat / 8 * 8) ∧ directRead 0x2F small = .next 0x80 ∧ directReadRmw 0x2F small = .next 0x80) ∧
    ((0x80 : Byte).toNat = (if (0x80 : Byte).toNat < 0x80 then 0x20 + (0x80 : Byte).toNat / 8 else
      (0x80 : Byte).toNat / 8 * 8) ∧ directRead 0x80 s0 = .next 0xFF ∧ directReadRmw 0x80 s0 = .next 0xFF) ∧
    ((0xF0 : Byte).toNat = (if (0xF7 : Byte).toNat < 0x80 then 0x20 + (0xF7 : Byte).toNat / 8 else
      (0xF7 : Byte).toNat / 8 * 8) ∧ directRead 0xF0 s0 = .next 0x00 ∧ directReadRmw 0xF0 s0 = .next 0x00) :=
  ⟨⟨rfl, rfl, rfl⟩, ⟨rfl, rfl, rfl⟩, ⟨rfl, rfl, rfl⟩, ⟨rfl, rfl, rfl⟩⟩

theorem test_witness_PushAndPopMoveTheStackPointerByOne :
    (s0.sp + 1).toNat < s0.plat.iramSize.count ∧ iramRead s0.sp s0 = .next 0x00 ∧
    (small.sp + 1).toNat < small.plat.iramSize.count ∧ iramRead small.sp small = .next 0x34 ∧
    (({ s0 with sp := 0xFF } : State).sp + 1).toNat < s0.plat.iramSize.count := ⟨by decide, rfl, by decide, rfl, by decide⟩

/-- The four sources at values their forms admit: R0 and R7, direct 00H, 7FH, a port and B, @R0 and @R1, an immediate. -/
theorem test_witness_sources :
    (Source.reg 0).read s0 = .next 0x00 ∧ (Source.reg 7).read small = .next 0x01 ∧
    (Source.direct 0x00).read s0 = .next 0x00 ∧ (Source.direct 0x7F).read small = .next 0x5A ∧
    (Source.direct 0x80).read s0 = .next 0xFF ∧ (Source.direct 0xF0).read s0 = .next 0x00 ∧
    (Source.ind 0).read s0 = .next 0x00 ∧ (Source.ind 1).read small = .next 0x5A ∧
    (Source.imm 0xFF).read s0 = .next 0xFF := ⟨rfl, rfl, rfl, rfl, rfl, rfl, rfl, rfl, rfl⟩

theorem test_witness_AddPutsTheSumInA : (Source.direct 0x7F).read small = .next 0x5A := rfl

theorem test_witness_AddcAddsTheCarryIn : (Source.ind 1).read small = .next 0x5A ∧ small.cy = true := ⟨rfl, rfl⟩

theorem test_witness_SubbSubtractsWithBorrow : (Source.reg 7).read small = .next 0x01 ∧ small.cy = true := ⟨rfl, rfl⟩

theorem test_witness_LogicIntoAWorksBitByBit : (Source.imm 0xFF).read s0 = .next 0xFF := rfl

theorem test_witness_MovIntoACopiesItsSource :
    Source.direct 0xE1 ≠ .direct 0xE0 ∧ Source.direct 0x7F ≠ .direct 0xE0 ∧
      (Source.direct 0x7F).read small = .next 0x5A := ⟨by decide, by decide, rfl⟩

theorem test_witness_IncAndDecChangeOneByteByOne :
    regRead 0 small = .next 0x20 ∧ regRead 7 small = .next 0x01 ∧ indAddress 1 small = .next 0x7F ∧
      iramRead 0x7F small = .next 0x5A ∧ indAddress 0 s0 = .next 0x00 ∧ iramRead 0x00 s0 = .next 0x00 :=
  ⟨rfl, rfl, rfl, rfl, rfl, rfl⟩

/-- Destinations that are read the latch way, at the ends of both halves; it serves the next two statements too. -/
theorem test_witness_IncAndDecDirectRewriteTheirByte :
    directReadRmw 0x00 s0 = .next 0x00 ∧ directReadRmw 0x7F small = .next 0x5A ∧ directReadRmw 0x80 s0 = .next 0xFF ∧
      directReadRmw 0xD0 small = .next 0x98 ∧ directReadRmw 0xC0 devices = .next 0x34 := ⟨rfl, rfl, rfl, rfl, rfl⟩

theorem test_witness_LogicIntoDirectWorksBitByBit : directReadRmw 0x80 s0 = .next 0xFF := rfl

theorem test_witness_DecimalAdditionOfPackedBcdIsExact :
    ({ s0 with a := 0x99 } : State).a.toNat = 99 / 10 * 16 + 99 % 10 ∧ s0.a.toNat = 0 / 10 * 16 + 0 % 10 := by decide

theorem test_witness_MovIntoRegisterCopiesItsSource :
    directRead 0x7F small = .next 0x5A ∧ directRead 0x80 s0 = .next 0xFF := ⟨rfl, rfl⟩

theorem test_witness_MovIntoDirectCopiesItsSource :
    (DirectExists 0x7F small ∧ regRead 7 small = .next 0x01 ∧ indRead 1 small = .next 0x5A ∧
      directRead 0x7F small = .next 0x5A) ∧ DirectExists 0x80 s0 ∧ regRead 0 s0 = .next 0x00 ∧
      indRead 0 s0 = .next 0x00 ∧ directRead 0xE0 s0 = .next 0x00 :=
  ⟨⟨.inl (by decide), rfl, rfl, rfl⟩, .inr (.inl (by decide)), rfl, rfl, rfl⟩

theorem test_witness_MovIntoIndirectCopiesItsSource :
    indAddress 1 small = .next 0x7F ∧ (0x7F : Byte).toNat < small.plat.iramSize.count ∧
      directRead 0x7E small = .next 0x34 ∧ indAddress 0 s0 = .next 0x00 ∧ directRead 0x80 s0 = .next 0xFF :=
  ⟨rfl, by decide, rfl, rfl, rfl⟩

/-- MOVC at both ends of program memory. -/
theorem test_witness_MovcReadsAProgramByte :
    ({ s0 with dph := 0xFF, dpl := 0xFF, a := 0x01, code := [(0x0000, 0x66)] } : State).code.read
      ((0xFF * 256 + 0xFF + 0x01) % 65536) = some 0x66 ∧
    ({ s0 with pc := 0xFFFE, a := 0x00, code := [(0xFFFF, 0x77)] } : State).code.read ((0xFFFE + 1 + 0x00) % 65536) =
      some 0x77 := by decide

/-- With a board that drives address lines 8 and 9 from P1.0 and P1.1 (latch), line 10 from pin P3.4, the others low. -/
def paged : State :=
  { small with
    latch := ⟨0xFF, 0x01, 0xFF, 0xFF⟩, pins := ⟨0xFF, 0xFE, 0xFF, 0x10⟩, xdata := [(0x057F, 0x42)]
    plat := { small.plat with
      xpage := .wired #v[.latch .p1 0, .latch .p1 1, .pin .p3 4, .level false, .level false, .level false, .level false,
        .level false] } }

/-- With devices on the external bus, and a page that is the board's own function. -/
def boarded : State := { small with plat := { small.plat with xpage := .board, xdataKind := .oracle } }

theorem paged_page : PageIs 0x05 paged := (Laws.pageIs_iff _ _).2 (by decide)

/-- 42_data_transfer.md rule R199 with a page that is wired: MOVX A,@R1. -/
theorem test_movx_wired_page : (match exec (.movxAInd 1) paged with
    | .next t => t.a == 0x42
    | _ => false) = true := by decide +kernel

theorem test_witness_MovxReadsExternalDataMemory :
    xRead 0xFFFF { small with xdata := [(0xFFFF, 0x56)] } = .next 0x56 ∧ indAddress 1 small = .next 0x7F ∧
    xRead ((0xFF : Byte) ++ (0x7F : Byte)) { small with xdata := [(0xFF7F, 0x56)] } = .next 0x56 ∧
    small.plat.xdataKind = .plainRam ∧ ({ Platform.default with xdataKind := .oracle } : Platform).xdataKind = .oracle ∧
    small.plat.p0Xbus = .unchanged ∧ PageIs 0xFF small ∧ PageIs 0x05 paged ∧ indAddress 1 paged = .next 0x7F ∧
    xRead ((0x05 : Byte) ++ (0x7F : Byte)) paged = .next 0x42 ∧
    PageIs (Config.boardPage boarded) boarded ∧ indAddress 1 boarded = .next 0x7F ∧
    xRead (Config.boardPage boarded ++ (0x7F : Byte)) boarded =
      .next (Config.draw8 (.xdataRead (Config.boardPage boarded ++ (0x7F : Byte))) 0) :=
  ⟨rfl, rfl, rfl, rfl, rfl, rfl, rfl, paged_page, rfl, rfl, rfl, rfl, rfl⟩

theorem test_witness_MovxWritesExternalDataMemory :
    indAddress 1 small = .next 0x7F ∧ PageIs 0xFF small ∧ indAddress 1 paged = .next 0x7F ∧ PageIs 0x05 paged ∧
      small.plat.xdataKind = .plainRam ∧ small.plat.p0Xbus = .unchanged ∧
      ({ Platform.default with xdataKind := .oracle } : Platform).xdataKind = .oracle :=
  ⟨rfl, rfl, rfl, paged_page, rfl, rfl, rfl⟩

theorem test_witness_PushStoresItsSourceOnTheStack :
    (small.sp + 1).toNat < small.plat.iramSize.count ∧
      directRead 0x7E { small with sp := small.sp + 1 } = .next 0x34 ∧
      directRead 0x81 { small with sp := small.sp + 1 } = .next 0x7F := ⟨by decide, rfl, rfl⟩

theorem test_witness_PopLoadsItsDestinationFromTheStack :
    iramRead small.sp small = .next 0x34 ∧ DirectExists 0x7F small ∧ DirectExists 0xD0 small :=
  ⟨rfl, .inl (by decide), .inr (.inl (by decide))⟩

theorem test_witness_XchExchangesAWithItsOperand :
    regRead 7 small = .next 0x01 ∧ indAddress 1 small = .next 0x7F ∧ iramRead 0x7F small = .next 0x5A ∧
      directRead 0x7F small = .next 0x5A ∧ directRead 0x80 s0 = .next 0xFF := ⟨rfl, rfl, rfl, rfl, rfl⟩

theorem test_witness_XchdExchangesLowNibbles :
    indAddress 1 small = .next 0x7F ∧ iramRead 0x7F small = .next 0x5A := ⟨rfl, rfl⟩

theorem test_witness_BitWritesChangeOneBit :
    bitReadRmw 0x00 s0 = .next false ∧ bitReadRmw 0x7F small = .next true ∧ bitReadRmw 0x80 s0 = .next true ∧
      bitReadRmw 0xF7 s0 = .next false := ⟨rfl, rfl, rfl, rfl⟩

theorem test_witness_BitsCombineIntoTheCarry :
    bitRead 0x00 s0 = .next false ∧ bitRead 0x7F small = .next true ∧ bitRead 0x80 s0 = .next true ∧
      bitRead 0xF7 s0 = .next false := ⟨rfl, rfl, rfl, rfl⟩

theorem test_witness_BitJumpsTestOneBit :
    bitRead 0x7F small = .next true ∧ bitRead 0x80 s0 = .next true ∧ bitRead 0x00 s0 = .next false := ⟨rfl, rfl, rfl⟩

theorem test_witness_CallsPushTheFollowingAddress :
    RoomToPush s0 ∧ RoomToPush { small with sp := 0x7D } ∧ RoomToPush { s0 with sp := 0xFE } :=
  ⟨⟨by decide, by decide⟩, ⟨by decide, by decide⟩, ⟨by decide, by decide⟩⟩

theorem test_witness_RetPopsTheReturnAddress :
    iramRead s0.sp s0 = .next 0x00 ∧ iramRead (s0.sp - 1) s0 = .next 0x00 ∧
      iramRead ({ small with sp := 0x7F } : State).sp { small with sp := 0x7F } = .next 0x5A ∧
      iramRead (({ small with sp := 0x7F } : State).sp - 1) { small with sp := 0x7F } = .next 0x34 :=
  ⟨rfl, rfl, rfl, rfl⟩

theorem test_witness_RetiAlsoLeavesTheHighestLevel :
    iramRead s0.sp s0 = .next 0x00 ∧ iramRead (s0.sp - 1) s0 = .next 0x00 ∧ levelsDescend s0.inService = true ∧
      levelsDescend [1, 0] = true := ⟨rfl, rfl, rfl, rfl⟩

theorem test_witness_JbcJumpsAndClearsASetBit :
    bitReadRmw 0x80 s0 = .next true ∧ bitReadRmw 0x7F small = .next true ∧ bitReadRmw 0x00 s0 = .next false :=
  ⟨rfl, rfl, rfl⟩

theorem test_witness_CjneComparesUnsigned :
    directRead 0x80 s0 = .next 0xFF ∧ directRead 0x7F small = .next 0x5A ∧ regRead 7 small = .next 0x01 ∧
      indRead 1 small = .next 0x5A := ⟨rfl, rfl, rfl, rfl⟩

theorem test_witness_DjnzDecrementsAndTests :
    ((0x00 : Byte).toNat = ((0x01 : Byte).toNat + 255) % 256 ∧ regRead 7 small = .next 0x01 ∧
      directReadRmw 0x1F small = .next 0x01) ∧
    (0xFF : Byte).toNat = ((0x00 : Byte).toNat + 255) % 256 ∧ regRead 0 s0 = .next 0x00 ∧
      directReadRmw 0xF0 s0 = .next 0x00 := ⟨⟨rfl, rfl, rfl⟩, rfl, rfl, rfl⟩

/-- One byte of code at pc. -/
theorem codeAtPc_one {s : State} {x : Byte} (h : s.code.read s.pc.toNat = some x) : CodeAtPc [x] s := by
  intro j v hv
  cases j with
  | zero =>
    cases hv
    simpa using h
  | succ j => cases hv

/-- Two bytes of code at pc. -/
theorem codeAtPc_two {s : State} {x y : Byte} (h : s.code.read s.pc.toNat = some x)
    (k : s.code.read (s.pc + 1).toNat = some y) : CodeAtPc [x, y] s := by
  intro j v hv
  match j with
  | 0 =>
    cases hv
    simpa using h
  | 1 =>
    cases hv
    exact k
  | j + 2 => cases hv

/-- The two bytes of MOV A,#7AH stand at FFFFH and 0000H. -/
theorem test_witness_StepRunsTheDecodedInstruction :
    decode [0x74, 0x7A] = .ok (.movAImm 0x7A, []) ∧
      CodeAtPc [0x74, 0x7A] { s0 with pc := 0xFFFF, code := [(0x0000, 0x7A), (0xFFFF, 0x74)] } ∧
      RunsAnInstruction { s0 with pc := 0xFFFF, code := [(0x0000, 0x7A), (0xFFFF, 0x74)] } :=
  ⟨rfl, codeAtPc_two (by decide) (by decide), rfl, rfl⟩

theorem test_witness_InterruptEntryPushesPcAndGoesToTheVector :
    ({ irqState with requests := [0] } : State) = sampleEnvironment { irqState with requests := [0] } ∧
      endOfRun { irqState with requests := [0] } = false ∧
      acceptedSource { irqState with requests := [0] } = some (source 0 0x0003 0) ∧
      RoomToPush { irqState with requests := [0] } ∧ acceptedSource gatedOn = gatedOn.plat.irqSources.head? ∧
      RoomToPush gatedOn :=
  ⟨rfl, by decide, by decide, ⟨by decide, by decide⟩, by decide, by decide, by decide⟩

theorem test_witness_MostUrgentSourceAboveEveryLevelIsAccepted :
    acceptedSource { irqState with requests := [0, 1] } = some (source 1 0x000B 1) ∧
      acceptedSource { irqState with requests := [0, 1], retiShadow := true } = none ∧
      acceptedSource { irqState with requests := [0], inService := [0] } = none ∧
      acceptedSource gated = none ∧ (acceptedSource gatedOn).isSome := by decide

/-- A RETI from a routine of level 0 back to the NOP at 0102H, with a request of level 1 waiting. -/
theorem test_witness_OneInstructionRunsAfterReti :
    ∃ t, exec .reti { irqState with sp := 0x09, iram := [(0x08, 0x02), (0x09, 0x01)], inService := [0], requests := [1] } =
        .next t ∧ t.plat.endOfRun ≠ .board ∧ decode [0x00] = .ok (.nop, []) ∧ CodeAtPc [0x00] t ∧
      endOfRun (sampleEnvironment t) = false ∧ Instr.nop ≠ .reti ∧ ∃ u, step t = .next u :=
  ⟨_, rfl, by decide, rfl, codeAtPc_one (by decide), rfl, by decide, _, rfl⟩

theorem test_witness_RetiUndoesInterruptEntry :
    levelsDescend irqState.inService = true ∧ (∀ n ∈ irqState.inService, n < 1) ∧ RoomToPush irqState ∧
      levelsDescend [0] = true ∧ (∀ n ∈ [0], n < 1) := ⟨by decide, by decide, ⟨by decide, by decide⟩, by decide, by decide⟩

theorem test_witness_EnvironmentTouchesNoCoreState :
    s0.inputs = [] ∧
    ({ devices with inputs := [⟨some ⟨0, 1, 2, 3⟩, ⟨[1], [0], [(⟨0x84, 7⟩, true), (⟨0x84, 7⟩, false)]⟩, [(0xC0, 0x0F), (0xC0, 0xAA)]⟩] } : State).inputs =
      ⟨some ⟨0, 1, 2, 3⟩, ⟨[1], [0], [(⟨0x84, 7⟩, true), (⟨0x84, 7⟩, false)]⟩, [(0xC0, 0x0F), (0xC0, 0xAA)]⟩ :: [] ∧
    devices.device[1]? = some ⟨0xC0, .port, 0x34, 0xF0⟩ ∧ devices.device[0]? = some ⟨0x84, .register, 0x12, 0x00⟩ ∧
    [((0xC0 : Byte), (0x0F : Byte)), (0xC0, 0xAA)] = [] ++ (0xC0, 0x0F) :: [(0xC0, 0xAA)] ∧
    ∀ c ∈ [((0xC0 : Byte), (0x0F : Byte)), (0xC0, 0xAA)], c.1 ≠ 0x84 := ⟨rfl, rfl, rfl, rfl, rfl, by simp⟩

theorem test_witness_ExcludedEncodingsAreRefused :
    (RunsAnInstruction { s0 with code := [(0x0000, 0xA5)] } ∧ CodeAtPc [0xA5] { s0 with code := [(0x0000, 0xA5)] }) ∧
      RunsAnInstruction { s0 with code := [(0x0000, 0xE5), (0x0001, 0xE0)] } ∧
      CodeAtPc [0xE5, 0xE0] { s0 with code := [(0x0000, 0xE5), (0x0001, 0xE0)] } :=
  ⟨⟨⟨rfl, rfl⟩, codeAtPc_one (by decide)⟩, ⟨rfl, rfl⟩, codeAtPc_two (by decide) (by decide)⟩

theorem test_witness_DecodeInvertsEncode : (Instr.movADirect 0xE1).wf = true ∧ (Instr.ajmp 0x7FF).wf = true := by decide

theorem test_witness_EncodeInvertsDecode : decode [0xE1, 0xFF, 0x00] = .ok (.ajmp 0x7FF, [0x00]) := rfl

/-- A state that meets the invariant and steps to a next state; it serves the other whole-machine statements too. -/
theorem test_witness_InvariantIsKeptByEveryStep :
    State.Inv { s0 with code := [(0x0000, 0x04)] } ∧ ∃ t, step { s0 with code := [(0x0000, 0x04)] } = .next t :=
  ⟨by decide +kernel, _, rfl⟩

/-- A platform with two sources on its two levels. -/
theorem test_witness_InvariantHoldsAtReset : sourcesKeepLevels twoSources = true ∧ sourcesKeepLevels Platform.default = true := by
  decide

theorem test_witness_ProgramMemoryNeverChanges :
    ∃ t, step { s0 with code := [(0x0000, 0xF0)], inputs := [⟨none, ⟨[], [], []⟩, []⟩] } = .next t := ⟨_, rfl⟩

theorem test_witness_FlagsChangeOnlyAsTheFlagTableSays :
    (∃ t, exec .mulAb s0 = .next t) ∧ (pswEffect .mulAb).namesPsw = false ∧
      (∃ t, exec (.movDirectA 0xE0) s0 = .next t) ∧ (pswEffect (.movDirectA 0xE0)).namesPsw = false ∧
      (pswEffect (.clrBit 0xD8)).namesPsw = false ∧ (pswEffect (.clrBit 0xCF)).namesPsw = false :=
  ⟨⟨_, rfl⟩, by decide, ⟨_, rfl⟩, by decide, by decide, by decide⟩

theorem test_witness_OnlyRetiTouchesTheInterruptLogic :
    (∃ t, exec .nop s0 = .next t) ∧ Instr.nop ≠ .reti ∧ ∃ t, exec .reti s0 = .next t := ⟨⟨_, rfl⟩, by decide, _, rfl⟩

end Sys2Proof.Tests
end

/-! SUPPORT. The rules of internal RAM that 20_memory.md R63 and R64 state, and the statements settled with them. -/

namespace Sys2Proof.Proofs.InternalRam

open Sys2Proof.Machine Sys2Proof.Laws

/-! ### Cells that do not exist or that nothing has written -/

theorem iramRead_of_count_le {a : Byte} {s : State} (h : s.plat.iramSize.count ≤ a.toNat) :
    iramRead a s = .refused (.noSuchIramCell a) :=
  if_neg (Nat.not_lt.2 h)

theorem iramWrite_of_count_le {a : Byte} {s : State} (v : Byte) (h : s.plat.iramSize.count ≤ a.toNat) :
    iramWrite a v s = .refused (.noSuchIramCell a) :=
  if_neg (Nat.not_lt.2 h)

theorem iramRead_of_unwritten {a : Byte} {s : State} (ha : a.toNat < s.plat.iramSize.count)
    (h : s.iram.read a.toNat = none) : iramRead a s = .fault (.unwrittenIram a) := by
  simp [iramRead, ha, h]

/-! ### A write of one cell and the reads after it -/

/-- Everything a write to a cell that exists does: its exact frame, the read back and the reads of the other cells. -/
theorem iramWrite_reads_back {a : Byte} {s : State} (v : Byte) (ha : a.toNat < s.plat.iramSize.count) :
    ∃ t, iramWrite a v s = .next t ∧ t = { s with iram := t.iram } ∧ iramRead a t = .next v ∧
      ∀ c, c ≠ a → iramRead c t = iramRead c s := by
  refine ⟨_, iramWrite_of_lt v ha, rfl, ?sameCell, ?otherCells⟩
  case sameCell => rw [iramRead_after_write a v a s ha, if_pos rfl]
  case otherCells =>
    intro c hc
    rw [iramRead_after_write a v c s ha, if_neg hc]

/-! ### The operand @Ri -/

/-- R0 and R1 are the two working registers that an @Ri operand can name. -/
theorem indAddress_eq_regRead (i : IndNo) (s : State) :
    indAddress i s = regRead (i.castLE (by decide)) s := rfl

theorem indRead_of_indAddress {i : IndNo} {a : Byte} {s : State} (h : indAddress i s = .next a) :
    indRead i s = iramRead a s := by
  rw [indRead, h, andThen_next]

theorem indWrite_of_indAddress {i : IndNo} {a : Byte} {s : State} (v : Byte) (h : indAddress i s = .next a) :
    indWrite i v s = iramWrite a v s := by
  rw [indWrite, h, andThen_next]

/-! ### The statement -/

/-- Settles O1, from the two sides of IRAM_SIZE and the value of R0 or R1. -/
theorem internalRamReadsBackWhatWasWritten : Obligations.InternalRamReadsBackWhatWasWritten := by
  intro a v s
  refine ⟨?belowSize, ?fromSize, indAddress_eq_regRead 0 s, indAddress_eq_regRead 1 s, ?indirect⟩
  case belowSize =>
    intro ha
    exact ⟨iramWrite_reads_back v ha, iramRead_of_unwritten ha⟩
  case fromSize =>
    intro ha
    exact ⟨iramRead_of_count_le ha, iramWrite_of_count_le v ha⟩
  case indirect =>
    intro i hi
    exact ⟨indRead_of_indAddress hi, indWrite_of_indAddress v hi⟩

end Sys2Proof.Proofs.InternalRam

/-! SUPPORT. The rules of 40_arithmetic.md: the adder and the subtractor, the increments and decrements, DPTR and MUL
AB, and the statements settled with them. -/

namespace Sys2Proof.Proofs.Arithmetic

open Sys2Proof.Machine Sys2Proof.Laws

/-! ### Encodings (30_encoding.md rules R93, R98, R99) -/

theorem addForm_hasEncoding : ∀ src, HasEncoding (addForm src) (columnBytes 0x20 src) 1
  | .reg n => by fin_cases n <;> exact ⟨rfl, rfl, rfl, rfl⟩
  | .direct _ => ⟨rfl, rfl, rfl, rfl⟩
  | .ind i => by fin_cases i <;> exact ⟨rfl, rfl, rfl, rfl⟩
  | .imm _ => ⟨rfl, rfl, rfl, rfl⟩

theorem addcForm_hasEncoding : ∀ src, HasEncoding (addcForm src) (columnBytes 0x30 src) 1
  | .reg n => by fin_cases n <;> exact ⟨rfl, rfl, rfl, rfl⟩
  | .direct _ => ⟨rfl, rfl, rfl, rfl⟩
  | .ind i => by fin_cases i <;> exact ⟨rfl, rfl, rfl, rfl⟩
  | .imm _ => ⟨rfl, rfl, rfl, rfl⟩

theorem subbForm_hasEncoding : ∀ src, HasEncoding (subbForm src) (columnBytes 0x90 src) 1
  | .reg n => by fin_cases n <;> exact ⟨rfl, rfl, rfl, rfl⟩
  | .direct _ => ⟨rfl, rfl, rfl, rfl⟩
  | .ind i => by fin_cases i <;> exact ⟨rfl, rfl, rfl, rfl⟩
  | .imm _ => ⟨rfl, rfl, rfl, rfl⟩

theorem incDecRn_hasEncoding (n : RegNo) :
    HasEncoding (.incRn n) [0x08 + BitVec.ofNat 8 n.val] 1 ∧
      HasEncoding (.decRn n) [0x18 + BitVec.ofNat 8 n.val] 1 := by
  fin_cases n <;> exact ⟨⟨rfl, rfl, rfl, rfl⟩, ⟨rfl, rfl, rfl, rfl⟩⟩

theorem incDecInd_hasEncoding (i : IndNo) :
    HasEncoding (.incInd i) [0x06 + BitVec.ofNat 8 i.val] 1 ∧
      HasEncoding (.decInd i) [0x16 + BitVec.ofNat 8 i.val] 1 := by
  fin_cases i <;> exact ⟨⟨rfl, rfl, rfl, rfl⟩, ⟨rfl, rfl, rfl, rfl⟩⟩

/-- The two immediate bytes come back from the word that they form (30_encoding.md rule R95). -/
theorem movDptr_hasEncoding (h l : Byte) : HasEncoding (.movDptr (h ++ l)) [0x90, h, l] 2 := by
  refine ⟨rfl, ?bytes, rfl, rfl⟩
  case bytes => rw [encode, highByte, lowByte, extract_high_append, extract_low_append]

/-! ### The adder and the subtractor (rules R120, R121) -/

/-- A byte in two's complement: its value, less 256 from 128 on. -/
theorem toInt_byte (v : Byte) : v.toInt = if v.toNat < 128 then (v.toNat : Int) else v.toNat - 256 := by
  rw [BitVec.toInt_eq_toNat_cond]
  split <;> split <;> omega

theorem add8_value (a v : Byte) (c : Bool) : (add8 a v c).value.toNat = (a.toNat + v.toNat + c.toNat) % 256 :=
  BitVec.toNat_ofNat _ _

/-- OV of the adder is the overflow of the signed sum. -/
theorem add8_ov_iff (a v : Byte) (c : Bool) :
    (add8 a v c).ov = true ↔ a.toInt + v.toInt + c.toNat < -128 ∨ 127 < a.toInt + v.toInt + c.toNat := by
  have ha := a.isLt
  have hv := v.isLt
  have hc := c.toNat_lt
  simp only [add8, bne_iff_ne, ne_eq, decide_eq_decide, toInt_byte]
  split <;> split <;> omega

/-- A borrow, told on natural numbers as the model does, is a difference below 0. -/
theorem decide_borrow (x y c : Nat) : decide (x < y + c) = decide ((x : Int) - y - c < 0) := by
  rw [decide_eq_decide]
  omega

theorem sub8_value (a v : Byte) (c : Bool) :
    ((sub8 a v c).value.toNat : Int) = ((a.toNat : Int) - v.toNat - c.toNat) % 256 := by
  have hv := v.isLt
  have hc := c.toNat_lt
  simp only [sub8, BitVec.toNat_ofNat]
  omega

theorem sub8_cy (a v : Byte) (c : Bool) :
    (sub8 a v c).cy = decide ((a.toNat : Int) - v.toNat - c.toNat < 0) :=
  decide_borrow _ _ _

theorem sub8_ac (a v : Byte) (c : Bool) :
    (sub8 a v c).ac = decide (((a.toNat % 16 : Nat) : Int) - (v.toNat % 16 : Nat) - c.toNat < 0) :=
  decide_borrow _ _ _

theorem sub8_ov (a v : Byte) (c : Bool) :
    (sub8 a v c).ov = (decide (((a.toNat % 128 : Nat) : Int) - (v.toNat % 128 : Nat) - c.toNat < 0) !=
      decide ((a.toNat : Int) - v.toNat - c.toNat < 0)) := by
  rw [← decide_borrow, ← decide_borrow]
  rfl

/-- OV of the subtractor is the overflow of the signed difference. -/
theorem sub8_ov_iff (a v : Byte) (c : Bool) :
    (sub8 a v c).ov = true ↔ a.toInt - v.toInt - c.toNat < -128 ∨ 127 < a.toInt - v.toInt - c.toNat := by
  have ha := a.isLt
  have hv := v.isLt
  have hc := c.toNat_lt
  simp only [sub8, bne_iff_ne, ne_eq, decide_eq_decide, toInt_byte]
  split <;> split <;> omega

/-- The carry flag as a number, in the two spellings of the model and of the statements. -/
theorem ite_eq_boolToNat (b : Bool) : (if b then 1 else 0) = b.toNat := by
  cases b <;> rfl

/-! ### ADD, ADDC and SUBB (rules R122 to R133) -/

theorem onlyAAndFlags_applyAlu (r : AluResult) (len : Nat) (s : State) :
    OnlyAAndFlags s (advance len (applyAlu r s)) := by
  refine ⟨rfl, ?otherBits⟩
  case otherBits =>
    intro k hk h7 h6 h2
    rw [advance_psw, applyAlu_psw, getLsbD_withBit _ _ _ _ hk, if_neg h2, getLsbD_withBit _ _ _ _ hk, if_neg h6,
      getLsbD_withBit _ _ _ _ hk, if_neg h7]

theorem sumInA_add8 (v : Byte) (c : Bool) (len : Nat) (s : State) :
    SumInA v c.toNat s (advance len (applyAlu (add8 s.a v c) s)) := by
  refine ⟨onlyAAndFlags_applyAlu _ _ _, add8_value _ _ _, ?cy, ?ac, ?ov, ?signed⟩
  case cy => rw [cy_advance, cy_applyAlu, add8]
  case ac => rw [ac_advance, ac_applyAlu, add8]
  case ov => rw [ov_advance, ov_applyAlu, add8]
  case signed => rw [ov_advance, ov_applyAlu, add8_ov_iff]

theorem differenceInA_sub8 (v : Byte) (c : Bool) (len : Nat) (s : State) :
    DifferenceInA v c.toNat s (advance len (applyAlu (sub8 s.a v c) s)) := by
  refine ⟨onlyAAndFlags_applyAlu _ _ _, sub8_value _ _ _, ?cy, ?ac, ?ov, ?signed⟩
  case cy => rw [cy_advance, cy_applyAlu, sub8_cy]
  case ac => rw [ac_advance, ac_applyAlu, sub8_ac]
  case ov => rw [ov_advance, ov_applyAlu, sub8_ov]
  case signed => rw [ov_advance, ov_applyAlu, sub8_ov_iff]

/-- A source that can be read lets the instruction complete. -/
theorem onSource_of_read {src : Source} {v : Byte} {s : State} (len : Nat) (act : Byte → State → State)
    (h : src.read s = .next v) : onSource src len act s = .next (advance len (act v s)) := by
  rw [onSource, h, andThen_next]

theorem exec_addForm (src : Source) (s : State) : exec (addForm src) s = addIntoA src src.len s := by
  cases src <;> rfl

theorem exec_addcForm (src : Source) (s : State) : exec (addcForm src) s = addcIntoA src src.len s := by
  cases src <;> rfl

theorem exec_subbForm (src : Source) (s : State) : exec (subbForm src) s = subbIntoA src src.len s := by
  cases src <;> rfl

/-- Settles O8, from the adder with no carry in. -/
theorem addPutsTheSumInA : Obligations.AddPutsTheSumInA := by
  intro src s
  refine ⟨addForm_hasEncoding src, fun v hv => ⟨_, ?completes, sumInA_add8 v false src.len s, rfl⟩⟩
  case completes => rw [exec_addForm, addIntoA, onSource_of_read _ _ hv]

/-- Settles O9, from the adder with C as its carry in. -/
theorem addcAddsTheCarryIn : Obligations.AddcAddsTheCarryIn := by
  intro src s
  rw [ite_eq_boolToNat]
  refine ⟨addcForm_hasEncoding src, fun v hv => ⟨_, ?completes, sumInA_add8 v s.cy src.len s, rfl⟩⟩
  case completes => rw [exec_addcForm, addcIntoA, onSource_of_read _ _ hv]

/-- Settles O10, from the subtractor with C as its borrow in. -/
theorem subbSubtractsWithBorrow : Obligations.SubbSubtractsWithBorrow := by
  intro src s
  rw [ite_eq_boolToNat]
  refine ⟨subbForm_hasEncoding src, fun v hv => ⟨_, ?completes, differenceInA_sub8 v s.cy src.len s, rfl⟩⟩
  case completes => rw [exec_subbForm, subbIntoA, onSource_of_read _ _ hv]

/-! ### INC and DEC of a byte (rules R134 to R141) -/

theorem toNat_byte_add_one (v : Byte) : (v + 1).toNat = (v.toNat + 1) % 256 := BitVec.toNat_add v 1

theorem toNat_byte_sub_one (v : Byte) : (v - 1).toNat = (v.toNat + 255) % 256 := by
  rw [BitVec.toNat_sub, Nat.add_comm]
  rfl

/-- A working register that can be read is changed, and nothing else but pc. -/
theorem changeReg_of_read {n : RegNo} {v : Byte} {s : State} (f : Byte → Byte) (len : Nat) (h : regRead n s = .next v) :
    ∃ t, changeReg n f len s = .next t ∧ CellWritten (regCell n.val s) (f v) len s t := by
  refine ⟨_, ?completes, cellWritten_advance _ _ _ _ (iramRead_eq_next.1 h).1⟩
  case completes => rw [changeReg, h, andThen_next, regWrite, iramWrite_of_read _ h, thenAdvance, andThen_next]

/-- A cell that @Ri addresses and that can be read is changed, and nothing else but pc. -/
theorem changeInd_of_read {i : IndNo} {a v : Byte} {s : State} (f : Byte → Byte) (len : Nat)
    (ha : indAddress i s = .next a) (hv : iramRead a s = .next v) :
    ∃ t, changeInd i f len s = .next t ∧ CellWritten a (f v) len s t := by
  refine ⟨_, ?completes, cellWritten_advance _ _ _ _ (iramRead_eq_next.1 hv).1⟩
  case completes =>
    rw [changeInd, ha, andThen_next, hv, andThen_next, iramWrite_of_read _ hv, thenAdvance, andThen_next]

/-- Settles O11, from what the shapes of one changed cell do to the byte they read. -/
theorem incAndDecChangeOneByteByOne : Obligations.IncAndDecChangeOneByteByOne := by
  intro s
  refine ⟨⟨⟨rfl, rfl, rfl, rfl⟩, ⟨rfl, rfl, rfl, rfl⟩, ⟨_, rfl, rfl, toNat_byte_add_one s.a⟩,
    ⟨_, rfl, rfl, toNat_byte_sub_one s.a⟩⟩, ?register, ?indirect⟩
  case register =>
    intro n
    obtain ⟨inc, dec⟩ := incDecRn_hasEncoding n
    refine ⟨inc, dec, fun v hv => ⟨?more, ?less⟩⟩
    case more => exact (changeReg_of_read (· + 1) 1 hv).imp fun _ ⟨ht, hw⟩ => ⟨v + 1, ht, hw, toNat_byte_add_one v⟩
    case less => exact (changeReg_of_read (· - 1) 1 hv).imp fun _ ⟨ht, hw⟩ => ⟨v - 1, ht, hw, toNat_byte_sub_one v⟩
  case indirect =>
    intro i
    obtain ⟨inc, dec⟩ := incDecInd_hasEncoding i
    refine ⟨inc, dec, fun a v ha hv => ⟨?more, ?less⟩⟩
    case more => exact (changeInd_of_read (· + 1) 1 ha hv).imp fun _ ⟨ht, hw⟩ => ⟨v + 1, ht, hw, toNat_byte_add_one v⟩
    case less => exact (changeInd_of_read (· - 1) 1 ha hv).imp fun _ ⟨ht, hw⟩ => ⟨v - 1, ht, hw, toNat_byte_sub_one v⟩

/-! ### INC direct and DEC direct (rules R136, R140) -/

theorem coreWrite_pc (r : CoreSfr) (v : Byte) (s : State) : (coreWrite r v s).pc = s.pc := by
  cases r <;> rfl

/-- No direct address names pc. -/
theorem directChange_pc {d v : Byte} {s t : State} (h : DirectChange d v s t) : t.pc = s.pc := by
  unfold DirectChange at h
  split at h
  · obtain ⟨ram, -, -⟩ := h
    rw [ram]
  · split at h
    · rw [h, coreWrite_pc]
    · rw [h]

/-- A direct byte that can be read the latch way is changed through DirectWrite, and nothing else but pc. -/
theorem writesDirect_of_changeDirect {i : Instr} {d v : Byte} {f : Byte → Byte} {len : Nat} {s : State}
    (hexec : exec i s = changeDirect d f len s) (hv : directReadRmw d s = .next v) :
    WritesDirect i len d (f v) s s := by
  obtain ⟨t, ht⟩ := directWrite_of_exists (f v) (exists_of_directReadRmw hv)
  have change : DirectChange d (f v) s t := directWrite_eq_next ht
  refine ⟨t, ht, change, ?completes⟩
  case completes =>
    rw [hexec, changeDirect, hv, andThen_next, ht, thenAdvance, andThen_next, advance, nextPc, directChange_pc change]

/-- Settles O12, from what every read-modify-write of a direct byte does. -/
theorem incAndDecDirectRewriteTheirByte : Obligations.IncAndDecDirectRewriteTheirByte := by
  intro d s
  refine ⟨⟨rfl, rfl, rfl, rfl⟩, ⟨rfl, rfl, rfl, rfl⟩, fun v hv => ⟨⟨v + 1, toNat_byte_add_one v, ?inc⟩,
    ⟨v - 1, toNat_byte_sub_one v, ?dec⟩⟩⟩
  case inc => exact writesDirect_of_changeDirect (f := (· + 1)) rfl hv
  case dec => exact writesDirect_of_changeDirect (f := (· - 1)) rfl hv

/-! ### MUL AB (rule R143) -/

/-- The product of two bytes has 16 bits, so its two bytes lose nothing. -/
theorem multiply_bytes (a b : Byte) :
    (multiply a b).2.1.toNat * 256 + (multiply a b).1.toNat = a.toNat * b.toNat := by
  have hp : a.toNat * b.toNat < 256 * 256 := Nat.mul_lt_mul'' a.isLt b.isLt
  simp only [multiply, BitVec.toNat_ofNat]
  omega

/-- Settles O14, from the product and the two flags that are set after it. -/
theorem mulLeavesTheProductInBAndA : Obligations.MulLeavesTheProductInBAndA := by
  intro s
  refine ⟨⟨rfl, rfl, rfl, rfl⟩, _, rfl, rfl, multiply_bytes s.a s.b, ?cy, ?ov, ?otherBits⟩
  case cy => rw [cy_advance, cy_setOv, cy_setCy]
  case ov => rw [ov_advance, ov_setOv, multiply]
  case otherBits =>
    intro k hk h2
    have hk8 : k < 8 := by omega
    rw [advance_psw, setOv_psw, setCy_psw, getLsbD_withBit _ _ _ _ hk8, if_neg h2, getLsbD_withBit _ _ _ _ hk8,
      if_neg (by omega)]

/-! ### The data pointer (rule R142, 42_data_transfer.md rule R196) -/

theorem toNat_setDptr (w : Word) (s : State) : (setDptr w s).dph.toNat * 256 + (setDptr w s).dpl.toNat = w.toNat := by
  rw [setDptr_dph, setDptr_dpl, ← toNat_append_bytes, append_extract_bytes]

theorem exec_movDptr (w : Word) (s : State) : exec (.movDptr w) s = .next (advance 3 (setDptr w s)) := rfl

/-- Settles O13, from DPTR as the word of its two bytes. -/
theorem dataPointerIsLoadedAndIncrementedWhole : Obligations.DataPointerIsLoadedAndIncrementedWhole := by
  intro s h l
  refine ⟨⟨rfl, rfl, rfl, rfl⟩, movDptr_hasEncoding h l, ⟨_, rfl, rfl, ?incremented⟩, ?loaded⟩
  case incremented =>
    calc (setDptr (s.dptr + 1) s).dph.toNat * 256 + (setDptr (s.dptr + 1) s).dpl.toNat
      _ = (s.dptr + 1).toNat := toNat_setDptr _ s
      _ = (s.dptr.toNat + 1) % 65536 := BitVec.toNat_add s.dptr 1
      _ = (s.dph.toNat * 256 + s.dpl.toNat + 1) % 65536 := by rw [toNat_dptr]
  case loaded =>
    rw [exec_movDptr, setDptr, extract_high_append, extract_low_append]
    rfl

end Sys2Proof.Proofs.Arithmetic

/-! SUPPORT. The rules of 41_logic.md: the three byte-wide operations, the complement and the rotations of A, and the
statements settled with them. -/

namespace Sys2Proof.Proofs.Logic

open Sys2Proof.Machine Sys2Proof.Laws Sys2Proof.Proofs.Arithmetic

/-! ### Encodings (30_encoding.md rules R93, R98, R99) -/

theorem logicForm_hasEncoding (op : LogicOp) (src : Source) :
    HasEncoding (logicForm op src) (columnBytes op.high src) 1 := by
  cases src with
  | reg n => cases op <;> fin_cases n <;> exact ⟨rfl, rfl, rfl, rfl⟩
  | direct d => cases op <;> exact ⟨rfl, rfl, rfl, rfl⟩
  | ind i => cases op <;> fin_cases i <;> exact ⟨rfl, rfl, rfl, rfl⟩
  | imm k => cases op <;> exact ⟨rfl, rfl, rfl, rfl⟩

theorem logicDirectA_hasEncoding (op : LogicOp) (d : Byte) : HasEncoding (logicDirectA op d) [op.high + 2, d] 1 := by
  cases op <;> exact ⟨rfl, rfl, rfl, rfl⟩

theorem logicDirectImm_hasEncoding (op : LogicOp) (d k : Byte) :
    HasEncoding (logicDirectImm op d k) [op.high + 3, d, k] 2 := by
  cases op <;> exact ⟨rfl, rfl, rfl, rfl⟩

/-! ### The three operations on bytes (rule R150) -/

/-- The operation on whole bytes, as the forms compute it. -/
def onBytes : LogicOp → Byte → Byte → Byte
  | .anl, v, w => v &&& w
  | .orl, v, w => v ||| w
  | .xrl, v, w => v ^^^ w

/-- Each of the eight positions on its own. -/
theorem getLsbD_onBytes (op : LogicOp) (v w : Byte) (k : Nat) :
    (onBytes op v w).getLsbD k = op.onBits (v.getLsbD k) (w.getLsbD k) := by
  cases op with
  | anl => exact BitVec.getLsbD_and
  | orl => exact BitVec.getLsbD_or
  | xrl => exact BitVec.getLsbD_xor

/-- A source that can be read lets the operation complete; A alone takes its result. -/
theorem intoA_of_read {src : Source} {v : Byte} {s : State} (len : Nat) (f : Byte → Byte → Byte)
    (h : src.read s = .next v) : intoA src len f s = .next { s with a := f s.a v, pc := s.pc + BitVec.ofNat 16 len } :=
  onSource_of_read len _ h

theorem exec_logicForm (op : LogicOp) (src : Source) (s : State) :
    exec (logicForm op src) s = intoA src src.len (onBytes op) s := by
  cases op <;> cases src <;> rfl

theorem exec_logicDirectA (op : LogicOp) (d : Byte) (s : State) :
    exec (logicDirectA op d) s = changeDirect d (fun v => onBytes op v s.a) 2 s := by
  cases op <;> rfl

theorem exec_logicDirectImm (op : LogicOp) (d k : Byte) (s : State) :
    exec (logicDirectImm op d k) s = changeDirect d (fun v => onBytes op v k) 3 s := by
  cases op <;> rfl

/-- Settles O18, from the operation on bytes that the twelve forms share. -/
theorem logicIntoAWorksBitByBit : Obligations.LogicIntoAWorksBitByBit := by
  intro op src s
  refine ⟨logicForm_hasEncoding op src, fun v hv => ?completes⟩
  case completes =>
    have hexec := (exec_logicForm op src s).trans (intoA_of_read src.len (onBytes op) hv)
    exact ⟨_, hexec, rfl, fun k _ => getLsbD_onBytes op s.a v k⟩

/-- Settles O19, from what every read-modify-write of a direct byte does. -/
theorem logicIntoDirectWorksBitByBit : Obligations.LogicIntoDirectWorksBitByBit := by
  intro op d k s
  refine ⟨logicDirectA_hasEncoding op d, logicDirectImm_hasEncoding op d k, fun v hv => ⟨?withA, ?withImm⟩⟩
  case withA =>
    exact ⟨onBytes op v s.a, fun j _ => getLsbD_onBytes op v s.a j,
      writesDirect_of_changeDirect (f := (onBytes op · s.a)) (exec_logicDirectA op d s) hv⟩
  case withImm =>
    exact ⟨onBytes op v k, fun j _ => getLsbD_onBytes op v k j,
      writesDirect_of_changeDirect (f := (onBytes op · k)) (exec_logicDirectImm op d k s) hv⟩

/-! ### The bits of a complement and of a rotation (rules R170, R171, R173, R175) -/

theorem getLsbD_complement (v : Byte) (k : Nat) (hk : k < 8) : (~~~v).getLsbD k = !v.getLsbD k := by
  rw [BitVec.getLsbD_not, decide_eq_true hk, Bool.true_and]

/-- Rotating left by r fetches each bit from r places below, around the ring. -/
theorem getLsbD_rotateLeft_ring {w : Nat} (v : BitVec w) {r k : Nat} (hr : r < w) (hk : k < w) :
    (v.rotateLeft r).getLsbD k = v.getLsbD ((k + (w - r)) % w) := by
  rw [BitVec.getLsbD_rotateLeft_of_le hr]
  by_cases hkr : k < r
  · rw [decide_eq_true hkr, cond_true, Nat.add_comm, Nat.mod_eq_of_lt (by omega)]
  · have wraps : (k + (w - r)) % w = k - r := by
      rw [Nat.mod_eq_sub_mod (by omega), Nat.mod_eq_of_lt (by omega)]
      omega
    rw [decide_eq_false hkr, cond_false, decide_eq_true hk, Bool.true_and, wraps]

/-- Rotating right by r fetches each bit from r places above, around the ring. -/
theorem getLsbD_rotateRight_ring {w : Nat} (v : BitVec w) {r k : Nat} (hr : r < w) (hk : k < w) :
    (v.rotateRight r).getLsbD k = v.getLsbD ((k + r) % w) := by
  rw [BitVec.getLsbD_rotateRight_of_lt hr]
  by_cases hkr : k < w - r
  · rw [decide_eq_true hkr, cond_true, Nat.add_comm, Nat.mod_eq_of_lt (by omega)]
  · have wraps : (k + r) % w = k - (w - r) := by
      rw [Nat.mod_eq_sub_mod (by omega), Nat.mod_eq_of_lt (by omega)]
      omega
    rw [decide_eq_false hkr, cond_false, decide_eq_true hk, Bool.true_and, wraps]

/-- Settles O20, from the bits of a complement and of a rotation. -/
theorem accumulatorOperationsPermuteOrFillItsBits : Obligations.AccumulatorOperationsPermuteOrFillItsBits := by
  intro s
  refine ⟨⟨⟨rfl, rfl, rfl, rfl⟩, rfl⟩, ⟨⟨rfl, rfl, rfl, rfl⟩, _, rfl, rfl, ?complemented⟩,
    ⟨⟨rfl, rfl, rfl, rfl⟩, _, rfl, rfl, ?left⟩, ⟨⟨rfl, rfl, rfl, rfl⟩, _, rfl, rfl, ?right⟩,
    ⟨rfl, rfl, rfl, rfl⟩, _, rfl, rfl, ?swapped⟩
  case complemented => exact getLsbD_complement s.a
  case left => exact fun k hk => getLsbD_rotateLeft_ring s.a (by decide) hk
  case right => exact fun k hk => getLsbD_rotateRight_ring s.a (by decide) hk
  case swapped => exact fun k hk => getLsbD_rotateLeft_ring s.a (by decide) hk

/-! ### The rotations through C (rules R172, R174) -/

/-- A shift left with x entering at bit 0. -/
theorem getLsbD_shiftLeft_enter (v : Byte) (x : Bool) (k : Nat) (hk : k < 8) :
    (withBit (v <<< 1) 0 x).getLsbD k = if k = 0 then x else v.getLsbD (k - 1) := by
  rw [getLsbD_withBit _ _ _ _ hk]
  split
  · rfl
  · rw [BitVec.getLsbD_shiftLeft, decide_eq_true hk, decide_eq_false (by omega), Bool.true_and, Bool.not_false,
      Bool.true_and]

/-- A shift right with x entering at bit 7. -/
theorem getLsbD_shiftRight_enter (v : Byte) (x : Bool) (k : Nat) (hk : k < 8) :
    (withBit (v >>> 1) 7 x).getLsbD k = if k = 7 then x else v.getLsbD (k + 1) := by
  rw [getLsbD_withBit _ _ _ _ hk, BitVec.getLsbD_ushiftRight, Nat.add_comm]

/-- Setting C keeps the seven bits of the PSW below it. -/
theorem getLsbD_psw_setCy (c : Bool) (s : State) (k : Nat) (hk : k < 7) :
    (setCy c s).psw.getLsbD k = s.psw.getLsbD k := by
  rw [setCy_psw, getLsbD_withBit _ _ _ _ (by omega), if_neg (by omega)]

/-- Settles O21, from the shifts of A with C entering and the bit shifted out going to C. -/
theorem rotatesThroughCarryTurnNineBits : Obligations.RotatesThroughCarryTurnNineBits := by
  intro s
  refine ⟨⟨⟨rfl, rfl, rfl, rfl⟩, _, rfl, rfl, ?leftCarry, ?leftA, ?leftPsw⟩,
    ⟨rfl, rfl, rfl, rfl⟩, _, rfl, rfl, ?rightCarry, ?rightA, ?rightPsw⟩
  case leftCarry => rw [cy_advance, cy_setCy]
  case leftA => exact getLsbD_shiftLeft_enter s.a s.cy
  case leftPsw => exact getLsbD_psw_setCy _ _
  case rightCarry => rw [cy_advance, cy_setCy]
  case rightA => exact getLsbD_shiftRight_enter s.a s.cy
  case rightPsw => exact getLsbD_psw_setCy _ _

end Sys2Proof.Proofs.Logic

/-! SUPPORT. The rules of 42_data_transfer.md: MOV to A, to a working register, to a direct byte and to @Ri, MOVC, POP
and XCHD, and the statements settled with them. -/

namespace Sys2Proof.Proofs.DataTransfer

open Sys2Proof.Machine Sys2Proof.Laws Sys2Proof.Proofs.InternalRam Sys2Proof.Proofs.Arithmetic Sys2Proof.Proofs.Logic

/-! ### Encodings (30_encoding.md rules R93, R98, R99) -/

theorem movIntoRn_hasEncoding (n : RegNo) (d k : Byte) :
    HasEncoding (.movRnA n) [0xF8 + BitVec.ofNat 8 n.val] 1 ∧
      HasEncoding (.movRnDirect n d) [0xA8 + BitVec.ofNat 8 n.val, d] 2 ∧
      HasEncoding (.movRnImm n k) [0x78 + BitVec.ofNat 8 n.val, k] 1 := by
  fin_cases n <;> exact ⟨⟨rfl, rfl, rfl, rfl⟩, ⟨rfl, rfl, rfl, rfl⟩, ⟨rfl, rfl, rfl, rfl⟩⟩

theorem movIntoInd_hasEncoding (i : IndNo) (d k : Byte) :
    HasEncoding (.movIndA i) [0xF6 + BitVec.ofNat 8 i.val] 1 ∧
      HasEncoding (.movIndDirect i d) [0xA6 + BitVec.ofNat 8 i.val, d] 2 ∧
      HasEncoding (.movIndImm i k) [0x76 + BitVec.ofNat 8 i.val, k] 1 := by
  fin_cases i <;> exact ⟨⟨rfl, rfl, rfl, rfl⟩, ⟨rfl, rfl, rfl, rfl⟩, ⟨rfl, rfl, rfl, rfl⟩⟩

theorem movDirectRn_hasEncoding (n : RegNo) (d : Byte) :
    HasEncoding (.movDirectRn n d) [0x88 + BitVec.ofNat 8 n.val, d] 2 := by
  fin_cases n <;> exact ⟨rfl, rfl, rfl, rfl⟩

theorem movDirectInd_hasEncoding (i : IndNo) (d : Byte) :
    HasEncoding (.movDirectInd i d) [0x86 + BitVec.ofNat 8 i.val, d] 2 := by
  fin_cases i <;> exact ⟨rfl, rfl, rfl, rfl⟩

theorem movARn_hasEncoding (n : RegNo) : HasEncoding (.movARn n) [0xE8 + BitVec.ofNat 8 n.val] 1 := by
  fin_cases n <;> exact ⟨rfl, rfl, rfl, rfl⟩

theorem movAInd_hasEncoding (i : IndNo) : HasEncoding (.movAInd i) [0xE6 + BitVec.ofNat 8 i.val] 1 := by
  fin_cases i <;> exact ⟨rfl, rfl, rfl, rfl⟩

theorem xchd_hasEncoding (i : IndNo) : HasEncoding (.xchd i) [0xD6 + BitVec.ofNat 8 i.val] 1 := by
  fin_cases i <;> exact ⟨rfl, rfl, rfl, rfl⟩

/-- Two bytes that the table takes for a form of two bytes decode to it, with nothing left. -/
theorem decode_of_decodeForm {op b : Byte} {i : Instr} (hlen : opLength op = some 2)
    (hform : decodeForm op b 0#8 = .ok i) : decode [op, b] = .ok (i, []) := by
  simp [decode, hlen, hform]

/-- The one form whose decoding looks at an operand byte: E5H E0H would be MOV A,ACC (30_encoding.md rule R101). -/
theorem movADirect_hasEncoding {d : Byte} (hd : d ≠ accAddress) : HasEncoding (.movADirect d) [0xE5, d] 1 := by
  have wellFormed : (Instr.movADirect d).wf = true := bne_iff_ne.2 hd
  exact ⟨decode_of_decodeForm rfl (if_pos wellFormed), rfl, rfl, rfl⟩

/-! ### A write of a direct byte (20_memory.md rule R67) -/

/-- A form that ends in the write of a direct byte that exists completes, whatever state of the same pc it writes in. -/
theorem writesDirect_of_exec {i : Instr} {d v : Byte} {len : Nat} {s u : State} (hd : DirectExists d u)
    (hpc : u.pc = s.pc) (hexec : exec i s = thenAdvance len (directWrite d v u)) : WritesDirect i len d v s u := by
  obtain ⟨t, ht⟩ := directWrite_of_exists v hd
  have change : DirectChange d v u t := directWrite_eq_next ht
  refine ⟨t, ht, change, ?completes⟩
  case completes => rw [hexec, ht, thenAdvance, andThen_next, advance, nextPc, directChange_pc change, hpc]

/-- A source that can be read is copied to a direct byte that exists. -/
theorem writesDirect_of_moveToDirect {i : Instr} {d v : Byte} {src : Source} {len : Nat} {s : State}
    (hd : DirectExists d s) (hexec : exec i s = moveToDirect d src len s) (hv : src.read s = .next v) :
    WritesDirect i len d v s s := by
  refine writesDirect_of_exec hd rfl ?copied
  case copied => rw [hexec, moveToDirect, hv, andThen_next]

/-- Settles O24, from the copy of any source to a direct byte. -/
theorem movIntoDirectCopiesItsSource : Obligations.MovIntoDirectCopiesItsSource := by
  intro d s hd
  refine ⟨⟨⟨rfl, rfl, rfl, rfl⟩, writesDirect_of_exec hd rfl rfl⟩, ?immediate, ?register, ?indirect, ?direct⟩
  case immediate =>
    intro k
    exact ⟨⟨rfl, rfl, rfl, rfl⟩, writesDirect_of_moveToDirect (src := .imm k) hd rfl rfl⟩
  case register =>
    intro n
    exact ⟨movDirectRn_hasEncoding n d, fun v hv => writesDirect_of_moveToDirect (src := .reg n) hd rfl hv⟩
  case indirect =>
    intro i
    exact ⟨movDirectInd_hasEncoding i d, fun v hv => writesDirect_of_moveToDirect (src := .ind i) hd rfl hv⟩
  case direct =>
    intro src
    exact ⟨⟨rfl, rfl, rfl, rfl⟩, fun v hv => writesDirect_of_moveToDirect (src := .direct src) hd rfl hv⟩

/-! ### MOVC (rules R197, R198) -/

theorem codeRead_of_read {w : Word} {v : Byte} {s : State} (h : s.code.read w.toNat = some v) :
    codeRead w s = .next v := by
  rw [codeRead, h]

/-- A program address with A added to it, A being zero-extended. -/
theorem toNat_add_zeroExtend (w : Word) (v : Byte) : (w + v.zeroExtend 16).toNat = (w.toNat + v.toNat) % 65536 := by
  rw [BitVec.toNat_add, BitVec.toNat_setWidth_of_le (by decide)]

/-- Where program memory holds a byte, the meaning of MOVC loads it into A. -/
theorem movc_of_read {w : Word} {v : Byte} {s : State} (h : s.code.read w.toNat = some v) :
    (andThen (codeRead w s) fun x => .next (advance 1 { s with a := x })) = .next { s with a := v, pc := s.pc + 1 } := by
  rw [codeRead_of_read h, andThen_next]
  rfl

/-- Settles O26, from the address that each form reads. -/
theorem movcReadsAProgramByte : Obligations.MovcReadsAProgramByte := by
  intro s v
  refine ⟨⟨⟨rfl, rfl, rfl, rfl⟩, ?fromDptr⟩, ⟨rfl, rfl, rfl, rfl⟩, ?fromPc⟩
  case fromDptr =>
    intro h
    rw [← toNat_dptr, ← toNat_add_zeroExtend] at h
    exact movc_of_read h
  case fromPc =>
    intro h
    have address : (nextPc 1 s + s.a.zeroExtend 16).toNat = (s.pc.toNat + 1 + s.a.toNat) % 65536 := by
      rw [toNat_add_zeroExtend, nextPc, BitVec.toNat_add]
      exact Nat.mod_add_mod _ _ _
    rw [← address] at h
    exact movc_of_read h

/-! ### POP (rule R204) -/

/-- A byte that can be popped is written in the state with SP decremented. -/
theorem exec_pop_of_read {d v : Byte} {s : State} (h : iramRead s.sp s = .next v) :
    exec (.pop d) s = thenAdvance 2 (directWrite d v { s with sp := s.sp - 1 }) := by
  change execPop d s = _
  rw [execPop, pop_of_read h, andThen_next]

/-- Settles O30: SP does not decide which direct addresses exist, and 81H is SP itself. -/
theorem popLoadsItsDestinationFromTheStack : Obligations.PopLoadsItsDestinationFromTheStack := by
  intro d v s
  refine ⟨⟨rfl, rfl, rfl, rfl⟩, fun hv => ⟨?destination, ?stackPointer⟩⟩
  case destination =>
    intro hd
    have existsAfter : DirectExists d { s with sp := s.sp - 1 } := hd
    exact writesDirect_of_exec existsAfter rfl (exec_pop_of_read hv)
  case stackPointer =>
    rw [exec_pop_of_read hv]
    rfl

/-! ### MOV A,source (rules R181 to R184) -/

theorem exec_movAForm {src : Source} (hsrc : src ≠ .direct accAddress) (s : State) :
    exec (movAForm src) s = intoA src src.len (fun _ v => v) s := by
  cases src with
  | reg n => rfl
  | direct d => exact if_neg fun hd => hsrc (congrArg Source.direct hd)
  | ind i => rfl
  | imm k => rfl

/-- Settles O22, from the copy of any source but ACC into A. -/
theorem movIntoACopiesItsSource : Obligations.MovIntoACopiesItsSource := by
  intro src s hsrc
  refine ⟨?encoding, fun v hv => ?completes⟩
  case encoding =>
    cases src with
    | reg n => exact movARn_hasEncoding n
    | direct d => exact movADirect_hasEncoding fun hd => hsrc (congrArg Source.direct hd)
    | ind i => exact movAInd_hasEncoding i
    | imm k => exact ⟨rfl, rfl, rfl, rfl⟩
  case completes => exact (exec_movAForm hsrc s).trans (intoA_of_read src.len (fun _ v => v) hv)

/-! ### MOV Rn,source and MOV @Ri,source (rules R185 to R187, R193 to R195) -/

/-- A write of a cell that exists completes and changes that cell and pc alone. -/
theorem writesCell_of_lt {a : Byte} {s : State} (v : Byte) (len : Nat) (ha : a.toNat < s.plat.iramSize.count) :
    ∃ t, thenAdvance len (iramWrite a v s) = .next t ∧ CellWritten a v len s t := by
  refine ⟨_, ?completes, cellWritten_advance a v len s ha⟩
  case completes => rw [iramWrite_of_lt v ha, thenAdvance, andThen_next]

/-- The cell of a working register always exists, so only the source can stop the copy. -/
theorem moveToReg_of_read {src : Source} {v : Byte} {s : State} (n : RegNo) (len : Nat) (hv : src.read s = .next v) :
    ∃ t, moveToReg n src len s = .next t ∧ CellWritten (regCell n.val s) v len s t := by
  rw [moveToReg, hv, andThen_next]
  exact writesCell_of_lt v len (regCell_lt n.val s n.isLt)

theorem moveToInd_of_read {i : IndNo} {a v : Byte} {src : Source} {s : State} (len : Nat)
    (ha : indAddress i s = .next a) (hlt : a.toNat < s.plat.iramSize.count) (hv : src.read s = .next v) :
    ∃ t, moveToInd i src len s = .next t ∧ CellWritten a v len s t := by
  rw [moveToInd, ha, andThen_next, hv, andThen_next]
  exact writesCell_of_lt v len hlt

/-- Settles O23, from the copy of any source to a working register. -/
theorem movIntoRegisterCopiesItsSource : Obligations.MovIntoRegisterCopiesItsSource := by
  intro n d k s
  obtain ⟨fromA, fromDirect, fromImm⟩ := movIntoRn_hasEncoding n d k
  refine ⟨⟨fromA, ?acc⟩, ⟨fromDirect, fun v hv => ?direct⟩, fromImm, ?immediate⟩
  case acc => exact writesCell_of_lt s.a 1 (regCell_lt n.val s n.isLt)
  case direct => exact moveToReg_of_read (src := .direct d) n 2 hv
  case immediate => exact moveToReg_of_read (src := .imm k) n 2 rfl

/-- Settles O25, from the copy of any source to the cell that @Ri addresses. -/
theorem movIntoIndirectCopiesItsSource : Obligations.MovIntoIndirectCopiesItsSource := by
  intro i a d k s
  obtain ⟨fromA, fromDirect, fromImm⟩ := movIntoInd_hasEncoding i d k
  refine ⟨fromA, fromDirect, fromImm, fun ha hlt => ⟨?acc, fun v hv => ?direct, ?immediate⟩⟩
  case acc =>
    have meaning : exec (.movIndA i) s = thenAdvance 1 (iramWrite a s.a s) :=
      congrArg (thenAdvance 1) (indWrite_of_indAddress s.a ha)
    rw [meaning]
    exact writesCell_of_lt s.a 1 hlt
  case direct => exact moveToInd_of_read (src := .direct d) 2 ha hlt hv
  case immediate => exact moveToInd_of_read (src := .imm k) 2 ha hlt rfl

/-! ### XCHD (rule R208) -/

theorem toNat_nibbles (high low : Byte) : (nibbles high low).toNat = high.toNat / 16 * 16 + low.toNat % 16 := by
  have bound := high.isLt
  have parts : (nibbles high low).toNat = (high.extractLsb' 4 4).toNat <<< 4 ||| (low.extractLsb' 0 4).toNat :=
    BitVec.toNat_append _ _
  rw [parts, Nat.shiftLeft_eq, Nat.mul_comm, ← Nat.two_pow_add_eq_or_of_lt (low.extractLsb' 0 4).isLt]
  simp only [BitVec.extractLsb'_toNat, Nat.shiftRight_eq_div_pow]
  omega

/-- Settles O32, from the write of the cell and the value of two nibbles. -/
theorem xchdExchangesLowNibbles : Obligations.XchdExchangesLowNibbles := by
  intro i a v s
  refine ⟨xchd_hasEncoding i, fun ha hv => ?exchanged⟩
  case exchanged =>
    obtain ⟨u, hu, frame, cell, others⟩ := iramWrite_reads_back (nibbles v s.a) (iramRead_eq_next.1 hv).1
    have reads : ∀ c, iramRead c (advance 1 { u with a := nibbles s.a v }) = iramRead c u :=
      fun c => iramRead_congr c rfl rfl
    refine ⟨advance 1 { u with a := nibbles s.a v }, nibbles v s.a, ?completes, ?onlyAAndCell, toNat_nibbles s.a v,
      toNat_nibbles v s.a, (reads a).trans cell, fun c hc => (reads c).trans (others c hc)⟩
    case completes =>
      change execXchd i s = _
      rw [execXchd, ha, andThen_next, hv, andThen_next, hu, andThen_next]
    case onlyAAndCell =>
      rw [frame]
      rfl

end Sys2Proof.Proofs.DataTransfer

/-! SUPPORT. The rules of 43_boolean.md: the operations on C, those that combine a bit into C and those that write one
bit, and the statements settled with them. -/

namespace Sys2Proof.Proofs.Boolean

open Sys2Proof.Machine Sys2Proof.Laws Sys2Proof.Proofs.Arithmetic Sys2Proof.Proofs.Logic

/-! ### C alone (rules R216, R218, R220) -/

theorem onlyCy_advance_setCy (c : Bool) (len : Nat) (s : State) : OnlyCy c s (advance len (setCy c s)) := by
  refine ⟨rfl, ?carry, ?lowerBits⟩
  case carry => rw [cy_advance, cy_setCy]
  case lowerBits =>
    rw [advance_psw]
    exact getLsbD_psw_setCy c s

/-- Settles O33, from what setting C and going on to the next instruction change. -/
theorem carryIsClearedSetAndComplemented : Obligations.CarryIsClearedSetAndComplemented := by
  intro s
  refine ⟨⟨⟨rfl, rfl, rfl, rfl⟩, _, rfl, ?clear, rfl⟩, ⟨⟨rfl, rfl, rfl, rfl⟩, _, rfl, ?set, rfl⟩,
    ⟨rfl, rfl, rfl, rfl⟩, _, rfl, ?complement, rfl⟩
  case clear => exact onlyCy_advance_setCy false 1 s
  case set => exact onlyCy_advance_setCy true 1 s
  case complement => exact onlyCy_advance_setCy (!s.cy) 1 s

/-! ### A bit combined into C (rules R222 to R226) -/

/-- A bit that can be read is combined into C, whatever the Boolean function; C and pc alone change. -/
theorem bitIntoC_of_read {b : Byte} {v : Bool} {s : State} (f : Bool → Bool → Bool) (hv : bitRead b s = .next v) :
    ∃ t, bitIntoC b f s = .next t ∧ OnlyCy (f s.cy v) s t ∧ t.pc = s.pc + 2 := by
  refine ⟨advance 2 (setCy (f s.cy v) s), ?completes, onlyCy_advance_setCy (f s.cy v) 2 s, rfl⟩
  case completes => rw [bitIntoC, hv, andThen_next]

/-- Settles O35, one Boolean function for each form. -/
theorem bitsCombineIntoTheCarry : Obligations.BitsCombineIntoTheCarry := by
  intro b s
  refine ⟨⟨rfl, rfl, rfl, rfl⟩, ⟨rfl, rfl, rfl, rfl⟩, ⟨rfl, rfl, rfl, rfl⟩, ⟨rfl, rfl, rfl, rfl⟩,
    ⟨rfl, rfl, rfl, rfl⟩, fun v hv => ⟨?andBit, ?andNotBit, ?orBit, ?orNotBit, ?move⟩⟩
  case andBit => exact bitIntoC_of_read (fun c x => c && x) hv
  case andNotBit => exact bitIntoC_of_read (fun c x => c && !x) hv
  case orBit => exact bitIntoC_of_read (fun c x => c || x) hv
  case orNotBit => exact bitIntoC_of_read (fun c x => c || !x) hv
  case move => exact bitIntoC_of_read (fun _ x => x) hv

/-! ### One bit written (rules R217, R219, R221, R227 with 20_memory.md rules R69 to R71) -/

/-- A bit whose byte can be read the latch way can be written. -/
theorem bitWrite_of_bitReadRmw {b : Byte} {v : Bool} {s : State} (x : Bool) (hv : bitReadRmw b s = .next v) :
    ∃ t, bitWrite b x s = .next t := by
  obtain ⟨w, hw, -⟩ := andThen_eq_next hv
  rw [bitWrite, hw, andThen_next]
  exact directWrite_of_exists _ (exists_of_directReadRmw hw)

/-- A bit write changes the one bit of its byte and nothing else. -/
theorem bitChange_of_bitWrite {b : Byte} {x : Bool} {s t : State} (h : bitWrite b x s = .next t) :
    BitChange b x s t := by
  obtain ⟨v, hv, hw⟩ := bitWrite_eq_next h
  exact ⟨v, withBit v (bitNumber b) x, hv, fun k hk => getLsbD_withBit v (bitNumber b) k x hk, directWrite_eq_next hw⟩

/-- No bit address names a bit of pc. -/
theorem bitChange_pc {b : Byte} {x : Bool} {s t : State} (h : BitChange b x s t) : t.pc = s.pc := by
  obtain ⟨_, _, -, -, change⟩ := h
  exact directChange_pc change

/-- A form that ends in the write of a bit completes where the bit can be read the latch way. -/
theorem writesBit_of_exec {i : Instr} {b : Byte} {v x : Bool} {s : State} (hv : bitReadRmw b s = .next v)
    (hexec : exec i s = writeBit b x s) : WritesBit i b x s := by
  obtain ⟨t, ht⟩ := bitWrite_of_bitReadRmw x hv
  have change : BitChange b x s t := bitChange_of_bitWrite ht
  have following : advance 2 t = { t with pc := s.pc + 2 } := by
    rw [← bitChange_pc change]
    rfl
  refine ⟨t, ht, change, ?completes⟩
  case completes => rw [hexec, writeBit, ht, thenAdvance, andThen_next, following]

/-- CPL takes the bit that it complements the latch way. -/
theorem exec_cplBit_of_read {b : Byte} {v : Bool} {s : State} (hv : bitReadRmw b s = .next v) :
    exec (.cplBit b) s = writeBit b (!v) s := by
  change execCplBit b s = _
  rw [execCplBit, hv, andThen_next]

/-- Settles O34, from the write of a bit that the four forms share. -/
theorem bitWritesChangeOneBit : Obligations.BitWritesChangeOneBit := by
  intro b s
  refine ⟨⟨rfl, rfl, rfl, rfl⟩, ⟨rfl, rfl, rfl, rfl⟩, ⟨rfl, rfl, rfl, rfl⟩, ⟨rfl, rfl, rfl, rfl⟩,
    fun v hv => ⟨?clear, ?set, ?complement, ?move⟩⟩
  case clear => exact writesBit_of_exec hv rfl
  case set => exact writesBit_of_exec hv rfl
  case complement => exact writesBit_of_exec hv (exec_cplBit_of_read hv)
  case move => exact writesBit_of_exec hv rfl

end Sys2Proof.Proofs.Boolean

/-! SUPPORT. The rules of 44_program_control.md: where a jump goes, the calls, the compare-and-jump and the
decrement-and-jump forms, and the statements settled with them. -/

namespace Sys2Proof.Proofs.ProgramControl

open Sys2Proof.Machine Sys2Proof.Laws Sys2Proof.Proofs.InternalRam Sys2Proof.Proofs.Arithmetic Sys2Proof.Proofs.Logic
  Sys2Proof.Proofs.DataTransfer

/-! ### Encodings (30_encoding.md rules R93 to R95, R98, R99) -/

theorem decodeForm_withPage (p : BitVec 3) (l : Byte) :
    decodeForm (p ++ (0x11 : BitVec 5)) l 0#8 = .ok (.acall (p ++ l)) ∧
      decodeForm (p ++ (0x01 : BitVec 5)) l 0#8 = .ok (.ajmp (p ++ l)) := by
  obtain ⟨page⟩ := p
  fin_cases page <;> exact ⟨rfl, rfl⟩

/-- The page and the byte below it come back from the 11 bits that they form. -/
theorem encode_withPage (p : BitVec 3) (l : Byte) :
    encode (.acall (p ++ l)) = [p ++ (0x11 : BitVec 5), l] ∧ encode (.ajmp (p ++ l)) = [p ++ (0x01 : BitVec 5), l] := by
  have page : (p ++ l).extractLsb' 8 3 = p := BitVec.extractLsb'_append_eq_left
  have low : (p ++ l).extractLsb' 0 8 = l := BitVec.extractLsb'_append_eq_right
  constructor <;> rw [encode, opWithPage, page, low] <;> rfl

theorem acall_hasEncoding (p : BitVec 3) (l : Byte) :
    HasEncoding (.acall (p ++ l)) [p ++ (0x11 : BitVec 5), l] 2 :=
  ⟨decode_of_decodeForm (opLength_withPage p).1 (decodeForm_withPage p l).1, (encode_withPage p l).1, rfl, rfl⟩

theorem ajmp_hasEncoding (p : BitVec 3) (l : Byte) :
    HasEncoding (.ajmp (p ++ l)) [p ++ (0x01 : BitVec 5), l] 2 :=
  ⟨decode_of_decodeForm (opLength_withPage p).2 (decodeForm_withPage p l).2, (encode_withPage p l).2, rfl, rfl⟩

/-- The two address bytes come back from the word that they form (rule R95). -/
theorem encode_addr16 (h l : Byte) :
    encode (.lcall (h ++ l)) = [0x12, h, l] ∧ encode (.ljmp (h ++ l)) = [0x02, h, l] := by
  constructor <;> rw [encode, highByte, lowByte, extract_high_append, extract_low_append]

theorem lcall_hasEncoding (h l : Byte) : HasEncoding (.lcall (h ++ l)) [0x12, h, l] 2 :=
  ⟨rfl, (encode_addr16 h l).1, rfl, rfl⟩

theorem ljmp_hasEncoding (h l : Byte) : HasEncoding (.ljmp (h ++ l)) [0x02, h, l] 2 :=
  ⟨rfl, (encode_addr16 h l).2, rfl, rfl⟩

theorem cjneRnImm_hasEncoding (n : RegNo) (k rel : Byte) :
    HasEncoding (.cjneRnImm n k rel) [0xB8 + BitVec.ofNat 8 n.val, k, rel] 2 := by
  fin_cases n <;> exact ⟨rfl, rfl, rfl, rfl⟩

theorem cjneIndImm_hasEncoding (i : IndNo) (k rel : Byte) :
    HasEncoding (.cjneIndImm i k rel) [0xB6 + BitVec.ofNat 8 i.val, k, rel] 2 := by
  fin_cases i <;> exact ⟨rfl, rfl, rfl, rfl⟩

theorem djnzRn_hasEncoding (n : RegNo) (rel : Byte) :
    HasEncoding (.djnzRn n rel) [0xD8 + BitVec.ofNat 8 n.val, rel] 2 := by
  fin_cases n <;> exact ⟨rfl, rfl, rfl, rfl⟩

/-! ### Where a jump goes (rule R230, 30_encoding.md rule R94) -/

/-- The 16-bit word of an integer is that integer modulo 65536. -/
theorem pcIs_ofInt (z : Int) : PcIs (BitVec.ofInt 16 z) z := by
  rw [PcIs, BitVec.toNat_ofInt]
  exact Int.toNat_of_nonneg (Int.emod_nonneg z (by decide))

theorem nextPc_eq_ofInt (len : Nat) (s : State) : nextPc len s = BitVec.ofInt 16 (s.pc.toNat + len) := by
  rw [BitVec.ofInt_add, BitVec.ofInt_natCast, BitVec.ofInt_natCast, BitVec.ofNat_toNat, BitVec.setWidth_eq, nextPc]

theorem pcIs_nextPc (len : Nat) (s : State) : PcIs (nextPc len s) (s.pc.toNat + len) := by
  rw [nextPc_eq_ofInt]
  exact pcIs_ofInt _

/-- The displacement is sign-extended to 16 bits, so the target is a sum of integers, modulo 65536. -/
theorem pcIs_relTarget (rel : Byte) (len : Nat) (s : State) :
    PcIs (relTarget rel len s) (s.pc.toNat + len + rel.toInt) := by
  rw [relTarget, nextPc_eq_ofInt, BitVec.signExtend, ← BitVec.ofInt_add]
  exact pcIs_ofInt _

/-- A branch on a condition goes to the target where the condition holds, and else on to the next instruction. -/
theorem pcIs_branchIf {taken : Bool} {P : Prop} [Decidable P] (h : taken = true ↔ P) (rel : Byte) (len : Nat)
    (s : State) : PcIs (branchIf taken rel len s).pc (s.pc.toNat + len + if P then rel.toInt else 0) := by
  rw [branchIf_pc]
  by_cases hP : P
  case pos =>
    rw [if_pos (h.2 hP), if_pos hP]
    exact pcIs_relTarget rel len s
  case neg =>
    rw [if_neg (mt h.1 hP), if_neg hP, Int.add_zero]
    exact pcIs_nextPc len s

/-- The same for a branch that is taken where the condition fails. -/
theorem pcIs_branchIf_not {taken : Bool} {P : Prop} [Decidable P] (h : taken = true ↔ ¬ P) (rel : Byte) (len : Nat)
    (s : State) : PcIs (branchIf taken rel len s).pc (s.pc.toNat + len + if P then 0 else rel.toInt) := by
  rw [← ite_not]
  exact pcIs_branchIf h rel len s

theorem beq_iff_toNat_eq (v w : Byte) : (v == w) = true ↔ v.toNat = w.toNat := by
  rw [beq_iff_eq, BitVec.toNat_inj]

theorem bne_iff_toNat_ne (v w : Byte) : (v != w) = true ↔ ¬ v.toNat = w.toNat := by
  rw [bne_iff_ne, ne_eq, BitVec.toNat_inj]

theorem toNat_append_eq_add {m n : Nat} (x : BitVec m) (y : BitVec n) :
    (x ++ y).toNat = x.toNat * 2 ^ n + y.toNat := by
  rw [BitVec.toNat_append, Nat.shiftLeft_eq, Nat.mul_comm, ← Nat.two_pow_add_eq_or_of_lt y.isLt]

/-- The five bits of the page stand above the three of the first byte and the eight of the second (rule R94). -/
theorem toNat_pageTarget (p : BitVec 3) (l : Byte) (s : State) :
    (pageTarget (p ++ l) s).toNat = (s.pc + 2).toNat / 2048 * 2048 + p.toNat * 256 + l.toNat := by
  have page : ((s.pc + 2).extractLsb' 11 5).toNat = (s.pc + 2).toNat / 2048 := by
    have bound := (s.pc + 2).isLt
    rw [BitVec.extractLsb'_toNat, Nat.shiftRight_eq_div_pow]
    omega
  calc (pageTarget (p ++ l) s).toNat
    _ = ((s.pc + 2).extractLsb' 11 5).toNat * 2 ^ 11 + (p.toNat * 2 ^ 8 + l.toNat) := by
        rw [← toNat_append_eq_add, ← toNat_append_eq_add]
        rfl
    _ = (s.pc + 2).toNat / 2048 * 2048 + p.toNat * 256 + l.toNat := by
        rw [page]
        omega

/-! ### The jumps that load pc (rules R236 to R239, R253) -/

/-- Settles O39, from the four ways in which a destination is formed. -/
theorem jumpsLoadTheProgramCounter : Obligations.JumpsLoadTheProgramCounter := by
  intro p h l rel s
  refine ⟨⟨ajmp_hasEncoding p l, _, rfl, rfl, toNat_pageTarget p l s⟩, ⟨ljmp_hasEncoding h l, rfl⟩,
    ⟨⟨rfl, rfl, rfl, rfl⟩, _, rfl, rfl, pcIs_relTarget rel 2 s⟩, ⟨⟨rfl, rfl, rfl, rfl⟩, _, rfl, rfl, ?indexed⟩,
    ⟨rfl, rfl, rfl, rfl⟩, rfl⟩
  case indexed =>
    have sum : (s.dptr + s.a.zeroExtend 16).toNat = (s.dph.toNat * 256 + s.dpl.toNat + s.a.toNat) % 65536 := by
      rw [toNat_add_zeroExtend, toNat_dptr]
    exact congrArg Int.ofNat sum

/-! ### The conditional jumps on A, C and a bit (rules R240 to R245) -/

/-- Settles O40, from the branch and its condition. -/
theorem conditionalJumpsTestAAndC : Obligations.ConditionalJumpsTestAAndC := by
  intro rel s
  refine ⟨⟨⟨rfl, rfl, rfl, rfl⟩, _, rfl, rfl, ?zero⟩, ⟨⟨rfl, rfl, rfl, rfl⟩, _, rfl, rfl, ?nonzero⟩,
    ⟨⟨rfl, rfl, rfl, rfl⟩, _, rfl, rfl, ?carry⟩, ⟨rfl, rfl, rfl, rfl⟩, _, rfl, rfl, ?noCarry⟩
  case zero => exact pcIs_branchIf (beq_iff_toNat_eq s.a 0) rel 2 s
  case nonzero => exact pcIs_branchIf_not (bne_iff_toNat_ne s.a 0) rel 2 s
  case carry => exact pcIs_branchIf Iff.rfl rel 2 s
  case noCarry => exact pcIs_branchIf_not Bool.not_iff_not rel 2 s

theorem exec_jb_of_read {b rel : Byte} {v : Bool} {s : State} (hv : bitRead b s = .next v) :
    exec (.jb b rel) s = .next (branchIf v rel 3 s) := by
  change execJb b rel s = _
  rw [execJb, hv, andThen_next]

theorem exec_jnb_of_read {b rel : Byte} {v : Bool} {s : State} (hv : bitRead b s = .next v) :
    exec (.jnb b rel) s = .next (branchIf (!v) rel 3 s) := by
  change execJnb b rel s = _
  rw [execJnb, hv, andThen_next]

/-- Settles O41, from the branch on the bit that was read. -/
theorem bitJumpsTestOneBit : Obligations.BitJumpsTestOneBit := by
  intro b rel s
  refine ⟨⟨rfl, rfl, rfl, rfl⟩, ⟨rfl, rfl, rfl, rfl⟩, fun v hv => ⟨⟨_, exec_jb_of_read hv, rfl, ?set⟩,
    ⟨_, exec_jnb_of_read hv, rfl, ?clear⟩⟩⟩
  case set => exact pcIs_branchIf Iff.rfl rel 3 s
  case clear => exact pcIs_branchIf_not Bool.not_iff_not rel 3 s

/-! ### The calls (rules R232, R233 with 20_memory.md rules R72, R73) -/

theorem push_reads_back {s : State} (v : Byte) (room : (s.sp + 1).toNat < s.plat.iramSize.count) :
    ∃ t, push v s = .next t ∧ t = { s with sp := s.sp + 1, iram := t.iram } ∧ iramRead (s.sp + 1) t = .next v ∧
      ∀ c, c ≠ s.sp + 1 → iramRead c t = iramRead c s :=
  iramWrite_reads_back (s := { s with sp := s.sp + 1 }) v room

/-- Two cells that exist are enough to push an address; SP and those two cells alone change. -/
theorem pushWord_of_room {s : State} (w : Word) (room : RoomToPush s) :
    ∃ t, pushWord w s = .next t ∧ AddressPushed w s t ∧ t = { s with sp := t.sp, iram := t.iram } := by
  obtain ⟨lowRoom, highRoom⟩ := room
  obtain ⟨t, ht, frameLow, low, othersLow⟩ := push_reads_back (w.extractLsb' 0 8) lowRoom
  have samePlat : t.plat = s.plat := by rw [frameLow]
  have top : t.sp + 1 = s.sp + 2 := by
    rw [frameLow]
    exact BitVec.add_assoc s.sp 1 1
  obtain ⟨u, hu, frameHigh, high, othersHigh⟩ := push_reads_back (s := t) (w.extractLsb' 8 8) (by rwa [top, samePlat])
  rw [top] at frameHigh high othersHigh
  have distinct : s.sp + 1 ≠ s.sp + 2 := by bv_omega
  refine ⟨u, ?completes, ⟨?top, (othersHigh _ distinct).trans low, high, ?otherCells⟩, ?frame⟩
  case completes => rw [pushWord, ht, andThen_next, hu]
  case top => rw [frameHigh]
  case otherCells => exact fun c hlow hhigh => (othersHigh c hhigh).trans (othersLow c hlow)
  case frame => rw [frameHigh, frameLow]

/-- What the two calls share: the push of one address and the jump to another. -/
theorem call_of_room {s : State} (following destination : Word) (room : RoomToPush s) :
    ∃ t, (andThen (pushWord following s) fun u => .next { u with pc := destination }) = .next t ∧
      AddressPushed following s t ∧ t = { s with sp := t.sp, iram := t.iram, pc := destination } := by
  obtain ⟨u, hu, pushed, frame⟩ := pushWord_of_room following room
  refine ⟨{ u with pc := destination }, ?completes, pushed, ?frame⟩
  case completes => rw [hu, andThen_next]
  case frame => rw [frame]

/-- Settles O36, from the push of the following address. -/
theorem callsPushTheFollowingAddress : Obligations.CallsPushTheFollowingAddress := by
  intro p h l s
  refine ⟨acall_hasEncoding p l, lcall_hasEncoding h l, fun room => ⟨?inPage, ?anywhere⟩⟩
  case inPage =>
    obtain ⟨t, ht, pushed, frame⟩ := call_of_room (nextPc 2 s) (pageTarget (p ++ l) s) room
    have destination : t.pc = pageTarget (p ++ l) s := by rw [frame]
    refine ⟨t, ht, pushed, ?frame, ?address⟩
    case frame =>
      rw [destination]
      exact frame
    case address => rw [destination, toNat_pageTarget]
  case anywhere => exact call_of_room (nextPc 3 s) (h ++ l) room

/-! ### CJNE (rules R247 to R250) -/

theorem onlyCy_branchIf_setCy (c taken : Bool) (rel : Byte) (len : Nat) (s : State) :
    OnlyCy c s (branchIf taken rel len (setCy c s)) :=
  ⟨rfl, cy_setCy c s, getLsbD_psw_setCy c s⟩

/-- The comparison always completes: C tells "below", the branch is taken on a difference. -/
theorem compareJump_completes (dest src rel : Byte) (s : State) :
    ∃ t, compareJump dest src rel s = .next t ∧ OnlyCy (decide (dest.toNat < src.toNat)) s t ∧
      PcIs t.pc (s.pc.toNat + 3 + if dest.toNat = src.toNat then 0 else rel.toInt) :=
  ⟨_, rfl, onlyCy_branchIf_setCy _ _ rel 3 s, pcIs_branchIf_not (bne_iff_toNat_ne dest src) rel 3 _⟩

/-- Settles O43: each form is the comparison of the two operands that it reads. -/
theorem cjneComparesUnsigned : Obligations.CjneComparesUnsigned := by
  intro d k rel s form dest src
  refine ⟨⟨rfl, rfl, rfl, rfl⟩, ⟨rfl, rfl, rfl, rfl⟩, fun n => cjneRnImm_hasEncoding n k rel,
    fun i => cjneIndImm_hasEncoding i k rel, fun operands => ?compares⟩
  case compares =>
    have meaning : exec form s = compareJump dest src rel s := by
      obtain ⟨rfl, rfl, hv⟩ | ⟨rfl, rfl, rfl⟩ | ⟨n, rfl, hv, rfl⟩ | ⟨i, rfl, hv, rfl⟩ := operands
      · change execCjneADirect d rel s = _
        rw [execCjneADirect, hv, andThen_next]
      · rfl
      · change execCjneRnImm n src rel s = _
        rw [execCjneRnImm, hv, andThen_next]
      · change execCjneIndImm i src rel s = _
        rw [execCjneIndImm, hv, andThen_next]
    rw [meaning]
    exact compareJump_completes dest src rel s

/-! ### DJNZ (rules R251, R252) -/

theorem eq_sub_one_of_toNat {v w : Byte} (h : w.toNat = (v.toNat + 255) % 256) : w = v - 1 :=
  BitVec.eq_of_toNat_eq (h.trans (toNat_byte_sub_one v).symm)

/-- The branch is on the byte that was written, in the state after the write. -/
theorem exec_djnzRn_of_read {n : RegNo} {rel v : Byte} {s u : State} (hv : regRead n s = .next v)
    (hu : iramWrite (regCell n.val s) (v - 1) s = .next u) :
    exec (.djnzRn n rel) s = .next (branchIf (v - 1 != 0) rel 2 u) := by
  change execDjnzRn n rel s = _
  rw [execDjnzRn, hv, andThen_next, regWrite, hu, andThen_next]

theorem exec_djnzDirect_of_read {d rel v : Byte} {s u : State} (hv : directReadRmw d s = .next v)
    (hu : directWrite d (v - 1) s = .next u) :
    exec (.djnzDirect d rel) s = .next (branchIf (v - 1 != 0) rel 3 u) := by
  change execDjnzDirect d rel s = _
  rw [execDjnzDirect, hv, andThen_next, hu, andThen_next]

/-- Settles O44, from the write of the byte less one and the branch on what was written. -/
theorem djnzDecrementsAndTests : Obligations.DjnzDecrementsAndTests := by
  intro d rel v w s hw
  obtain rfl : w = v - 1 := eq_sub_one_of_toNat hw
  refine ⟨fun n => ⟨djnzRn_hasEncoding n rel, fun hv => ?register⟩, ⟨rfl, rfl, rfl, rfl⟩, fun hv => ?direct⟩
  case register =>
    obtain ⟨u, hu, frame, cell, others⟩ := iramWrite_reads_back (v - 1) (regCell_lt n.val s n.isLt)
    have samePc : u.pc = s.pc := by rw [frame]
    refine ⟨_, exec_djnzRn_of_read hv hu, ?onlyCellAndPc, cell, others, ?branch⟩
    case onlyCellAndPc =>
      rw [frame]
      rfl
    case branch =>
      rw [← samePc]
      exact pcIs_branchIf_not (bne_iff_toNat_ne (v - 1) 0) rel 2 u
  case direct =>
    obtain ⟨u, hu⟩ := directWrite_of_exists (v - 1) (exists_of_directReadRmw hv)
    have change : DirectChange d (v - 1) s u := directWrite_eq_next hu
    refine ⟨_, u, hu, change, exec_djnzDirect_of_read hv hu, rfl, ?branch⟩
    case branch =>
      rw [← directChange_pc change]
      exact pcIs_branchIf_not (bne_iff_toNat_ne (v - 1) 0) rel 3 u

end Sys2Proof.Proofs.ProgramControl

/-! SUPPORT. Decimal addition, 40_arithmetic.md rule R145 after rule R120 (70_reset_and_hazards.md rule R299 (b)), and the
statement settled with it. C over A is followed as one number: A holds it modulo 256 and C tells that it is above 255. -/

namespace Sys2Proof.Proofs.DecimalAddition

open Sys2Proof.Machine Sys2Proof.Laws Sys2Proof.Proofs.Arithmetic

/-! ### The two steps of the adjustment (rule R145) -/

/-- A step that applies adds to C over A as to one number: C is never cleared, so a carry out is not lost. -/
theorem daStep_eq_add (applies : Bool) (addend total : Nat) :
    daStep applies addend (total % 256) (decide (total > 255)) =
      ((total + if applies then addend else 0) % 256, decide (total + (if applies then addend else 0) > 255)) := by
  cases applies with
  | false => rfl
  | true =>
    have carry : total > 255 ∨ total % 256 + addend > 255 ↔ total + addend > 255 := by omega
    simp only [daStep, if_true, Nat.mod_add_mod, ← Bool.decide_or, carry]

/-- The low step carries ten of the low digit sum into the tens; it applies where that sum is no digit, which the
adder's half carry tells from 16 on. -/
theorem daStep_low_digit {tens ones : Nat} (hones : ones < 20) :
    daStep (decide ((tens * 16 + ones) % 256 % 16 > 9) || decide (ones > 15)) 0x06 ((tens * 16 + ones) % 256)
        (decide (tens * 16 + ones > 255)) =
      (((tens + ones / 10) * 16 + ones % 10) % 256, decide ((tens + ones / 10) * 16 + ones % 10 > 255)) := by
  have applies : (tens * 16 + ones) % 256 % 16 > 9 ∨ ones > 15 ↔ ones > 9 := by omega
  have total : (tens * 16 + ones + if ones > 9 then 0x06 else 0) = (tens + ones / 10) * 16 + ones % 10 := by
    split <;> omega
  simp only [daStep_eq_add, ← Bool.decide_or, applies, decide_eq_true_eq, total]

/-- The high step turns ten of the tens into C; it applies where the tens are no digit, which C tells from 16 on. -/
theorem daStep_high_digit {tens ones : Nat} (htens : tens < 20) (hones : ones < 10) :
    daStep (decide ((tens * 16 + ones) % 256 / 16 > 9) || decide (tens * 16 + ones > 255)) 0x60
        ((tens * 16 + ones) % 256) (decide (tens * 16 + ones > 255)) =
      (tens % 10 * 16 + ones, decide (tens > 9)) := by
  have applies : (tens * 16 + ones) % 256 / 16 > 9 ∨ tens * 16 + ones > 255 ↔ tens > 9 := by omega
  have total : (tens * 16 + ones + if tens > 9 then 0x60 else 0) = tens / 10 * 256 + (tens % 10 * 16 + ones) := by
    split <;> omega
  have digits : (tens / 10 * 256 + (tens % 10 * 16 + ones)) % 256 = tens % 10 * 16 + ones := by omega
  have carry : tens / 10 * 256 + (tens % 10 * 16 + ones) > 255 ↔ tens > 9 := by omega
  simp only [daStep_eq_add, ← Bool.decide_or, applies, decide_eq_true_eq, total, digits, carry]

/-- From the two digit sums of a binary addition, DA A makes the packed BCD of their decimal value, and its hundreds. -/
theorem decimalAdjust_digit_sums {a : Byte} {ac c : Bool} {tens ones : Nat} (htens : tens < 19) (hones : ones < 20)
    (ha : a.toNat = (tens * 16 + ones) % 256) (hac : ac = decide (ones > 15))
    (hc : c = decide (tens * 16 + ones > 255)) :
    decimalAdjust a ac c =
      (BitVec.ofNat 8 ((tens + ones / 10) % 10 * 16 + ones % 10), decide (tens + ones / 10 > 9)) := by
  simp only [decimalAdjust, ha, hac, hc, daStep_low_digit hones]
  rw [daStep_high_digit (by omega) (by omega)]

/-! ### ADDC A,#data and DA A (rules R129, R145) -/

theorem exec_daA (s : State) :
    exec .daA s =
      .next (advance 1 (setCy (decimalAdjust s.a s.ac s.cy).2 { s with a := (decimalAdjust s.a s.ac s.cy).1 })) := rfl

theorem toNat_ofNat_packed {n : Nat} (hn : n < 100) :
    (BitVec.ofNat 8 (n / 10 * 16 + n % 10)).toNat = n / 10 * 16 + n % 10 := by
  rw [BitVec.toNat_ofNat]
  omega

/-- The decimal digits of a sum, from the sums of the digits. -/
theorem digits_add (x y c : Nat) :
    (x + y + c) % 100 / 10 = (x / 10 + y / 10 + (x % 10 + y % 10 + c) / 10) % 10 ∧
      (x + y + c) % 10 = (x % 10 + y % 10 + c) % 10 ∧
      (x + y + c > 99 ↔ x / 10 + y / 10 + (x % 10 + y % 10 + c) / 10 > 9) := by
  have carried : (x + y + c) / 10 = x / 10 + y / 10 + (x % 10 + y % 10 + c) / 10 := by omega
  rw [← carried]
  omega

/-- The adder adds the tens and the ones of two packed BCD bytes each on their own; AC is the carry of the ones. -/
theorem addc_packed {x y c : Nat} {v : Byte} {s t : State}
    (ha : s.a.toNat = x / 10 * 16 + x % 10) (hv : v.toNat = y / 10 * 16 + y % 10) (h : SumInA v c s t) :
    t.a.toNat = ((x / 10 + y / 10) * 16 + (x % 10 + y % 10 + c)) % 256 ∧
      t.ac = decide (x % 10 + y % 10 + c > 15) ∧
      t.cy = decide ((x / 10 + y / 10) * 16 + (x % 10 + y % 10 + c) > 255) := by
  obtain ⟨-, value, cy, ac, -⟩ := h
  have whole : s.a.toNat + v.toNat + c = (x / 10 + y / 10) * 16 + (x % 10 + y % 10 + c) := by omega
  have ones : s.a.toNat % 16 + v.toNat % 16 + c = x % 10 + y % 10 + c := by omega
  rw [whole] at value cy
  rw [ones] at ac
  exact ⟨value, ac, cy⟩

/-- Settles O17, from the digit sums that ADDC A,#data leaves and the adjustment of digit sums. -/
theorem decimalAdditionOfPackedBcdIsExact : Obligations.DecimalAdditionOfPackedBcdIsExact := by
  intro x y s hx hy ha
  obtain ⟨-, completes⟩ := addcAddsTheCarryIn (.imm (BitVec.ofNat 8 (y / 10 * 16 + y % 10))) s
  obtain ⟨t, ht, sum, -⟩ := completes _ rfl
  have carryIn : (if s.cy then 1 else 0) < 2 := by split <;> decide
  obtain ⟨value, ac, cy⟩ := addc_packed ha (toNat_ofNat_packed hy) sum
  generalize (if s.cy then 1 else 0) = c at value ac cy carryIn ⊢
  have adjusted := decimalAdjust_digit_sums (by omega) (by omega) value ac cy
  obtain ⟨tens, ones, hundreds⟩ := digits_add x y c
  refine ⟨t, _, ht, exec_daA t, ?digits, ?hundreds⟩
  case digits =>
    rw [advance_a, setCy_a, adjusted, BitVec.toNat_ofNat, tens, ones]
    omega
  case hundreds => rw [cy_advance, cy_setCy, adjusted, decide_eq_decide, hundreds]

end Sys2Proof.Proofs.DecimalAddition

/-! SUPPORT. The rules of 30_encoding.md: the encoder and the decoder are inverse to each other, row by row of the table
of rule R99, every first byte but one selects one row, and two encodings are excluded. -/

namespace Sys2Proof.Proofs.Encoding

open Sys2Proof.Machine Sys2Proof.Laws Sys2Proof.Proofs.Arithmetic Sys2Proof.Proofs.DataTransfer
  Sys2Proof.Proofs.ProgramControl

/-! ### The decoder on bytes of the right number (rules R90, R103) -/

/-- Where as many bytes follow as the first byte asks for, the decoder is the table's row and leaves the bytes after
it. -/
theorem decode_cons_append {op : Byte} {operands : List Byte} {i : Instr} (rest : List Byte)
    (hlen : opLength op = some (operands.length + 1))
    (hform : decodeForm op ((operands ++ rest).getD 0 0) ((operands ++ rest).getD 1 0) = .ok i) :
    decode (op :: operands ++ rest) = .ok (i, rest) := by
  have enough : ¬ (operands ++ rest).length + 1 < operands.length + 1 := by
    rw [List.length_append]
    omega
  rw [List.cons_append, decode]
  simp only [hlen, if_neg enough, hform, Nat.add_sub_cancel, List.drop_left]

/-- All that a successful decoding says: a first byte with enough bytes after it, and what its row makes of them. -/
theorem decode_eq_ok {bytes rest : List Byte} {i : Instr} (h : decode bytes = .ok (i, rest)) :
    ∃ op operands n, bytes = op :: operands ∧ opLength op = some n ∧ n ≤ operands.length + 1 ∧
      decodeForm op (operands.getD 0 0) (operands.getD 1 0) = .ok i ∧ rest = operands.drop (n - 1) := by
  cases bytes with
  | nil => cases h
  | cons op operands =>
    rw [decode] at h
    split at h
    · cases h
    · rename_i n hlen
      split at h
      · cases h
      · split at h
        · cases h
        · rename_i j hform
          cases h
          exact ⟨op, operands, n, rfl, hlen, by omega, hform, rfl⟩

/-- All that a row answers: it is the one that the first byte selects, and the instruction is well formed. -/
theorem decodeForm_eq_ok {op b2 b3 : Byte} {i : Instr} (h : decodeForm op b2 b3 = .ok i) :
    ∃ r, findRow op = some r ∧ i = r.build op b2 b3 ∧ i.wf = true := by
  unfold decodeForm at h
  split at h
  · cases h
  · rename_i r hr
    split at h
    · rename_i hwf
      cases h
      exact ⟨r, hr, rfl, hwf⟩
    · cases h

/-! ### From an instruction to its bytes and back -/

/-- The first byte of the encoding gives its length, and its row makes the instruction of the operand bytes, whatever
stands after them. -/
def DecodesBack (i : Instr) : Prop :=
  ∃ op operands, encode i = op :: operands ∧ opLength op = some (operands.length + 1) ∧
    ∀ rest : List Byte, decodeForm op ((operands ++ rest).getD 0 0) ((operands ++ rest).getD 1 0) = .ok i

theorem decodesBack_movADirect {d : Byte} (h : (Instr.movADirect d).wf = true) : DecodesBack (.movADirect d) :=
  ⟨0xE5, [d], rfl, rfl, fun _ => if_pos h⟩

theorem decodeForm_addr16 (h l : Byte) :
    decodeForm 0x90 h l = .ok (.movDptr (h ++ l)) ∧ decodeForm 0x12 h l = .ok (.lcall (h ++ l)) ∧
      decodeForm 0x02 h l = .ok (.ljmp (h ++ l)) := ⟨rfl, rfl, rfl⟩

/-- The two bytes of a word come back as the word that they were taken from (rule R95). -/
theorem decodesBack_word (w : Word) : DecodesBack (.movDptr w) ∧ DecodesBack (.lcall w) ∧ DecodesBack (.ljmp w) := by
  have split : (highByte w ++ lowByte w : Word) = w := append_extract_bytes w
  obtain ⟨load, call, jump⟩ := decodeForm_addr16 (highByte w) (lowByte w)
  rw [split] at load call jump
  exact ⟨⟨0x90, [highByte w, lowByte w], rfl, rfl, fun _ => load⟩,
    ⟨0x12, [highByte w, lowByte w], rfl, rfl, fun _ => call⟩,
    ⟨0x02, [highByte w, lowByte w], rfl, rfl, fun _ => jump⟩⟩

theorem append_extract_page (addr : BitVec 11) : (addr.extractLsb' 8 3 ++ addr.extractLsb' 0 8 : BitVec 11) = addr := by
  apply BitVec.eq_of_toNat_eq
  have bound := addr.isLt
  rw [toNat_append_eq_add]
  simp only [BitVec.extractLsb'_toNat, Nat.shiftRight_eq_div_pow]
  omega

/-- The rows of ACALL and AJMP, whatever stands in the third byte. -/
theorem decodeForm_page (p : BitVec 3) (l b3 : Byte) :
    decodeForm (p ++ (0x11 : BitVec 5)) l b3 = .ok (.acall (p ++ l)) ∧
      decodeForm (p ++ (0x01 : BitVec 5)) l b3 = .ok (.ajmp (p ++ l)) := by
  obtain ⟨page⟩ := p
  fin_cases page <;> exact ⟨rfl, rfl⟩

/-- The page and the byte below it come back as the 11 bits that they were taken from (rule R94). -/
theorem decodesBack_page (addr : BitVec 11) : DecodesBack (.acall addr) ∧ DecodesBack (.ajmp addr) := by
  obtain ⟨p, l, rfl⟩ : ∃ (p : BitVec 3) (l : Byte), addr = p ++ l := ⟨_, _, (append_extract_page addr).symm⟩
  obtain ⟨call, jump⟩ := encode_withPage p l
  obtain ⟨callLength, jumpLength⟩ := opLength_withPage p
  exact ⟨⟨_, _, call, callLength, fun _ => (decodeForm_page p l _).1⟩,
    ⟨_, _, jump, jumpLength, fun _ => (decodeForm_page p l _).2⟩⟩

/-- Every well-formed instruction is what its encoding's row makes of its operand bytes; the register number, the word
and the page are the operands that share a byte or take two. -/
theorem decodesBack_of_wf (i : Instr) (h : i.wf = true) : DecodesBack i := by
  cases i with
  | movADirect d => exact decodesBack_movADirect h
  | movDptr w => exact (decodesBack_word w).1
  | lcall w => exact (decodesBack_word w).2.1
  | ljmp w => exact (decodesBack_word w).2.2
  | acall addr => exact (decodesBack_page addr).1
  | ajmp addr => exact (decodesBack_page addr).2
  | addRn n | addcRn n | subbRn n | incRn n | decRn n | anlARn n | orlARn n | xrlARn n | movARn n | movRnA n
  | movRnDirect n _ | movRnImm n _ | movDirectRn n _ | xchRn n | cjneRnImm n _ _ | djnzRn n _ =>
    fin_cases n <;> exact ⟨_, _, rfl, rfl, fun _ => rfl⟩
  | addInd i | addcInd i | subbInd i | incInd i | decInd i | anlAInd i | orlAInd i | xrlAInd i | movAInd i
  | movDirectInd i _ | movIndA i | movIndDirect i _ | movIndImm i _ | movxAInd i | movxIndA i | xchInd i | xchd i
  | cjneIndImm i _ _ =>
    fin_cases i <;> exact ⟨_, _, rfl, rfl, fun _ => rfl⟩
  | _ => exact ⟨_, _, rfl, rfl, fun _ => rfl⟩

theorem decode_encode_append {i : Instr} (h : i.wf = true) (rest : List Byte) :
    decode (encode i ++ rest) = .ok (i, rest) := by
  obtain ⟨op, operands, bytes, length, row⟩ := decodesBack_of_wf i h
  rw [bytes]
  exact decode_cons_append rest length (row rest)

theorem length_encode (i : Instr) : (encode i).length = i.len := by
  cases i <;> rfl

/-- Settles O53: the bytes of a well-formed instruction select its row, and the row gives back its operands. -/
theorem decodeInvertsEncode : Obligations.DecodeInvertsEncode := by
  intro i rest h
  exact ⟨decode_encode_append h rest, length_encode i⟩

/-! ### From bytes to an instruction and back -/

/-- A claim about every row of the table, as one about each row of its five parts. -/
theorem forall_mem_opTable {P : OpRow → Prop} :
    (∀ r ∈ opTable, P r) ↔ (∀ r ∈ arithmeticRows, P r) ∧ (∀ r ∈ logicRows, P r) ∧ (∀ r ∈ transferRows, P r) ∧
      (∀ r ∈ booleanRows, P r) ∧ ∀ r ∈ controlRows, P r := by
  simp only [opTable, List.forall_mem_append, and_assoc]

/-- The first byte of what a row makes: its pattern, with the register number, the page or nothing in the bits that its
mask leaves free (rules R93, R94). -/
def firstByte (r : OpRow) (op b2 : Byte) : Byte :=
  if r.mask = 0xF8 then opWithReg r.pattern (regField op)
  else if r.mask = 0xFE then opWithInd r.pattern (indField op)
  else if r.mask = 0x1F then opWithPage r.pattern (addr11Field op b2)
  else r.pattern

/-- A row makes an instruction whose encoding is the row's first byte and the operand bytes that it used. -/
def EncodesBack (r : OpRow) : Prop :=
  ∀ op b2 b3, encode (r.build op b2 b3) = [firstByte r op b2, b2, b3].take r.len

theorem encodesBack_word :
    EncodesBack ⟨0xFF, 0x90, 3, fun _ b2 b3 => .movDptr (b2 ++ b3)⟩ ∧
      EncodesBack ⟨0xFF, 0x12, 3, fun _ b2 b3 => .lcall (b2 ++ b3)⟩ ∧
      EncodesBack ⟨0xFF, 0x02, 3, fun _ b2 b3 => .ljmp (b2 ++ b3)⟩ :=
  ⟨fun _ h l => (movDptr_hasEncoding h l).2.1, fun _ h l => (encode_addr16 h l).1, fun _ h l => (encode_addr16 h l).2⟩

theorem encodesBack_page :
    EncodesBack ⟨0x1F, 0x11, 2, fun op b2 _ => .acall (addr11Field op b2)⟩ ∧
      EncodesBack ⟨0x1F, 0x01, 2, fun op b2 _ => .ajmp (addr11Field op b2)⟩ := by
  have low (op b2 : Byte) : (addr11Field op b2).extractLsb' 0 8 = b2 := BitVec.extractLsb'_append_eq_right
  constructor <;> intro op b2 _ <;> rw [encode, low] <;> rfl

/-- Only of a word and of a page are the operands taken apart again; every other row's operands are whole bytes. -/
theorem encodesBack_of_mem : ∀ r ∈ opTable, EncodesBack r := by
  obtain ⟨load, call, jump⟩ := encodesBack_word
  obtain ⟨pageCall, pageJump⟩ := encodesBack_page
  refine forall_mem_opTable.2 ⟨?arithmetic, ?logic, ?transfer, ?boolean, ?control⟩
  case arithmetic =>
    simp only [arithmeticRows, List.forall_mem_cons, List.not_mem_nil, false_implies, implies_true, and_true]
    and_intros <;> intro _ _ _ <;> rfl
  case logic =>
    simp only [logicRows, List.forall_mem_cons, List.not_mem_nil, false_implies, implies_true, and_true]
    and_intros <;> intro _ _ _ <;> rfl
  case transfer =>
    simp only [transferRows, List.forall_mem_cons, List.not_mem_nil, false_implies, implies_true, and_true, load,
      true_and]
    and_intros <;> intro _ _ _ <;> rfl
  case boolean =>
    simp only [booleanRows, List.forall_mem_cons, List.not_mem_nil, false_implies, implies_true, and_true]
    and_intros <;> intro _ _ _ <;> rfl
  case control =>
    simp only [controlRows, List.forall_mem_cons, List.not_mem_nil, false_implies, implies_true, and_true, call, jump,
      pageCall, pageJump, true_and]
    and_intros <;> intro _ _ _ <;> rfl

/-- A row leaves free in the first byte nothing, a register number or a page (rules R93, R94). -/
theorem mask_of_mem : ∀ r ∈ opTable, r.mask = 0xFF ∨ r.mask = 0xF8 ∨ r.mask = 0xFE ∨ r.mask = 0x1F := by
  decide

/-- An instruction has one, two or three bytes (rule R103). -/
theorem len_of_mem : ∀ r ∈ opTable, r.len = 1 ∨ r.len = 2 ∨ r.len = 3 := by
  decide

theorem opWithReg_field : ∀ op : Byte, opWithReg (op &&& 0xF8) (regField op) = op := by
  decide

theorem opWithInd_field : ∀ op : Byte, opWithInd (op &&& 0xFE) (indField op) = op := by
  decide

theorem opWithPage_field (op b2 : Byte) : opWithPage (op &&& 0x1F) (addr11Field op b2) = op := by
  have page : (addr11Field op b2).extractLsb' 8 3 = op.extractLsb' 5 3 := BitVec.extractLsb'_append_eq_left
  have parts : ∀ op : Byte, (op.extractLsb' 5 3 ++ (op &&& 0x1F).extractLsb' 0 5 : Byte) = op := by decide
  rw [opWithPage, page]
  exact parts op

/-- The first byte of what a selected row makes is the byte that selected it. -/
theorem firstByte_of_selects {r : OpRow} {op : Byte} (b2 : Byte) (hr : r ∈ opTable) (h : r.selects op = true) :
    firstByte r op b2 = op := by
  have pattern : op &&& r.mask = r.pattern := beq_iff_eq.1 h
  obtain mask | mask | mask | mask := mask_of_mem r hr
  all_goals
    rw [mask] at pattern
    simp only [firstByte, mask, ← pattern]
  · exact BitVec.and_allOnes
  · exact opWithReg_field op
  · exact opWithInd_field op
  · exact opWithPage_field op b2

theorem findRow_eq_some {op : Byte} {r : OpRow} (h : findRow op = some r) : r ∈ opTable ∧ r.selects op = true :=
  ⟨List.mem_of_find?_eq_some h, List.find?_some (p := fun r : OpRow => r.selects op) h⟩

theorem opLength_eq_some {op : Byte} {n : Nat} (h : opLength op = some n) : n = 1 ∨ n = 2 ∨ n = 3 := by
  obtain ⟨r, hr, rfl⟩ := Option.map_eq_some_iff.1 h
  exact len_of_mem r (findRow_eq_some hr).1

/-- What the table makes of a first byte and two bytes after it is encoded in as many of them as it used. -/
theorem encode_of_decodeForm {op b2 b3 : Byte} {i : Instr} {n : Nat} (h : decodeForm op b2 b3 = .ok i)
    (hlen : opLength op = some n) : encode i = [op, b2, b3].take n ∧ i.wf = true := by
  obtain ⟨r, hr, rfl, hwf⟩ := decodeForm_eq_ok h
  obtain ⟨mem, selected⟩ := findRow_eq_some hr
  have length : r.len = n := Option.some.inj ((congrArg (Option.map OpRow.len) hr).symm.trans hlen)
  refine ⟨?bytes, hwf⟩
  case bytes => rw [encodesBack_of_mem r mem, firstByte_of_selects b2 mem selected, length]

/-- The bytes that an instruction was made of, followed by those left, are the bytes before the decoding. -/
theorem take_getD_append_drop (op : Byte) (operands : List Byte) {n : Nat} (hn : n = 1 ∨ n = 2 ∨ n = 3)
    (enough : n ≤ operands.length + 1) :
    [op, operands.getD 0 0, operands.getD 1 0].take n ++ operands.drop (n - 1) = op :: operands := by
  match operands with
  | [] =>
    obtain rfl : n = 1 := by simp at enough; omega
    rfl
  | [b2] =>
    obtain rfl | rfl : n = 1 ∨ n = 2 := by simp at enough; omega
    all_goals rfl
  | b2 :: b3 :: _ => obtain rfl | rfl | rfl := hn <;> rfl

/-- Settles O54: the row that the first byte selects makes an instruction that is encoded in the bytes it took. -/
theorem encodeInvertsDecode : Obligations.EncodeInvertsDecode := by
  intro bytes rest i h
  obtain ⟨op, operands, n, rfl, hlen, enough, hform, rfl⟩ := decode_eq_ok h
  obtain ⟨taken, hwf⟩ := encode_of_decodeForm hform hlen
  refine ⟨?bytes, hwf⟩
  case bytes => rw [taken, take_getD_append_drop op operands (opLength_eq_some hlen) enough]

/-! ### The table and the two excluded encodings (rules R98, R100, R101) -/

/-- Settles O52: which row each first byte selects is a matter of the table alone. -/
theorem everyFirstByteButA5HSelectsOneForm : Obligations.EveryFirstByteButA5HSelectsOneForm := by
  have one : ∀ op : Byte, (opTable.filter fun r => r.selects op).length = if op = 0xA5 then 0 else 1 := by decide
  exact ⟨rfl, one, rfl, rfl, rfl, rfl, rfl, rfl, rfl⟩

end Sys2Proof.Proofs.Encoding

/-! SUPPORT. The access rules of 20_memory.md R65 to R72 and R81 with 10_state.md R26, R30 and R35: direct addresses and
what they name, the parity bit, bit addresses, the stack and the working registers, and the statements settled with
them. -/

namespace Sys2Proof.Proofs.DirectAccess

open Sys2Proof.Machine Sys2Proof.Laws Sys2Proof.Proofs.InternalRam Sys2Proof.Proofs.Arithmetic
  Sys2Proof.Proofs.ProgramControl

/-! ### The registers of the platform (rule R81) -/

/-- The ten addresses of 10_state.md rule R30 are all that the core has. -/
theorem coreSfr_eq_none {d : Byte} (h : d ∉ [(0x80 : Byte), 0x81, 0x82, 0x83, 0x90, 0xA0, 0xB0, 0xD0, 0xE0, 0xF0]) :
    coreSfr d = none := by
  revert d
  decide

/-- From 80H on, an address that is no core register's is the platform's. -/
theorem direct_eq_device {d : Byte} (hd : 0x80 ≤ d.toNat) (hc : coreSfr d = none) (v : Byte) (s : State) :
    directRead d s = deviceRead d s ∧ directReadRmw d s = deviceReadLatch d s ∧
      directWrite d v s = deviceWrite d v s := by
  have above : ¬ d.toNat < 0x80 := Nat.not_lt.2 hd
  refine ⟨?read, ?latch, ?write⟩
  case read => rw [directRead, if_neg above, sfrRead, hc]
  case latch => rw [directReadRmw, if_neg above, sfrReadLatch, hc]
  case write => rw [directWrite, if_neg above, sfrWrite, hc]

theorem device_refuses {d : Byte} {s : State} (h : findDevice d s = none) (v : Byte) :
    deviceRead d s = .refused (.noSuchSfr d) ∧ deviceReadLatch d s = .refused (.noSuchSfr d) ∧
      deviceWrite d v s = .refused (.noSuchSfr d) := by
  refine ⟨?read, ?latch, ?write⟩
  case read => rw [deviceRead, h]
  case latch => rw [deviceReadLatch, h]
  case write => rw [deviceWrite, h]

/-- What a register of the platform answers and does, by its kind. -/
theorem device_answers {d : Byte} {r : DeviceReg} {s : State} (h : findDevice d s = some r) (v : Byte) :
    (r.kind = .register → deviceRead d s = .next r.latch ∧ deviceReadLatch d s = .next r.latch) ∧
      (r.kind = .port → deviceRead d s = .next r.input ∧ deviceReadLatch d s = .next r.latch) ∧
      (r.kind = .oracle → (∃ x, deviceRead d s = .next x) ∧ (∃ x, deviceReadLatch d s = .next x) ∧
        deviceWrite d v s = .next { s with busLog := .sfr d v :: s.busLog }) := by
  simp only [deviceRead, deviceReadLatch, deviceWrite, h]
  cases r.kind <;> simp

/-- Settles O2: the core's ten addresses by their table, every other one by the platform's list. -/
theorem directAddressesReachRamBelow80HAndRegistersAbove :
    Obligations.DirectAddressesReachRamBelow80HAndRegistersAbove := by
  intro s v
  refine ⟨fun d hd => ⟨if_pos hd, if_pos hd, if_pos hd⟩, ⟨rfl, rfl, rfl⟩, ⟨rfl, rfl, rfl⟩, ⟨rfl, rfl, rfl⟩,
    ⟨rfl, rfl, rfl⟩, ⟨rfl, rfl, rfl⟩, ⟨rfl, rfl, rfl⟩, ⟨rfl, rfl, rfl⟩, ⟨rfl, rfl, rfl⟩, ⟨rfl, rfl, rfl⟩,
    fun d hd hc => ?platform⟩
  case platform =>
    obtain ⟨read, latch, write⟩ := direct_eq_device hd (coreSfr_eq_none hc) v s
    rw [read, latch, write]
    exact ⟨fun absent => device_refuses absent v, fun r hr => device_answers hr v⟩

/-! ### A direct write (rules R67, R81) -/

theorem coreWrite_device (r : CoreSfr) (v : Byte) (s : State) : (coreWrite r v s).device = s.device := by
  cases r <;> rfl

/-- Of the platform's registers a write changes the latch of the one at its address, or none. -/
theorem device_of_directWrite {d v : Byte} {s t : State} (h : directWrite d v s = .next t) :
    t.device = s.device ∨ t.device = setDeviceLatch d v s.device := by
  unfold directWrite sfrWrite at h
  split at h
  · obtain ⟨-, rfl⟩ := iramWrite_eq_next h
    exact .inl rfl
  · split at h
    · cases h
      exact .inl (coreWrite_device _ v s)
    · obtain ⟨r, -, ⟨-, rfl⟩ | ⟨-, rfl⟩⟩ := deviceWrite_eq_next h
      · exact .inr rfl
      · exact .inl rfl

theorem findDevice_of_directWrite {c d v : Byte} {s t : State} (hc : c ≠ d) (h : directWrite d v s = .next t) :
    findDevice c t = findDevice c s := by
  unfold findDevice
  obtain same | latch := device_of_directWrite h
  · rw [same]
  · rw [latch, find_setDeviceLatch, if_neg hc]

/-- A register of the platform that is no oracle answers a latch read with what was last written. -/
theorem directReadRmw_after_directWrite {d v : Byte} {r : DeviceReg} {s t : State} (hd : 0x80 ≤ d.toNat)
    (hc : coreSfr d = none) (hr : findDevice d s = some r) (hk : r.kind ≠ .oracle) (h : directWrite d v s = .next t) :
    directReadRmw d t = .next v ∧ t.busLog = s.busLog := by
  rw [(direct_eq_device hd hc v s).2.2] at h
  obtain ⟨q, hq, ⟨-, rfl⟩ | ⟨oracle, -⟩⟩ := deviceWrite_eq_next h
  case inl =>
    have found : findDevice d { s with device := setDeviceLatch d v s.device } = some { r with latch := v } := by
      rw [findDevice, find_setDeviceLatch, if_pos rfl, ← findDevice, hr, Option.map_some]
    refine ⟨?answers, rfl⟩
    case answers =>
      rw [(direct_eq_device hd hc v _).2.1, deviceReadLatch, found]
      cases kind : r.kind with
      | register => rfl
      | port => rfl
      | oracle => exact absurd kind hk
  case inr =>
    obtain rfl : r = q := Option.some.inj (hr.symm.trans hq)
    exact absurd oracle hk

/-- Settles O3, from the completion of a write to an address that exists and from what it leaves of the platform. -/
theorem directWriteChangesOnlyItsDestination : Obligations.DirectWriteChangesOnlyItsDestination := by
  intro d v s hd
  obtain ⟨t, ht⟩ := directWrite_of_exists v hd
  exact ⟨t, ht, directWrite_eq_next ht, fun c hc => findDevice_of_directWrite hc ht,
    fun r above hc hr hk => directReadRmw_after_directWrite above hc hr hk ht⟩

/-! ### The parity bit (rules R35, R81) -/

/-- Counting the ones of some bits and adding them without carries agree on whether they are odd in number. -/
theorem countP_odd_iff_foldr_xor (p : Nat → Bool) (l : List Nat) :
    l.countP p % 2 = 1 ↔ l.foldr (fun k odd => p k ^^ odd) false = true := by
  induction l with
  | nil => simp
  | cons k l ih =>
    rw [List.countP_cons, List.foldr_cons]
    cases hk : p k with
    | false => simpa using ih
    | true =>
      simp only [if_true, Bool.true_xor, Bool.not_eq_true', ← Bool.not_eq_true, ← ih]
      omega

theorem parity_iff_odd (v : Byte) : parity v = true ↔ ((List.range 8).countP fun k => v.getLsbD k) % 2 = 1 := by
  rw [countP_odd_iff_foldr_xor]
  have order : parity v = (List.range 8).foldr (fun k odd => v.getLsbD k ^^ odd) false := by
    have positions : List.range 8 = [0, 1, 2, 3, 4, 5, 6, 7] := rfl
    simp only [parity, positions, List.foldr_cons, List.foldr_nil, Bool.false_xor, Bool.xor_comm]
  rw [order]

/-- A write to the parity bit writes the PSW back with bit 0 changed and discarded. -/
theorem getLsbD_psw_of_bitWrite_parity {x : Bool} {s u : State} (h : bitWrite 0xD0 x s = .next u) {k : Nat}
    (h1 : 1 ≤ k) (h8 : k < 8) : u.psw.getLsbD k = s.psw.getLsbD k := by
  have written : bitWrite 0xD0 x s = .next { s with psw := withBit (withBit s.pswRead 0 x) 0 false } := rfl
  cases h.symm.trans written
  have low : k ≠ 0 := by omega
  rw [getLsbD_withBit _ _ _ _ h8, if_neg low, getLsbD_withBit _ _ _ _ h8, if_neg low, getLsbD_pswRead _ _ h8,
    if_neg low]

/-- Settles O4: bit 0 is computed at each read and discarded at each write. -/
theorem parityBitFollowsTheAccumulator : Obligations.ParityBitFollowsTheAccumulator := by
  intro s v
  refine ⟨⟨s.pswRead, rfl, rfl, ?parity, ?stored⟩, _, rfl, rfl, ?discarded, ?written, ?bit⟩
  case parity => rw [getLsbD_pswRead _ _ (by decide), if_pos rfl, parity_iff_odd]
  case stored =>
    intro k h1 h8
    rw [getLsbD_pswRead _ _ h8, if_neg (by omega)]
  case discarded =>
    change (withBit v 0 false).getLsbD 0 = false
    rw [getLsbD_withBit _ _ _ _ (by decide), if_pos rfl]
  case written =>
    intro k h1 h8
    change (withBit v 0 false).getLsbD k = v.getLsbD k
    rw [getLsbD_withBit _ _ _ _ h8, if_neg (by omega)]
  case bit => exact fun x u hu k => getLsbD_psw_of_bitWrite_parity hu

/-! ### Bit addresses (rules R69 to R71) -/

/-- The byte that a bit address names a bit of, as a number. -/
theorem toNat_bitByte : ∀ b : Byte,
    (bitByte b).toNat = if b.toNat < 0x80 then 0x20 + b.toNat / 8 else b.toNat / 8 * 8 := by
  decide

theorem bitReadRmw_of_directReadRmw {b v : Byte} {s : State} (h : directReadRmw (bitByte b) s = .next v) :
    bitReadRmw b s = .next (v.getLsbD (bitNumber b)) := by
  rw [bitReadRmw, h, andThen_next]

/-- A bit whose byte can be read the latch way is written by writing the byte back with that bit changed. -/
theorem bitWrite_of_directReadRmw {b v : Byte} {s : State} (x : Bool) (h : directReadRmw (bitByte b) s = .next v) :
    ∃ w t, (∀ k, k < 8 → w.getLsbD k = if k = bitNumber b then x else v.getLsbD k) ∧
      directWrite (bitByte b) w s = .next t ∧ bitWrite b x s = .next t ∧ DirectChange (bitByte b) w s t := by
  obtain ⟨t, ht⟩ := directWrite_of_exists (withBit v (bitNumber b) x) (exists_of_directReadRmw h)
  refine ⟨_, t, fun k hk => getLsbD_withBit v (bitNumber b) k x hk, ht, ?written, directWrite_eq_next ht⟩
  case written => rw [bitWrite, h, andThen_next, ht]

/-- Settles O5, with the location that the statement names being the byte of the bit address. -/
theorem bitAddressesNameOneBitOfOneByte : Obligations.BitAddressesNameOneBitOfOneByte := by
  intro b s loc hloc
  obtain rfl : loc = bitByte b := BitVec.eq_of_toNat_eq (hloc.trans (toNat_bitByte b).symm)
  refine ⟨fun v hv => ?read, fun v hv => ⟨bitReadRmw_of_directReadRmw hv, fun x => bitWrite_of_directReadRmw x hv⟩⟩
  case read =>
    rw [bitRead, hv, andThen_next]
    rfl

/-! ### The stack (rule R72) -/

/-- Settles O6: the cell that a push writes is the one that a pop then reads. -/
theorem pushAndPopMoveTheStackPointerByOne : Obligations.PushAndPopMoveTheStackPointerByOne := by
  intro v s
  refine ⟨fun room => ?push, fun hv => ⟨_, pop_of_read hv, rfl, toNat_byte_sub_one s.sp⟩⟩
  case push =>
    obtain ⟨t, ht, frame, top, others⟩ := push_reads_back v room
    have sp : t.sp = s.sp + 1 := by rw [frame]
    have back : t.sp - 1 = s.sp := by
      rw [sp]
      exact BitVec.add_sub_cancel s.sp 1
    rw [← sp] at frame top others
    refine ⟨t, ht, frame, ?up, top, others, ?popped⟩
    case up => rw [sp, toNat_byte_add_one]
    case popped => rw [pop_of_read top, back]

/-! ### The working registers (10_state.md rule R26) -/

/-- Two working registers of one bank lie in different cells. -/
theorem regCell_ne {m n : RegNo} (h : m ≠ n) (s : State) : regCell m.val s ≠ regCell n.val s := by
  intro same
  have cells := congrArg BitVec.toNat same
  rw [toNat_regCell _ _ m.isLt, toNat_regCell _ _ n.isLt] at cells
  exact h (Fin.ext (by omega))

/-- Settles O7: the bank is not in internal RAM, so a write to it moves no register. -/
theorem workingRegistersLieInTheSelectedBank : Obligations.WorkingRegistersLieInTheSelectedBank := by
  intro n v s
  obtain ⟨t, ht, frame, back, others⟩ := iramWrite_reads_back v (regCell_lt n.val s n.isLt)
  have sameCell (m : RegNo) : regCell m.val t = regCell m.val s := by
    rw [frame]
    rfl
  refine ⟨⟨regCell n.val s, toNat_regCell n.val s n.isLt, rfl⟩, t, ht, frame, ?back, ?registers, ?cells⟩
  case back => rw [regRead, sameCell, back]
  case registers =>
    intro m hm
    rw [regRead, sameCell, others _ (regCell_ne hm s), regRead]
  case cells =>
    intro c hc
    exact others c fun e => hc (e ▸ toNat_regCell n.val s n.isLt)

end Sys2Proof.Proofs.DirectAccess

/-! SUPPORT. The rules of 40_arithmetic.md R144 and R145, of 42_data_transfer.md R199 to R203 and R205 to R207 and of
44_program_control.md R246: DIV AB and DA A, MOVX, PUSH, XCH and JBC, and the statements settled with them. -/

namespace Sys2Proof.Proofs.RemainingForms

open Sys2Proof.Machine Sys2Proof.Laws Sys2Proof.Proofs.InternalRam Sys2Proof.Proofs.Arithmetic Sys2Proof.Proofs.Logic
  Sys2Proof.Proofs.Boolean Sys2Proof.Proofs.ProgramControl Sys2Proof.Proofs.DecimalAddition

/-! ### DIV AB (40_arithmetic.md rule R144) -/

/-- DIV AB completes in every state, OV telling the division by zero; only then are the two bytes not the division's. -/
theorem exec_divAb (s : State) :
    ∃ x y, exec .divAb s = .next (advance 1 (setOv (decide (s.b = 0)) (setCy false { s with a := x, b := y }))) ∧
      (s.b ≠ 0 → x = (divide s.a s.b).1 ∧ y = (divide s.a s.b).2) := by
  change ∃ x y, execDivAb s = _ ∧ _
  unfold execDivAb
  by_cases zero : s.b = 0
  case pos =>
    rw [if_pos zero, decide_eq_true zero]
    exact ⟨_, _, rfl, absurd zero⟩
  case neg =>
    rw [if_neg zero, decide_eq_false zero]
    exact ⟨_, _, rfl, fun _ => ⟨rfl, rfl⟩⟩

theorem divide_spec (a b : Byte) (hb : b ≠ 0) :
    a.toNat = (divide a b).1.toNat * b.toNat + (divide a b).2.toNat ∧ (divide a b).2.toNat < b.toNat := by
  have positive : 0 < b.toNat := Nat.pos_of_ne_zero fun h => hb (BitVec.eq_of_toNat_eq h)
  have quotient : (divide a b).1.toNat = a.toNat / b.toNat := by
    simp only [divide, BitVec.toNat_ofNat]
    exact Nat.mod_eq_of_lt ((Nat.div_le_self _ _).trans_lt a.isLt)
  have remainder : (divide a b).2.toNat = a.toNat % b.toNat := by
    simp only [divide, BitVec.toNat_ofNat]
    exact Nat.mod_eq_of_lt ((Nat.mod_le _ _).trans_lt a.isLt)
  rw [quotient, remainder]
  exact ⟨(Nat.div_add_mod' _ _).symm, Nat.mod_lt _ positive⟩

/-- Setting C and OV keeps the other bits of the PSW. -/
theorem getLsbD_psw_setOv_setCy (o c : Bool) (s : State) {k : Nat} (hk : k < 7) (h2 : k ≠ 2) :
    (setOv o (setCy c s)).psw.getLsbD k = s.psw.getLsbD k := by
  rw [setOv_psw, getLsbD_withBit _ _ _ _ (by omega), if_neg h2, getLsbD_psw_setCy c s k hk]

/-- Settles O15, from the quotient and the remainder and the two flags that are set after them. -/
theorem divLeavesQuotientAndRemainder : Obligations.DivLeavesQuotientAndRemainder := by
  intro s
  obtain ⟨x, y, completes, bytes⟩ := exec_divAb s
  refine ⟨⟨rfl, rfl, rfl, rfl⟩, _, completes, rfl, fun hb => ?division, ?carry, ?overflow, fun k hk h2 => ?others⟩
  case division =>
    obtain ⟨rfl, rfl⟩ := bytes hb
    exact divide_spec s.a s.b hb
  case carry => rw [cy_advance, cy_setOv, cy_setCy]
  case overflow => rw [ov_advance, ov_setOv, decide_eq_true_iff]
  case others => exact getLsbD_psw_setOv_setCy _ _ { s with a := x, b := y } hk h2

/-! ### DA A (40_arithmetic.md rule R145) -/

/-- A step of the adjustment of a byte, with its sum before it is narrowed. -/
theorem daStep_eq_sum (applies : Bool) (addend : Nat) {a : Nat} (ha : a < 256) (c : Bool) :
    daStep applies addend a c =
      ((a + if applies then addend else 0) % 256, c || decide (a + (if applies then addend else 0) > 255)) := by
  cases applies with
  | true => rfl
  | false =>
    have noCarry : ¬ 255 < a := by omega
    simp [daStep, Nat.mod_eq_of_lt ha, noCarry]

/-- The adjustment from its two sums: each is narrowed to a byte, and C is set by the carry out of either. -/
theorem decimalAdjust_of_sums {a : Byte} {ac c : Bool} {low high : Nat}
    (hlow : low = a.toNat + if a.toNat % 16 > 9 ∨ ac = true then 6 else 0)
    (hhigh : high = low % 256 + if low % 256 / 16 > 9 ∨ c = true ∨ low > 255 then 0x60 else 0) :
    decimalAdjust a ac c = (BitVec.ofNat 8 (high % 256), c || decide (low > 255) || decide (high > 255)) := by
  have byte : low % 256 < 256 := Nat.mod_lt _ (by decide)
  simp only [decimalAdjust, daStep_eq_sum _ _ a.isLt, Bool.or_eq_true, decide_eq_true_eq, ← hlow,
    daStep_eq_sum _ _ byte, ← hhigh]

/-- Settles O16: the two sums are those of the two steps of the adjustment. -/
theorem daAdjustsInTwoSteps : Obligations.DaAdjustsInTwoSteps := by
  intro s
  have adjusted := decimalAdjust_of_sums (a := s.a) (ac := s.ac) (c := s.cy) rfl rfl
  refine ⟨⟨rfl, rfl, rfl, rfl⟩, _, exec_daA s, rfl, getLsbD_psw_setCy _ _, _, _, _, rfl, rfl, rfl, ?value, ?carry⟩
  case value =>
    rw [advance_a, setCy_a, adjusted, BitVec.toNat_ofNat]
    exact Nat.mod_mod _ _
  case carry =>
    rw [cy_advance, cy_setCy, adjusted, Bool.or_eq_true, Bool.or_eq_true, decide_eq_true_iff, decide_eq_true_iff,
      or_assoc]

/-! ### MOVX (42_data_transfer.md rules R199 to R202) -/

/-- A byte that external memory answers is put into A, and the P0 latch changes only as the platform says. -/
theorem movxLoad_of_read {x : Res Byte} {v : Byte} {s : State} (h : x = .next v) :
    ∃ p, (andThen x fun v => .next (advance 1 (afterMovx { s with a := v }))) =
        Host.Outcome.next { s with a := v, latch := { s.latch with p0 := p }, pc := s.pc + 1 } ∧
      (s.plat.p0Xbus = .unchanged → p = s.latch.p0) := by
  obtain ⟨p, frame, unchanged⟩ := afterMovx_eq { s with a := v }
  refine ⟨p, ?completes, unchanged⟩
  case completes =>
    rw [h, andThen_next, frame]
    rfl

theorem movx_hasEncoding (i : IndNo) :
    HasEncoding (.movxAInd i) [0xE2 + BitVec.ofNat 8 i.val] 2 ∧
      HasEncoding (.movxIndA i) [0xF2 + BitVec.ofNat 8 i.val] 2 := by
  fin_cases i <;> exact ⟨⟨rfl, rfl, rfl, rfl⟩, ⟨rfl, rfl, rfl, rfl⟩⟩

theorem xRead_of_plainRam {w : Word} {v : Byte} {s : State} (h : s.plat.xdataKind = .plainRam)
    (hv : s.xdata.read w.toNat = some v) : xRead w s = .next v := by
  simp only [xRead, h, hv]

theorem xRead_of_oracle (w : Word) {s : State} (h : s.plat.xdataKind = .oracle) : ∃ x, xRead w s = .next x :=
  ⟨_, by simp only [xRead, h]; rfl⟩

/-- Settles O27, from the load that both reads share. -/
theorem movxReadsExternalDataMemory : Obligations.MovxReadsExternalDataMemory := by
  intro s v
  refine ⟨⟨⟨rfl, rfl, rfl, rfl⟩, movxLoad_of_read⟩,
    fun i => ⟨(movx_hasEncoding i).1, fun r page hr hpage hv => ?indirect⟩,
    fun w => ⟨xRead_of_plainRam, xRead_of_oracle w⟩⟩
  case indirect =>
    obtain rfl := (pageIs_iff page s).1 hpage
    have meaning : exec (.movxAInd i) s =
        andThen (xRead (xPage s ++ r) s) fun v => .next (advance 1 (afterMovx { s with a := v })) := by
      change execMovxAInd i s = _
      rw [execMovxAInd, hr, andThen_next]
    rw [meaning]
    exact movxLoad_of_read hv

/-- A write to external memory: what it changes, by what the platform has there. -/
theorem xWrite_spec (w : Word) (v : Byte) (s : State) :
    xWrite w v s = { s with xdata := (xWrite w v s).xdata, busLog := (xWrite w v s).busLog } ∧
      (s.plat.xdataKind = .plainRam → (xWrite w v s).busLog = s.busLog) ∧
      (s.plat.xdataKind = .oracle →
        (xWrite w v s).xdata = s.xdata ∧ (xWrite w v s).busLog = .xdata w v :: s.busLog) := by
  unfold xWrite
  cases s.plat.xdataKind <;> simp

/-- Settles O28: both forms write A at their address and then leave the P0 latch as any MOVX does. -/
theorem movxWritesExternalDataMemory : Obligations.MovxWritesExternalDataMemory := by
  intro s i
  refine ⟨⟨rfl, rfl, rfl, rfl⟩, (movx_hasEncoding i).2, fun form w address => ?writes⟩
  case writes =>
    have meaning : exec form s = .next (advance 1 (afterMovx (xWrite w s.a s))) := by
      obtain ⟨rfl, rfl⟩ | ⟨rfl, r, page, hr, hpage, rfl⟩ := address
      · rfl
      · obtain rfl := (pageIs_iff page s).1 hpage
        change execMovxIndA i s = _
        rw [execMovxIndA, hr, andThen_next]
    obtain ⟨frame, ram, oracle⟩ := xWrite_spec w s.a s
    obtain ⟨p, after, unchanged⟩ := afterMovx_eq (xWrite w s.a s)
    have samePlat : (xWrite w s.a s).plat = s.plat := by rw [frame]
    have sameLatch : (xWrite w s.a s).latch = s.latch := by rw [frame]
    rw [samePlat, sameLatch] at unchanged
    rw [after] at meaning
    refine ⟨_, meaning, ?onlyMemoryAndP0, unchanged, fun plain => ⟨ram plain, ?back, ?others⟩, oracle⟩
    case onlyMemoryAndP0 =>
      rw [sameLatch, frame]
      rfl
    case back => exact (xRead_after_xWrite w w s.a s plain).trans (if_pos rfl)
    case others => exact fun c hc => (xRead_after_xWrite w c s.a s plain).trans (if_neg hc)

/-! ### PUSH (42_data_transfer.md rule R203) -/

/-- A source that can be read with SP already incremented is pushed. -/
theorem exec_push_of_read {d v : Byte} {s : State} (room : (s.sp + 1).toNat < s.plat.iramSize.count)
    (hv : directRead d { s with sp := s.sp + 1 } = .next v) :
    ∃ t, exec (.push d) s = .next t ∧ t = { s with sp := s.sp + 1, iram := t.iram, pc := s.pc + 2 } ∧
      iramRead (s.sp + 1) t = .next v ∧ ∀ c, c ≠ s.sp + 1 → iramRead c t = iramRead c s := by
  obtain ⟨t, ht, frame, top, others⟩ := push_reads_back v room
  refine ⟨advance 2 t, ?completes, ?frame, top, others⟩
  case completes =>
    change execPush d s = _
    rw [execPush, hv, andThen_next, ht, thenAdvance, andThen_next]
  case frame =>
    rw [frame]
    rfl

/-- Settles O29; PUSH SP is the push whose source is the SP just incremented. -/
theorem pushStoresItsSourceOnTheStack : Obligations.PushStoresItsSourceOnTheStack := by
  intro d v s
  refine ⟨⟨rfl, rfl, rfl, rfl⟩, fun room => ⟨exec_push_of_read room, ?stackPointer⟩⟩
  case stackPointer =>
    obtain ⟨t, ht, -, top, -⟩ := exec_push_of_read (d := 0x81) (v := s.sp + 1) room rfl
    exact ⟨t, ht, top⟩

/-! ### XCH (42_data_transfer.md rules R205 to R207) -/

theorem xchRn_hasEncoding (n : RegNo) : HasEncoding (.xchRn n) [0xC8 + BitVec.ofNat 8 n.val] 1 := by
  fin_cases n <;> exact ⟨rfl, rfl, rfl, rfl⟩

theorem xchInd_hasEncoding (i : IndNo) : HasEncoding (.xchInd i) [0xC6 + BitVec.ofNat 8 i.val] 1 := by
  fin_cases i <;> exact ⟨rfl, rfl, rfl, rfl⟩

/-- The exchange of A with one cell that can be read. -/
theorem exchangeCell_of_read {a v : Byte} {s : State} (hv : iramRead a s = .next v) :
    ∃ t, (andThen (iramRead a s) fun x => andThen (iramWrite a s.a s) fun u => .next (advance 1 { u with a := x })) =
        Host.Outcome.next t ∧
      t = { s with a := v, iram := t.iram, pc := s.pc + 1 } ∧ iramRead a t = .next s.a ∧
      ∀ c, c ≠ a → iramRead c t = iramRead c s := by
  obtain ⟨u, hu, frame, back, others⟩ := iramWrite_reads_back s.a (iramRead_eq_next.1 hv).1
  refine ⟨advance 1 { u with a := v }, ?completes, ?frame, back, others⟩
  case completes => rw [hv, andThen_next, hu, andThen_next]
  case frame =>
    rw [frame]
    rfl

/-- Settles O31; the direct form reads a port's pins and writes its latch through the two direct accesses. -/
theorem xchExchangesAWithItsOperand : Obligations.XchExchangesAWithItsOperand := by
  intro v s
  refine ⟨fun n => ⟨xchRn_hasEncoding n, exchangeCell_of_read⟩,
    fun i => ⟨xchInd_hasEncoding i, fun a ha hv => ?indirect⟩,
    fun d => ⟨⟨rfl, rfl, rfl, rfl⟩, fun hv => ?direct⟩⟩
  case indirect =>
    obtain ⟨t, ht, exchanged⟩ := exchangeCell_of_read hv
    refine ⟨t, ?completes, exchanged⟩
    case completes =>
      change execXchInd i s = _
      rw [execXchInd, ha, andThen_next, ht]
  case direct =>
    obtain ⟨t, ht⟩ := directWrite_of_exists s.a (exists_of_directRead hv)
    have change : DirectChange d s.a s t := directWrite_eq_next ht
    refine ⟨t, ht, change, ?completes⟩
    case completes =>
      change execXchDirect d s = _
      rw [execXchDirect, hv, andThen_next, ht, andThen_next, ← directChange_pc change]
      rfl

/-! ### JBC (44_program_control.md rule R246) -/

/-- Settles O42: a set bit is cleared before the branch, a clear bit is not written. -/
theorem jbcJumpsAndClearsASetBit : Obligations.JbcJumpsAndClearsASetBit := by
  intro b rel s
  refine ⟨⟨rfl, rfl, rfl, rfl⟩, fun set => ?set, fun clear => ?clear⟩
  case set =>
    obtain ⟨u, hu⟩ := bitWrite_of_bitReadRmw false set
    have change : BitChange b false s u := bitChange_of_bitWrite hu
    refine ⟨branchIf true rel 3 u, u, hu, change, ?completes, rfl, ?target⟩
    case completes =>
      change execJbc b rel s = _
      rw [execJbc, set, andThen_next, if_pos rfl, hu, andThen_next]
    case target =>
      rw [← bitChange_pc change]
      exact pcIs_relTarget rel 3 u
  case clear =>
    change execJbc b rel s = _
    rw [execJbc, clear, andThen_next, if_neg Bool.false_ne_true]
    rfl

end Sys2Proof.Proofs.RemainingForms

/-! SUPPORT. The whole machine: what every instruction but RETI keeps (60_exceptions.md rules R263, R269), what each
instruction does to the stored flags (10_state.md rule R37), and the statements settled with them. -/

namespace Sys2Proof.Proofs.EveryInstruction

open Sys2Proof.Machine Sys2Proof.Laws

/-! ### What every instruction but RETI keeps -/

/-- The adder and the subtractor put a result and its flags into the state. -/
theorem alu_eq_next {src : Source} {len : Nat} {s t : State}
    (h : addIntoA src len s = .next t ∨ addcIntoA src len s = .next t ∨ subbIntoA src len s = .next t) :
    ∃ r, t = advance len (applyAlu r s) := by
  obtain h | h | h := h
  all_goals
    obtain ⟨v, -, ht⟩ := onSource_eq_next h
    exact ⟨_, ht⟩

theorem keeps_alu {src : Source} {len : Nat} {s t : State}
    (h : addIntoA src len s = .next t ∨ addcIntoA src len s = .next t ∨ subbIntoA src len s = .next t) :
    Keeps s t := by
  obtain ⟨r, rfl⟩ := alu_eq_next h
  exact (Keeps.applyAlu s r).trans (Keeps.advance _ _)

theorem keeps_setDptr (w : Word) (s : State) : Keeps s (setDptr w s) := Keeps.setDptr s _ _

theorem keeps_indWrite {i : IndNo} {v : Byte} {s t : State} (h : indWrite i v s = .next t) : Keeps s t := by
  obtain ⟨a, -, hw⟩ := andThen_eq_next h
  exact Keeps.iramWrite hw

theorem keeps_subroutineReturn {s t : State} (h : subroutineReturn s = .next t) : Keeps s t := by
  obtain ⟨r, hr, hn⟩ := andThen_eq_next h
  cases hn
  exact (Keeps.popWord hr).trans (Keeps.setPc _ _)

theorem keeps_divAb {s t : State} (h : execDivAb s = .next t) : Keeps s t := by
  have bytes (x y : Byte) (o : Bool) : Keeps s (advance 1 (setOv o (setCy false { s with a := x, b := y }))) :=
    ((((Keeps.setA s x).trans (Keeps.setB _ y)).trans (Keeps.setCy _ _)).trans (Keeps.setOv _ _)).trans
      (Keeps.advance _ _)
  unfold execDivAb at h
  split at h <;> cases h <;> exact bytes _ _ _

/-- MOVC puts a byte into A; the reads of MOVX also leave the P0 latch as the platform says. -/
theorem keeps_loadA {x : Res Byte} {s t : State}
    (h : (andThen x fun v => .next (advance 1 { s with a := v })) = Host.Outcome.next t) : Keeps s t := by
  obtain ⟨v, -, hn⟩ := andThen_eq_next h
  cases hn
  exact (Keeps.setA s v).trans (Keeps.advance _ _)

theorem keeps_movxLoadA {x : Res Byte} {s t : State}
    (h : (andThen x fun v => .next (advance 1 (afterMovx { s with a := v }))) = Host.Outcome.next t) : Keeps s t := by
  obtain ⟨v, -, hn⟩ := andThen_eq_next h
  cases hn
  exact ((Keeps.setA s v).trans (Keeps.afterMovx _)).trans (Keeps.advance _ _)

theorem keeps_movxStore (w : Word) (v : Byte) (s : State) : Keeps s (advance 1 (afterMovx (xWrite w v s))) :=
  ((Keeps.xWrite w v s).trans (Keeps.afterMovx _)).trans (Keeps.advance _ _)

/-- The exchanges write the operand in one state and then put its old byte into A. -/
theorem keeps_writeThenLoadA {x : Res State} {v : Byte} {len : Nat} {s t : State} (hx : ∀ u, x = .next u → Keeps s u)
    (h : (andThen x fun u => .next (advance len { u with a := v })) = Host.Outcome.next t) : Keeps s t := by
  obtain ⟨u, hu, hn⟩ := andThen_eq_next h
  cases hn
  exact ((hx u hu).trans (Keeps.setA u v)).trans (Keeps.advance _ _)

theorem keeps_call {following destination : Word} {s t : State}
    (h : (andThen (pushWord following s) fun u => .next { u with pc := destination }) = Host.Outcome.next t) :
    Keeps s t := by
  obtain ⟨u, hu, hn⟩ := andThen_eq_next h
  cases hn
  exact (Keeps.pushWord hu).trans (Keeps.setPc u destination)

theorem keeps_jumpOnBit {x : Res Bool} {f : Bool → Bool} {rel : Byte} {s t : State}
    (h : (andThen x fun v => .next (branchIf (f v) rel 3 s)) = Host.Outcome.next t) : Keeps s t := by
  obtain ⟨v, -, hn⟩ := andThen_eq_next h
  cases hn
  exact Keeps.branchIf s _ rel 3

theorem keeps_jbc {b rel : Byte} {s t : State} (h : execJbc b rel s = .next t) : Keeps s t := by
  obtain ⟨v, -, hv⟩ := andThen_eq_next h
  cases v with
  | false =>
    cases hv
    exact Keeps.branchIf s false rel 3
  | true =>
    obtain ⟨u, hu, hn⟩ := andThen_eq_next hv
    cases hn
    exact (Keeps.bitWrite hu).trans (Keeps.branchIf u true rel 3)

/-- DJNZ writes its operand in one state and branches from there. -/
theorem keeps_writeThenBranch {x : Res State} {c : Bool} {rel : Byte} {len : Nat} {s t : State}
    (hx : ∀ u, x = .next u → Keeps s u)
    (h : (andThen x fun u => .next (branchIf c rel len u)) = Host.Outcome.next t) : Keeps s t := by
  obtain ⟨u, hu, hn⟩ := andThen_eq_next h
  cases hn
  exact (hx u hu).trans (Keeps.branchIf u c rel len)

/-- One shape at a time: 110 forms keep the interrupt logic, the environment and the invariant's parts. -/
theorem exec_keeps {i : Instr} {s t : State} (hi : i ≠ .reti) (h : exec i s = .next t) : Keeps s t := by
  cases i with dsimp only [exec] at h
  | reti => exact absurd rfl hi
  | addRn _ | addDirect _ | addInd _ | addImm _ => exact keeps_alu (.inl h)
  | addcRn _ | addcDirect _ | addcInd _ | addcImm _ => exact keeps_alu (.inr (.inl h))
  | subbRn _ | subbDirect _ | subbInd _ | subbImm _ => exact keeps_alu (.inr (.inr h))
  | anlARn _ | anlADirect _ | anlAInd _ | anlAImm _ | orlARn _ | orlADirect _ | orlAInd _ | orlAImm _
  | xrlARn _ | xrlADirect _ | xrlAInd _ | xrlAImm _ | movARn _ | movAInd _ | movAImm _ => exact Keeps.intoA h
  | movADirect d =>
    unfold execMovADirect at h
    split at h
    · cases h
    · exact Keeps.intoA h
  | incA | decA | clrA | cplA | rlA | rrA | swapA => exact Keeps.changeA h
  | incRn _ | decRn _ => exact Keeps.changeReg h
  | incInd _ | decInd _ => exact Keeps.changeInd h
  | incDirect _ | decDirect _ | anlDirectA _ | anlDirectImm _ _ | orlDirectA _ | orlDirectImm _ _ | xrlDirectA _
  | xrlDirectImm _ _ => exact Keeps.changeDirect h
  | movRnDirect _ _ | movRnImm _ _ => exact Keeps.moveToReg h
  | movDirectRn _ _ | movDirectDirect _ _ | movDirectInd _ _ | movDirectImm _ _ => exact Keeps.moveToDirect h
  | movIndDirect _ _ | movIndImm _ _ => exact Keeps.moveToInd h
  | movRnA _ => exact Keeps.thenAdvance (fun _ => Keeps.iramWrite) h
  | movDirectA _ => exact Keeps.thenAdvance (fun _ => Keeps.directWrite) h
  | movIndA _ => exact Keeps.thenAdvance (fun _ => keeps_indWrite) h
  | incDptr | movDptr _ =>
    cases h
    exact (keeps_setDptr _ s).trans (Keeps.advance _ _)
  | mulAb =>
    cases h
    exact ((((Keeps.setA s _).trans (Keeps.setB _ _)).trans (Keeps.setCy _ _)).trans (Keeps.setOv _ _)).trans
      (Keeps.advance _ _)
  | divAb => exact keeps_divAb h
  | daA | rlcA | rrcA =>
    cases h
    exact ((Keeps.setA s _).trans (Keeps.setCy _ _)).trans (Keeps.advance _ _)
  | movcDptr | movcPc => exact keeps_loadA h
  | movxADptr => exact keeps_movxLoadA h
  | movxAInd _ =>
    obtain ⟨r, -, hr⟩ := andThen_eq_next h
    exact keeps_movxLoadA hr
  | movxDptrA =>
    cases h
    exact keeps_movxStore _ _ s
  | movxIndA _ =>
    obtain ⟨r, -, hr⟩ := andThen_eq_next h
    cases hr
    exact keeps_movxStore _ _ s
  | push _ =>
    obtain ⟨v, -, hv⟩ := andThen_eq_next h
    exact Keeps.thenAdvance (fun _ => Keeps.push) hv
  | pop _ =>
    obtain ⟨r, hr, hw⟩ := andThen_eq_next h
    exact (Keeps.pop hr).trans (Keeps.thenAdvance (fun _ => Keeps.directWrite) hw)
  | xchRn _ =>
    obtain ⟨v, -, hv⟩ := andThen_eq_next h
    exact keeps_writeThenLoadA (fun _ => Keeps.iramWrite) hv
  | xchDirect _ =>
    obtain ⟨v, -, hv⟩ := andThen_eq_next h
    exact keeps_writeThenLoadA (fun _ => Keeps.directWrite) hv
  | xchInd _ | xchd _ =>
    obtain ⟨a, -, ha⟩ := andThen_eq_next h
    obtain ⟨v, -, hv⟩ := andThen_eq_next ha
    exact keeps_writeThenLoadA (fun _ => Keeps.iramWrite) hv
  | clrC | setbC | cplC =>
    cases h
    exact (Keeps.setCy s _).trans (Keeps.advance _ _)
  | clrBit _ | setbBit _ | movBitC _ => exact Keeps.writeBit h
  | cplBit _ =>
    obtain ⟨v, -, hv⟩ := andThen_eq_next h
    exact Keeps.writeBit hv
  | anlCBit _ | anlCNotBit _ | orlCBit _ | orlCNotBit _ | movCBit _ => exact Keeps.bitIntoC h
  | acall _ | lcall _ => exact keeps_call h
  | ret => exact keeps_subroutineReturn h
  | ajmp _ | ljmp _ | sjmp _ | jmpADptr =>
    cases h
    exact Keeps.setPc s _
  | jz _ | jnz _ | jc _ | jnc _ =>
    cases h
    exact Keeps.branchIf s _ _ _
  | jb _ _ => exact keeps_jumpOnBit (f := id) h
  | jnb _ _ => exact keeps_jumpOnBit (f := not) h
  | jbc _ _ => exact keeps_jbc h
  | cjneAImm _ _ => exact Keeps.compareJump h
  | cjneADirect _ _ | cjneRnImm _ _ _ | cjneIndImm _ _ _ =>
    obtain ⟨v, -, hv⟩ := andThen_eq_next h
    exact Keeps.compareJump hv
  | djnzRn _ _ =>
    obtain ⟨v, -, hv⟩ := andThen_eq_next h
    exact keeps_writeThenBranch (fun _ => Keeps.iramWrite) hv
  | djnzDirect _ _ =>
    obtain ⟨v, -, hv⟩ := andThen_eq_next h
    exact keeps_writeThenBranch (fun _ => Keeps.directWrite) hv
  | nop =>
    cases h
    exact Keeps.advance s 1

/-- All that any form does to the interrupt logic: nothing, or what RETI does after the return. -/
theorem exec_keeps_or_reti {i : Instr} {s t : State} (h : exec i s = .next t) :
    i ≠ .reti ∧ Keeps s t ∨
      i = .reti ∧ ∃ u, Keeps s u ∧ t = { u with inService := removeHighest u.inService, retiShadow := true } := by
  by_cases hi : i = .reti
  case pos =>
    subst hi
    obtain ⟨u, hu, hn⟩ := andThen_eq_next (show interruptReturn s = .next t from h)
    cases hn
    exact .inr ⟨rfl, u, keeps_subroutineReturn hu, rfl⟩
  case neg => exact .inl ⟨hi, exec_keeps hi h⟩

/-- Settles O60, from the two things that a form can do to the interrupt logic. -/
theorem onlyRetiTouchesTheInterruptLogic : Obligations.OnlyRetiTouchesTheInterruptLogic := by
  intro i s t h
  obtain ⟨hi, k⟩ | ⟨hi, u, k, rfl⟩ := exec_keeps_or_reti h
  · exact ⟨fun _ => ⟨k.inService, k.retiShadow⟩, k.pins, k.requests, k.code, k.plat, k.inputs, k.draws⟩
  · exact ⟨fun other => absurd hi other, k.pins, k.requests, k.code, k.plat, k.inputs, k.draws⟩

/-! ### What each instruction does to the stored flags (10_state.md rule R37) -/

/-- What becomes of the PSW by the effect that the table gives a form. -/
def PswChange (e : PswEffect) (s t : State) : Prop :=
  match e with
  | .keeps => t.psw = s.psw
  | .writesC => ∃ c, t.psw = withBit s.psw 7 c
  | .writesCAndOv => ∃ c o, t.psw = withBit (withBit s.psw 7 c) 2 o
  | .writesCAcOv => ∃ c ac o, t.psw = withBit (withBit (withBit s.psw 7 c) 6 ac) 2 o
  | .directDest d => d ≠ 0xD0 → t.psw = s.psw
  | .bitDest b => b &&& 0xF8 ≠ 0xD0 → t.psw = s.psw

theorem psw_of_cellWritten {a v : Byte} {len : Nat} {s t : State} (h : CellWritten a v len s t) : t.psw = s.psw := by
  obtain ⟨frame, -, -⟩ := h
  rw [frame]

theorem psw_of_iramWrite {a v : Byte} {s t : State} (h : iramWrite a v s = .next t) : t.psw = s.psw := by
  obtain ⟨-, rfl⟩ := iramWrite_eq_next h
  rfl

theorem psw_coreWrite {r : CoreSfr} (v : Byte) (s : State) (hr : r ≠ .psw) : (coreWrite r v s).psw = s.psw := by
  cases r with
  | psw => exact absurd rfl hr
  | _ => rfl

theorem coreSfr_ne_psw {d : Byte} (hd : d ≠ 0xD0) : coreSfr d ≠ some .psw := by
  revert d
  decide

/-- Only the direct address D0H names the PSW. -/
theorem psw_of_directWrite {d v : Byte} {s t : State} (hd : d ≠ 0xD0) (h : directWrite d v s = .next t) :
    t.psw = s.psw := by
  have change := directWrite_eq_next h
  unfold DirectChange at change
  split at change
  · obtain ⟨frame, -, -⟩ := change
    rw [frame]
  · split at change
    · rename_i r hr
      rw [change, psw_coreWrite v s fun e => coreSfr_ne_psw hd (e ▸ hr)]
    · rw [change]

theorem bitByte_ne_psw {b : Byte} (hb : b &&& 0xF8 ≠ 0xD0) : bitByte b ≠ 0xD0 := by
  revert b
  decide

/-- Only the bit addresses D0H to D7H name bits of the PSW. -/
theorem psw_of_bitWrite {b : Byte} {x : Bool} {s t : State} (hb : b &&& 0xF8 ≠ 0xD0) (h : bitWrite b x s = .next t) :
    t.psw = s.psw := by
  obtain ⟨v, -, hw⟩ := bitWrite_eq_next h
  exact psw_of_directWrite (bitByte_ne_psw hb) hw

theorem psw_afterMovx (s : State) : (afterMovx s).psw = s.psw := by
  obtain ⟨x, frame, -⟩ := afterMovx_eq s
  rw [frame]

theorem psw_xWrite (w : Word) (v : Byte) (s : State) : (xWrite w v s).psw = s.psw := by
  unfold xWrite
  split <;> rfl

theorem psw_of_pushWord {w : Word} {s t : State} (h : pushWord w s = .next t) : t.psw = s.psw := by
  obtain ⟨-, -, rfl⟩ := pushWord_eq_next h
  rfl

theorem psw_of_subroutineReturn {s t : State} (h : subroutineReturn s = .next t) : t.psw = s.psw := by
  obtain ⟨r, hr, hn⟩ := andThen_eq_next h
  obtain ⟨hi, lo, -, -, rfl⟩ := popWord_eq_next hr
  cases hn
  rfl

theorem psw_of_thenAdvance {len : Nat} {x : Res State} {s t : State} (hx : ∀ u, x = .next u → u.psw = s.psw)
    (h : thenAdvance len x = .next t) : t.psw = s.psw := by
  obtain ⟨u, hu, rfl⟩ := thenAdvance_eq_next h
  exact hx u hu

theorem psw_of_jbc {b rel : Byte} {s t : State} (hb : b &&& 0xF8 ≠ 0xD0) (h : execJbc b rel s = .next t) :
    t.psw = s.psw := by
  obtain ⟨v, -, hv⟩ := andThen_eq_next h
  cases v with
  | false =>
    cases hv
    rfl
  | true =>
    obtain ⟨u, hu, hn⟩ := andThen_eq_next hv
    cases hn
    exact (psw_of_bitWrite hb hu :)

/-- One shape at a time: every form changes the PSW as its row of the flag table says. -/
theorem exec_pswChange {i : Instr} {s t : State} (h : exec i s = .next t) : PswChange (pswEffect i) s t := by
  cases i with dsimp only [exec] at h
  | addRn _ | addDirect _ | addInd _ | addImm _ =>
    obtain ⟨r, rfl⟩ := alu_eq_next (.inl h)
    exact ⟨r.cy, r.ac, r.ov, rfl⟩
  | addcRn _ | addcDirect _ | addcInd _ | addcImm _ =>
    obtain ⟨r, rfl⟩ := alu_eq_next (.inr (.inl h))
    exact ⟨r.cy, r.ac, r.ov, rfl⟩
  | subbRn _ | subbDirect _ | subbInd _ | subbImm _ =>
    obtain ⟨r, rfl⟩ := alu_eq_next (.inr (.inr h))
    exact ⟨r.cy, r.ac, r.ov, rfl⟩
  | anlARn _ | anlADirect _ | anlAInd _ | anlAImm _ | orlARn _ | orlADirect _ | orlAInd _ | orlAImm _
  | xrlARn _ | xrlADirect _ | xrlAInd _ | xrlAImm _ | movARn _ | movAInd _ | movAImm _ =>
    obtain ⟨v, -, rfl⟩ := intoA_eq_next h
    rfl
  | movADirect d =>
    unfold execMovADirect at h
    split at h
    · cases h
    · obtain ⟨v, -, rfl⟩ := intoA_eq_next h
      rfl
  | incA | decA | clrA | cplA | rlA | rrA | swapA | incDptr | movDptr _ | ajmp _ | ljmp _ | sjmp _ | jmpADptr
  | jz _ | jnz _ | jc _ | jnc _ | nop =>
    cases h
    rfl
  | incRn _ | decRn _ =>
    obtain ⟨v, -, hw⟩ := changeReg_eq_next h
    exact psw_of_cellWritten hw
  | incInd _ | decInd _ =>
    obtain ⟨a, v, -, -, hw⟩ := changeInd_eq_next h
    exact psw_of_cellWritten hw
  | incDirect _ | decDirect _ | anlDirectA _ | anlDirectImm _ _ | orlDirectA _ | orlDirectImm _ _ | xrlDirectA _
  | xrlDirectImm _ _ =>
    intro hd
    obtain ⟨v, u, -, hw, rfl⟩ := changeDirect_eq_next h
    exact (psw_of_directWrite hd hw :)
  | movRnDirect _ _ | movRnImm _ _ =>
    obtain ⟨v, -, hw⟩ := moveToReg_eq_next h
    exact psw_of_cellWritten hw
  | movDirectRn _ _ | movDirectDirect _ _ | movDirectInd _ _ | movDirectImm _ _ =>
    intro hd
    obtain ⟨v, u, -, hw, rfl⟩ := moveToDirect_eq_next h
    exact (psw_of_directWrite hd hw :)
  | movIndDirect _ _ | movIndImm _ _ =>
    obtain ⟨a, v, -, -, hw⟩ := moveToInd_eq_next h
    exact psw_of_cellWritten hw
  | movRnA _ => exact psw_of_thenAdvance (fun _ => psw_of_iramWrite) h
  | movDirectA _ => exact fun hd => psw_of_thenAdvance (fun _ => psw_of_directWrite hd) h
  | movIndA _ =>
    obtain ⟨u, hu, rfl⟩ := thenAdvance_eq_next h
    obtain ⟨a, -, hw⟩ := andThen_eq_next hu
    exact (psw_of_iramWrite hw :)
  | mulAb =>
    cases h
    exact ⟨_, _, rfl⟩
  | divAb =>
    unfold execDivAb at h
    split at h <;> cases h
    · exact ⟨false, true, rfl⟩
    · exact ⟨false, false, rfl⟩
  | clrC =>
    cases h
    exact ⟨false, rfl⟩
  | setbC =>
    cases h
    exact ⟨true, rfl⟩
  | daA | rlcA | rrcA | cplC | cjneAImm _ _ =>
    cases h
    exact ⟨_, rfl⟩
  | movcDptr | movcPc | jb _ _ | jnb _ _ =>
    obtain ⟨v, -, hn⟩ := andThen_eq_next h
    cases hn
    rfl
  | movxADptr =>
    obtain ⟨v, -, hn⟩ := andThen_eq_next h
    cases hn
    exact (psw_afterMovx { s with a := v } :)
  | movxAInd _ =>
    obtain ⟨r, -, hr⟩ := andThen_eq_next h
    obtain ⟨v, -, hn⟩ := andThen_eq_next hr
    cases hn
    exact (psw_afterMovx { s with a := v } :)
  | movxDptrA =>
    cases h
    exact (psw_afterMovx _).trans (psw_xWrite _ _ s)
  | movxIndA _ =>
    obtain ⟨r, -, hn⟩ := andThen_eq_next h
    cases hn
    exact (psw_afterMovx _).trans (psw_xWrite _ _ s)
  | push _ =>
    obtain ⟨v, -, hv⟩ := andThen_eq_next h
    obtain ⟨u, hu, rfl⟩ := thenAdvance_eq_next hv
    obtain ⟨-, rfl⟩ := push_eq_next hu
    rfl
  | pop _ =>
    intro hd
    obtain ⟨⟨v, u⟩, hr, hw⟩ := andThen_eq_next h
    obtain ⟨-, rfl⟩ := pop_eq_next hr
    obtain ⟨u, hu, rfl⟩ := thenAdvance_eq_next hw
    exact (psw_of_directWrite hd hu :)
  | xchRn _ =>
    obtain ⟨v, -, hv⟩ := andThen_eq_next h
    obtain ⟨u, hu, hn⟩ := andThen_eq_next hv
    cases hn
    exact (psw_of_iramWrite hu :)
  | xchDirect _ =>
    intro hd
    obtain ⟨v, -, hv⟩ := andThen_eq_next h
    obtain ⟨u, hu, hn⟩ := andThen_eq_next hv
    cases hn
    exact (psw_of_directWrite hd hu :)
  | xchInd _ | xchd _ =>
    obtain ⟨a, -, ha⟩ := andThen_eq_next h
    obtain ⟨v, -, hv⟩ := andThen_eq_next ha
    obtain ⟨u, hu, hn⟩ := andThen_eq_next hv
    cases hn
    exact (psw_of_iramWrite hu :)
  | clrBit _ | setbBit _ | movBitC _ => exact fun hb => psw_of_thenAdvance (fun _ => psw_of_bitWrite hb) h
  | cplBit _ =>
    intro hb
    obtain ⟨v, -, hv⟩ := andThen_eq_next h
    exact psw_of_thenAdvance (fun _ => psw_of_bitWrite hb) hv
  | anlCBit _ | anlCNotBit _ | orlCBit _ | orlCNotBit _ | movCBit _ =>
    obtain ⟨v, -, rfl⟩ := bitIntoC_eq_next h
    exact ⟨_, rfl⟩
  | acall _ | lcall _ =>
    obtain ⟨u, hu, hn⟩ := andThen_eq_next h
    cases hn
    exact (psw_of_pushWord hu :)
  | ret => exact psw_of_subroutineReturn h
  | reti =>
    obtain ⟨u, hu, hn⟩ := andThen_eq_next h
    cases hn
    exact (psw_of_subroutineReturn hu :)
  | jbc _ _ => exact fun hb => psw_of_jbc hb h
  | cjneADirect _ _ | cjneRnImm _ _ _ | cjneIndImm _ _ _ =>
    obtain ⟨v, -, hv⟩ := andThen_eq_next h
    cases hv
    exact ⟨_, rfl⟩
  | djnzRn _ _ =>
    obtain ⟨v, -, hv⟩ := andThen_eq_next h
    obtain ⟨u, hu, hn⟩ := andThen_eq_next hv
    cases hn
    exact (psw_of_iramWrite hu :)
  | djnzDirect _ _ =>
    intro hd
    obtain ⟨v, -, hv⟩ := andThen_eq_next h
    obtain ⟨u, hu, hn⟩ := andThen_eq_next hv
    cases hn
    exact (psw_of_directWrite hd hu :)

/-- A bit of the PSW that the effect does not write stays. -/
theorem getLsbD_psw_of_pswChange {e : PswEffect} {s t : State} (h : PswChange e s t) (hn : e.namesPsw = false)
    {k : Nat} (hk : k < 8) (h7 : k = 7 → e.cWritten = false) (h6 : k = 6 → e.acWritten = false)
    (h2 : k = 2 → e.ovWritten = false) : t.psw.getLsbD k = s.psw.getLsbD k := by
  cases e with
  | keeps => rw [show t.psw = s.psw from h]
  | directDest d => rw [show t.psw = s.psw from h (beq_eq_false_iff_ne.1 hn)]
  | bitDest b => rw [show t.psw = s.psw from h (beq_eq_false_iff_ne.1 hn)]
  | writesC =>
    obtain ⟨c, hp⟩ := h
    have n7 : k ≠ 7 := fun e => nomatch h7 e
    rw [hp, getLsbD_withBit _ _ _ _ hk, if_neg n7]
  | writesCAndOv =>
    obtain ⟨c, o, hp⟩ := h
    have n7 : k ≠ 7 := fun e => nomatch h7 e
    have n2 : k ≠ 2 := fun e => nomatch h2 e
    rw [hp, getLsbD_withBit _ _ _ _ hk, if_neg n2, getLsbD_withBit _ _ _ _ hk, if_neg n7]
  | writesCAcOv =>
    obtain ⟨c, ac, o, hp⟩ := h
    have n7 : k ≠ 7 := fun e => nomatch h7 e
    have n6 : k ≠ 6 := fun e => nomatch h6 e
    have n2 : k ≠ 2 := fun e => nomatch h2 e
    rw [hp, getLsbD_withBit _ _ _ _ hk, if_neg n2, getLsbD_withBit _ _ _ _ hk, if_neg n6, getLsbD_withBit _ _ _ _ hk,
      if_neg n7]

/-- Settles O59, from the row of the flag table that each form follows. -/
theorem flagsChangeOnlyAsTheFlagTableSays : Obligations.FlagsChangeOnlyAsTheFlagTableSays := by
  intro i s t h hn
  have bit {k : Nat} := @getLsbD_psw_of_pswChange _ _ _ (exec_pswChange h) hn k
  refine ⟨fun k hk h7 h6 h2 => ?others, fun hc => ?carry, fun ha => ?half, fun ho => ?overflow⟩
  case others => exact bit hk (absurd · h7) (absurd · h6) (absurd · h2)
  case carry => exact bit (by decide) (fun _ => hc) nofun nofun
  case half => exact bit (by decide) nofun (fun _ => ha) nofun
  case overflow => exact bit (by decide) nofun nofun (fun _ => ho)

end Sys2Proof.Proofs.EveryInstruction

/-! SUPPORT. The boundary of 60_exceptions.md rule R264: what the environment changes, what a step then runs, and the statements settled with them. -/

namespace Sys2Proof.Proofs.Boundary

open Sys2Proof.Machine Sys2Proof.Laws Sys2Proof.Proofs.DataTransfer Sys2Proof.Proofs.Encoding
  Sys2Proof.Proofs.EveryInstruction

/-! ### The environment (rules R262, R273, R277) -/

theorem sampleEnvironment_of_nil {s : State} (h : s.inputs = []) : sampleEnvironment s = s := by
  rw [sampleEnvironment, h]

/-- All that one input does, request flags first and device inputs after them. -/
theorem sampleEnvironment_of_cons {e : EnvInput} {es : List EnvInput} {s : State} (h : s.inputs = e :: es) :
    ∃ requests flagged,
      sampleEnvironment s = { s with
        pins := e.pins.getD s.pins, requests := requests, device := flagged.map (applyDeviceInputs e.deviceInputs)
        inputs := es } ∧
      FlagsChanged e.flags s.requests requests s.device flagged ∧ (s.requests.Nodup → requests.Nodup) := by
  obtain ⟨requests, flagged, flags, changed, nodup⟩ := applyFlags_eq e.flags s
  refine ⟨requests, flagged, ?frame, changed, nodup⟩
  case frame =>
    rw [sampleEnvironment, h]
    dsimp only
    rw [applyInput, flags]

/-- An input changes nothing of a register but what its input shows. -/
theorem applyDeviceInputs_frame (news : List (Byte × Byte)) (r : DeviceReg) :
    applyDeviceInputs news r = { r with input := (applyDeviceInputs news r).input } := by
  unfold applyDeviceInputs
  split <;> rfl

theorem input_of_no_news {news : List (Byte × Byte)} {r : DeviceReg} (h : ∀ c ∈ news, c.1 ≠ r.addr) :
    (applyDeviceInputs news r).input = r.input := by
  have absent : (news.find? fun c => c.1 == r.addr) = none :=
    List.find?_eq_none.2 fun c hc => by simpa using h c hc
  rw [applyDeviceInputs, absent]

theorem input_of_first_news {before after : List (Byte × Byte)} {r : DeviceReg} {v : Byte}
    (h : ∀ c ∈ before, c.1 ≠ r.addr) : (applyDeviceInputs (before ++ (r.addr, v) :: after) r).input = v := by
  have first : ((before ++ (r.addr, v) :: after).find? fun c => c.1 == r.addr) = some (r.addr, v) :=
    List.find?_eq_some_iff_append.2 ⟨beq_self_eq_true _, before, after, rfl, fun c hc => by simpa using h c hc⟩
  rw [applyDeviceInputs, first]

/-- Where addresses, kinds and something more stay, addresses and kinds stay. -/
theorem addrKind_of_map {α : Type} {f : DeviceReg → α} {device device' : List DeviceReg}
    (h : device'.map (fun r => (r.addr, r.kind, f r)) = device.map fun r => (r.addr, r.kind, f r)) :
    device'.map (fun r => (r.addr, r.kind)) = device.map fun r => (r.addr, r.kind) := by
  have kept := congrArg (List.map fun x => (x.1, x.2.1)) h
  rw [List.map_map, List.map_map] at kept
  exact kept

theorem addrKind_of_flagsChanged {c : FlagChange} {requests requests' : List Nat} {device device' : List DeviceReg}
    (h : FlagsChanged c requests requests' device device') :
    device'.map (fun r => (r.addr, r.kind)) = device.map fun r => (r.addr, r.kind) := by
  obtain ⟨-, shape, -⟩ := h
  exact addrKind_of_map shape

theorem map_applyDeviceInputs (news : List (Byte × Byte)) (device : List DeviceReg) :
    (device.map (applyDeviceInputs news)).map (fun r => (r.addr, r.kind, r.latch)) =
      device.map fun r => (r.addr, r.kind, r.latch) := by
  rw [List.map_map]
  refine List.map_congr_left fun r _ => ?_
  rw [Function.comp_apply, applyDeviceInputs_frame]

/-- No register and no memory of the core, nor the platform, is the environment's to change. -/
theorem sampleEnvironment_frame (s : State) :
    ∃ pins requests device, sampleEnvironment s = { s with
        pins := pins, requests := requests, device := device, inputs := s.inputs.tail } ∧
      device.map (fun r => (r.addr, r.kind)) = s.device.map (fun r => (r.addr, r.kind)) ∧
      (s.requests.Nodup → requests.Nodup) := by
  cases h : s.inputs with
  | nil => exact ⟨s.pins, s.requests, s.device, by rw [sampleEnvironment_of_nil h, List.tail_nil, ← h], rfl, id⟩
  | cons e es =>
    obtain ⟨requests, flagged, frame, changed, nodup⟩ := sampleEnvironment_of_cons h
    exact ⟨_, _, _, frame,
      (addrKind_of_map (map_applyDeviceInputs e.deviceInputs flagged)).trans (addrKind_of_flagsChanged changed), nodup⟩

/-- Settles O50, from what one input does and from nothing being done when none is scheduled. -/
theorem environmentTouchesNoCoreState : Obligations.EnvironmentTouchesNoCoreState := by
  intro s
  cases h : s.inputs with
  | nil =>
    refine ⟨s.pins, s.requests, s.device, ?frame, fun _ => sampleEnvironment_of_nil h, nofun⟩
    case frame => rw [sampleEnvironment_of_nil h, List.tail_nil, ← h]
  | cons e es =>
    obtain ⟨requests, flagged, frame, changed, -⟩ := sampleEnvironment_of_cons h
    refine ⟨_, _, _, frame, nofun, ?inputs⟩
    case inputs =>
      rintro _ _ ⟨⟩
      refine ⟨rfl, flagged, changed, map_applyDeviceInputs e.deviceInputs flagged, fun k r q hr hq => ?register⟩
      case register =>
        rw [List.getElem?_map, hr] at hq
        obtain rfl : applyDeviceInputs e.deviceInputs r = q := Option.some.inj hq
        refine ⟨input_of_no_news, fun before v after split first => ?first⟩
        case first =>
          rw [split]
          exact input_of_first_news first

@[simp] theorem sampleEnvironment_pc (s : State) : (sampleEnvironment s).pc = s.pc := by
  obtain ⟨_, _, _, frame, -⟩ := sampleEnvironment_frame s
  rw [frame]

@[simp] theorem sampleEnvironment_code (s : State) : (sampleEnvironment s).code = s.code := by
  obtain ⟨_, _, _, frame, -⟩ := sampleEnvironment_frame s
  rw [frame]

@[simp] theorem sampleEnvironment_plat (s : State) : (sampleEnvironment s).plat = s.plat := by
  obtain ⟨_, _, _, frame, -⟩ := sampleEnvironment_frame s
  rw [frame]

@[simp] theorem sampleEnvironment_draws (s : State) : (sampleEnvironment s).draws = s.draws := by
  obtain ⟨_, _, _, frame, -⟩ := sampleEnvironment_frame s
  rw [frame]

@[simp] theorem sampleEnvironment_retiShadow (s : State) : (sampleEnvironment s).retiShadow = s.retiShadow := by
  obtain ⟨_, _, _, frame, -⟩ := sampleEnvironment_frame s
  rw [frame]

/-! ### What a step runs (30_encoding.md rule R91) -/

theorem step_of_runs {s : State} (h : RunsAnInstruction s) : step s = runInstr (beginInstr (sampleEnvironment s)) := by
  obtain ⟨goesOn, notTaken⟩ := h
  rw [step, stepAt, goesOn, notTaken]
  rfl

theorem step_of_accepted {s : State} {src : IrqSource} (goesOn : endOfRun (sampleEnvironment s) = false)
    (taken : acceptedSource (sampleEnvironment s) = some src) : step s = interruptEntry src (sampleEnvironment s) := by
  rw [step, stepAt, goesOn, taken]
  rfl

/-- All that a step that completes can be: an interrupt entry, or one instruction. -/
theorem step_eq_next {s t : State} (h : step s = .next t) :
    (∃ src, acceptedSource (sampleEnvironment s) = some src ∧ interruptEntry src (sampleEnvironment s) = .next t) ∨
      ∃ i, exec i (beginInstr (sampleEnvironment s)) = .next t := by
  unfold step stepAt at h
  split at h
  · cases h
  · split at h
    · rename_i src taken
      exact .inl ⟨src, taken, h⟩
    · unfold runInstr at h
      split at h
      · rename_i i _
        exact .inr ⟨i, h⟩
      · cases h
      · cases h

theorem fetchByte_of_codeAtPc {bytes : List Byte} {s : State} {j : Nat} {v : Byte} (h : CodeAtPc bytes s)
    (hj : bytes[j]? = some v) : fetchByte j s = .next v :=
  codeRead_of_read (h j v hj)

/-- The environment and the beginning of an instruction leave pc and program memory alone. -/
theorem codeAtPc_begin {bytes : List Byte} {s : State} (h : CodeAtPc bytes s) :
    CodeAtPc bytes (beginInstr (sampleEnvironment s)) := by
  intro j v hj
  rw [beginInstr_code, beginInstr_pc, sampleEnvironment_code, sampleEnvironment_pc]
  exact h j v hj

/-- Fetch takes as many bytes as the first one asks for and decodes them. -/
theorem fetchInstr_of_codeAtPc {bytes : List Byte} {i : Instr} {s : State} (hd : decode bytes = .ok (i, []))
    (h : CodeAtPc bytes s) : fetchInstr s = .next i := by
  obtain ⟨op, operands, n, rfl, hlen, enough, hform, left⟩ := decode_eq_ok hd
  have number : operands.length ≤ n - 1 := List.drop_eq_nil_iff.1 left.symm
  have decoded : decodeFetched op (operands.getD 0 0) (operands.getD 1 0) = .next i := by
    rw [decodeFetched, hform]
  rw [fetchInstr, fetchByte_of_codeAtPc (j := 0) h rfl, andThen_next, hlen]
  obtain rfl | rfl | rfl := opLength_eq_some hlen
  · obtain rfl : operands = [] := List.eq_nil_of_length_eq_zero (by omega)
    exact decoded
  · obtain ⟨b2, rfl⟩ : ∃ b2, operands = [b2] := List.length_eq_one_iff.1 (by omega)
    rw [fetchByte_of_codeAtPc (j := 1) h rfl, andThen_next]
    exact decoded
  · obtain ⟨b2, b3, rfl⟩ : ∃ b2 b3, operands = [b2, b3] := List.length_eq_two.1 (by omega)
    rw [fetchByte_of_codeAtPc (j := 1) h rfl, andThen_next, fetchByte_of_codeAtPc (j := 2) h rfl, andThen_next]
    exact decoded

/-- Settles O45, from the fetch of the bytes at pc. -/
theorem stepRunsTheDecodedInstruction : Obligations.StepRunsTheDecodedInstruction := by
  intro s bytes i hd hcode hruns
  rw [step_of_runs hruns, runInstr, fetchInstr_of_codeAtPc hd (codeAtPc_begin hcode), ← sampleEnvironment_draws]
  rfl

/-- Settles O51: A5H selects no row, E5H E0H is ill formed, and fetch passes both refusals on. -/
theorem excludedEncodingsAreRefused : Obligations.ExcludedEncodingsAreRefused := by
  intro rest s
  refine ⟨rfl, ?pair, rfl, fun hruns hcode => ?reserved, fun hruns hcode => ?excluded⟩
  case pair => rfl
  case reserved =>
    have first := fetchByte_of_codeAtPc (j := 0) (codeAtPc_begin hcode) rfl
    rw [step_of_runs hruns, runInstr, fetchInstr, first]
    rfl
  case excluded =>
    have first := fetchByte_of_codeAtPc (j := 0) (codeAtPc_begin hcode) rfl
    have second := fetchByte_of_codeAtPc (j := 1) (codeAtPc_begin hcode) rfl
    rw [step_of_runs hruns, runInstr, fetchInstr, first, andThen_next, second]
    rfl

end Sys2Proof.Proofs.Boundary

/-! SUPPORT. The interrupt logic, 60_exceptions.md rules R264 to R267 with the two returns of 44_program_control.md
rules R234 and R235: the levels in service, which source is taken, entry and return, and the statements settled with
them. -/

namespace Sys2Proof.Proofs.InterruptLogic

open Sys2Proof.Machine Sys2Proof.Laws Sys2Proof.Proofs.ProgramControl Sys2Proof.Proofs.EveryInstruction
  Sys2Proof.Proofs.Boundary

/-! ### The levels in service (10_state.md rule R34) -/

/-- Highest first and each once, as: every level is above all the later ones. -/
theorem levelsDescend_iff_pairwise (l : List Nat) : levelsDescend l = true ↔ l.Pairwise (· > ·) := by
  refine Iff.trans ?chain List.isChain_iff_pairwise
  case chain =>
    induction l with
    | nil => simp [levelsDescend]
    | cons m l ih => cases l <;> simp [levelsDescend, ih]

/-- Of levels that stand highest first the first one is taken out. -/
theorem removeHighest_of_descend {l : List Nat} (h : levelsDescend l = true) : removeHighest l = l.tail := by
  cases l with
  | nil => rfl
  | cons n l => exact (removeHighest_addLevel n l (List.pairwise_cons.1 ((levelsDescend_iff_pairwise _).1 h)).1).2

/-! ### The returns (rules R234, R235, R266) -/

theorem subroutineReturn_of_reads {h l : Byte} {s : State} (hh : iramRead s.sp s = .next h)
    (hl : iramRead (s.sp - 1) s = .next l) : subroutineReturn s = .next { s with sp := s.sp - 2, pc := h ++ l } := by
  have second : pop { s with sp := s.sp - 1 } = .next (l, { s with sp := s.sp - 1 - 1 }) := pop_of_read hl
  have two : s.sp - 1 - 1 = s.sp - 2 := BitVec.sub_sub s.sp 1 1
  rw [subroutineReturn, popWord, pop_of_read hh, andThen_next, second, andThen_next, andThen_next, two]

theorem exec_reti_of_reads {h l : Byte} {s : State} (hh : iramRead s.sp s = .next h)
    (hl : iramRead (s.sp - 1) s = .next l) :
    exec .reti s = .next { s with
      sp := s.sp - 2, pc := h ++ l, inService := removeHighest s.inService, retiShadow := true } := by
  change interruptReturn s = _
  rw [interruptReturn, subroutineReturn_of_reads hh hl, andThen_next]

/-- Settles O37, from the two bytes that a return pops. -/
theorem retPopsTheReturnAddress : Obligations.RetPopsTheReturnAddress := by
  intro h l s
  exact ⟨⟨rfl, rfl, rfl, rfl⟩, subroutineReturn_of_reads⟩

/-- Settles O38: of levels that stand highest first RETI removes the first. -/
theorem retiAlsoLeavesTheHighestLevel : Obligations.RetiAlsoLeavesTheHighestLevel := by
  intro h l s
  refine ⟨⟨rfl, rfl, rfl, rfl⟩, fun hh hl descend => ?completes⟩
  case completes => rw [exec_reti_of_reads hh hl, removeHighest_of_descend descend]

/-! ### Which source is taken (rules R264, R267) -/

theorem mostUrgent_eq_none {l : List IrqSource} : mostUrgent l = none ↔ l = [] := by
  cases l with
  | nil => simp [mostUrgent]
  | cons src rest =>
    simp only [mostUrgent, reduceCtorEq, iff_false]
    split
    · nofun
    · split <;> nofun

/-- The first of the highest level: those before it are lower, those after it are not higher. -/
theorem mostUrgent_eq_some {l : List IrqSource} {src : IrqSource} (h : mostUrgent l = some src) :
    ∃ before after, l = before ++ src :: after ∧ (∀ o ∈ before, o.level < src.level) ∧
      ∀ o ∈ after, o.level ≤ src.level := by
  induction l generalizing src with
  | nil => cases h
  | cons first rest ih =>
    unfold mostUrgent at h
    split at h
    case h_1 alone =>
      cases h
      exact ⟨[], rest, rfl, nofun, by simp [mostUrgent_eq_none.1 alone]⟩
    case h_2 other found =>
      obtain ⟨before, after, rfl, lower, notHigher⟩ := ih found
      split at h
      case isTrue below =>
        cases h
        exact ⟨first :: before, after, rfl, List.forall_mem_cons.2 ⟨below, lower⟩, notHigher⟩
      case isFalse notBelow =>
        cases h
        refine ⟨[], before ++ other :: after, rfl, nofun, ?rest⟩
        case rest =>
          have bound := Nat.le_of_not_lt notBelow
          exact List.forall_mem_append.2 ⟨fun o ho => (Nat.le_of_lt (lower o ho)).trans bound,
            List.forall_mem_cons.2 ⟨bound, fun o ho => (notHigher o ho).trans bound⟩⟩

/-- The machine's test of whether a source could be taken: pending, and above every level in service. -/
def eligible (s : State) (o : IrqSource) : Bool := (s.inService.all fun n => decide (n < o.level)) && isPending o s

theorem eligible_iff (s : State) (o : IrqSource) :
    eligible s o = true ↔ Pending o s ∧ ∀ n ∈ s.inService, n < o.level := by
  rw [eligible, Bool.and_eq_true, isPending_iff, List.all_eq_true, and_comm]
  simp only [decide_eq_true_eq]

theorem candidates_eq_filter (s : State) : candidates s = s.plat.irqSources.filter (eligible s) :=
  List.filter_filter

/-- A split of what a filter leaves comes from a split of the whole list. -/
theorem split_of_filter {α : Type} {p : α → Bool} {l before after : List α} {x : α}
    (h : l.filter p = before ++ x :: after) :
    ∃ before' after', l = before' ++ x :: after' ∧ (∀ o ∈ before', p o = true → o ∈ before) ∧
      ∀ o ∈ after', p o = true → o ∈ after := by
  obtain ⟨l₁, l₂, rfl, rfl, rest⟩ := List.filter_eq_append_iff.1 h
  obtain ⟨skipped, after', rfl, skip, -, rfl⟩ := List.filter_eq_cons_iff.1 rest
  refine ⟨l₁ ++ skipped, after', (List.append_assoc _ _ _).symm, ?before, fun o ho hp => List.mem_filter.2 ⟨ho, hp⟩⟩
  case before =>
    exact List.forall_mem_append.2 ⟨fun o ho hp => List.mem_filter.2 ⟨ho, hp⟩, fun o ho hp => absurd hp (skip o ho)⟩

/-- All that the choice of a source says. -/
theorem acceptedSource_eq_some {s : State} {src : IrqSource} (h : acceptedSource s = some src) :
    s.retiShadow = false ∧ eligible s src = true ∧
      ∃ before after, s.plat.irqSources = before ++ src :: after ∧
        (∀ o ∈ before, eligible s o = true → o.level < src.level) ∧
        ∀ o ∈ after, eligible s o = true → o.level ≤ src.level := by
  unfold acceptedSource at h
  split at h
  case isTrue => cases h
  case isFalse noShadow =>
    obtain ⟨before, after, split, lower, notHigher⟩ := mostUrgent_eq_some h
    rw [candidates_eq_filter] at split
    have mem : src ∈ s.plat.irqSources.filter (eligible s) := by simp [split]
    obtain ⟨before', after', sources, first, last⟩ := split_of_filter split
    exact ⟨Bool.eq_false_of_not_eq_true noShadow, (List.mem_filter.1 mem).2, before', after', sources,
      fun o ho he => lower o (first o ho he), fun o ho he => notHigher o (last o ho he)⟩

theorem acceptedSource_eq_none {s : State} :
    acceptedSource s = none ↔ s.retiShadow = true ∨ ∀ o ∈ s.plat.irqSources, eligible s o = false := by
  unfold acceptedSource
  split
  case isTrue shadow => simp [shadow]
  case isFalse noShadow =>
    rw [mostUrgent_eq_none, candidates_eq_filter, List.filter_eq_nil_iff]
    simp [noShadow]

/-- Settles O47, from the first source of the highest level among those that could be taken. -/
theorem mostUrgentSourceAboveEveryLevelIsAccepted : Obligations.MostUrgentSourceAboveEveryLevelIsAccepted := by
  intro s
  refine ⟨?none, fun src taken => ?some⟩
  case none =>
    have notEligible (o : IrqSource) : eligible s o = false ↔ (Pending o s → ∃ n ∈ s.inService, o.level ≤ n) := by
      rw [← Bool.not_eq_true, eligible_iff]
      push Not
      rfl
    simp only [acceptedSource_eq_none, notEligible]
  case some =>
    obtain ⟨noShadow, isEligible, before, after, sources, lower, notHigher⟩ := acceptedSource_eq_some taken
    obtain ⟨pending, above⟩ := (eligible_iff s src).1 isEligible
    exact ⟨noShadow, pending, above, before, after, sources,
      fun o ho hp ha => lower o ho ((eligible_iff s o).2 ⟨hp, ha⟩),
      fun o ho hp ha => notHigher o ho ((eligible_iff s o).2 ⟨hp, ha⟩)⟩

/-! ### The entry (rule R265) -/

/-- The state of an entry after its push: the level is added, nothing is acknowledged yet. -/
def withLevel (src : IrqSource) (s : State) : State := { s with inService := addLevel src.level s.inService }

/-- Where the address can be pushed the entry completes; requests and bits of registers change as acknowledged. -/
theorem interruptEntry_of_pushWord (src : IrqSource) {s u : State} (h : pushWord s.pc s = .next u) :
    ∃ requests device,
      interruptEntry src s = .next { withLevel src u with requests := requests, device := device, pc := src.vector } ∧
      FlagsChanged (ackChange src (withLevel src u)) u.requests requests u.device device ∧
      (u.requests.Nodup → requests.Nodup) := by
  obtain ⟨requests, device, acknowledged, changed, nodup⟩ :=
    applyFlags_eq (ackChange src (withLevel src u)) (withLevel src u)
  refine ⟨requests, device, ?completes, changed, nodup⟩
  case completes =>
    rw [interruptEntry, h, andThen_next]
    change Host.Outcome.next { acknowledge src (withLevel src u) with pc := src.vector } = _
    rw [acknowledge, acknowledged]

theorem mem_addLevel (n k : Nat) (l : List Nat) : k ∈ addLevel n l ↔ k = n ∨ k ∈ l := by
  induction l with
  | nil => simp [addLevel]
  | cons m l ih =>
    unfold addLevel
    split
    · simp
    · split
      · rename_i same
        simp [same]
      · simp [ih]
        tauto

/-- The change that an acknowledgement makes, by the form that the platform gives it. -/
theorem ackChange_eq (src : IrqSource) (s : State) :
    ackChange src s = match src.ack with
      | .change c => c
      | .board => Config.boardAck src.id s := by
  cases h : src.ack <;> simp [ackChange, h]

/-- Settles O46, from the push of pc, the level that is added and the change that is acknowledged. -/
theorem interruptEntryPushesPcAndGoesToTheVector : Obligations.InterruptEntryPushesPcAndGoesToTheVector := by
  rintro s u src rfl goesOn taken room
  obtain ⟨v, hv, pushed, frame⟩ := pushWord_of_room (sampleEnvironment s).pc room
  obtain ⟨requests, device, entered, changed, -⟩ := interruptEntry_of_pushWord src hv
  refine ⟨_, (step_of_accepted goesOn taken).trans entered, pushed, ?frame, ?levels, ?flags⟩
  case frame =>
    rw [withLevel, frame]
  case levels =>
    have kept : v.inService = (sampleEnvironment s).inService := by rw [frame]
    rw [← kept]
    exact fun n => mem_addLevel src.level n v.inService
  case flags =>
    rw [ackChange_eq] at changed
    rw [frame] at changed ⊢
    exact changed

/-- Where pc has been pushed, taking the two bytes off the stack again gives pc and the old SP. -/
theorem exec_reti_of_addressPushed {w : Word} {s t : State} (h : AddressPushed w s t) :
    exec .reti t =
      .next { t with sp := s.sp, pc := w, inService := removeHighest t.inService, retiShadow := true } := by
  obtain ⟨top, low, high, -⟩ := h
  have below : t.sp - 1 = s.sp + 1 := by
    rw [top]
    bv_omega
  have old : t.sp - 2 = s.sp := by
    rw [top]
    exact BitVec.add_sub_cancel s.sp 2
  rw [← top] at high
  rw [← below] at low
  rw [exec_reti_of_reads high low, append_extract_bytes, old]

/-- Settles O49: the entry leaves the bytes of pc on the stack, and the level that it adds is the highest. -/
theorem retiUndoesInterruptEntry : Obligations.RetiUndoesInterruptEntry := by
  intro s src _ above room
  obtain ⟨v, hv, pushed, frame⟩ := pushWord_of_room s.pc room
  obtain ⟨requests, device, entered, changed, -⟩ := interruptEntry_of_pushWord src hv
  obtain ⟨added, removed⟩ := removeHighest_addLevel src.level s.inService above
  obtain ⟨-, shape, -⟩ := changed
  have levels : removeHighest (addLevel src.level v.inService) = s.inService := by
    rw [frame, added, removed]
  have returned := exec_reti_of_addressPushed (t :=
    { withLevel src v with requests := requests, device := device, pc := src.vector }) pushed
  rw [withLevel] at entered returned
  simp only [levels] at returned
  obtain ⟨-, -, -, others⟩ := pushed
  refine ⟨_, _, entered, returned, ?restored, ?registers, others⟩
  case restored => rw [frame]
  case registers =>
    rw [frame] at shape
    exact shape

/-! ### After a RETI (70_reset_and_hazards.md rule R295) -/

theorem retiShadow_of_exec_reti {s t : State} (h : exec .reti s = .next t) : t.retiShadow = true := by
  obtain ⟨other, -⟩ | ⟨-, u, -, rfl⟩ := exec_keeps_or_reti h
  · exact absurd rfl other
  · rfl

/-- The loop of rule R276 ends a run only where RetiShadow is false. -/
theorem endOfRun_of_retiShadow {s : State} (h : s.retiShadow = true) (hp : s.plat.endOfRun ≠ .board) :
    endOfRun s = false := by
  have noLoop : atSelfLoop s = false := by simp [atSelfLoop, h]
  unfold endOfRun
  split
  · rfl
  · rw [noLoop, Bool.false_and]
  · exact noLoop
  · rename_i board
    exact absurd board hp

/-- Settles O48: RetiShadow holds interrupts off for the step after RETI, and no other form sets it. -/
theorem oneInstructionRunsAfterReti : Obligations.OneInstructionRunsAfterReti := by
  intro s t h
  have shadow : (sampleEnvironment t).retiShadow = true :=
    (sampleEnvironment_retiShadow t).trans (retiShadow_of_exec_reti h)
  have notTaken : acceptedSource (sampleEnvironment t) = none := acceptedSource_eq_none.2 (.inl shadow)
  refine ⟨notTaken, fun noBoard => ⟨endOfRun_of_retiShadow shadow ?platform, notTaken⟩,
    fun bytes i hd hcode goesOn => ?runs⟩
  case platform => rwa [sampleEnvironment_plat]
  case runs =>
    have ran := stepRunsTheDecodedInstruction t bytes i hd hcode ⟨goesOn, notTaken⟩
    exact ⟨ran, fun u hi hu => (exec_keeps hi (ran.symm.trans hu)).retiShadow⟩

end Sys2Proof.Proofs.InterruptLogic

/-! SUPPORT. What every step keeps (20_memory.md rule R80, the invariant of Safety.lean), the state after reset
(10_state.md rules R40, R41), and the statements settled with them. -/

namespace Sys2Proof.Proofs.EveryStep

open Sys2Proof.Machine Sys2Proof.Laws Sys2Proof.Proofs.InternalRam Sys2Proof.Proofs.EveryInstruction
  Sys2Proof.Proofs.Boundary Sys2Proof.Proofs.InterruptLogic

/-! ### Program memory and the platform (rules R33, R80) -/

/-- From s to t program memory, the platform, the schedule of inputs and the shape of the platform's registers stay. -/
def KeepsPlatform (s t : State) : Prop :=
  t.code = s.code ∧ t.plat = s.plat ∧ t.inputs = s.inputs ∧
    t.device.map (fun r => (r.addr, r.kind)) = s.device.map fun r => (r.addr, r.kind)

theorem keepsPlatform_exec {i : Instr} {s t : State} (h : exec i s = .next t) : KeepsPlatform s t := by
  obtain ⟨-, k⟩ | ⟨-, u, k, rfl⟩ := exec_keeps_or_reti h
  all_goals exact ⟨k.code, k.plat, k.inputs, k.device⟩

theorem interruptEntry_eq_next {src : IrqSource} {s t : State} (h : interruptEntry src s = .next t) :
    ∃ u requests device, Keeps s u ∧
      t = { withLevel src u with requests := requests, device := device, pc := src.vector } ∧
      device.map (fun r => (r.addr, r.kind)) = u.device.map (fun r => (r.addr, r.kind)) ∧
      (u.requests.Nodup → requests.Nodup) := by
  obtain ⟨u, hu, -⟩ := andThen_eq_next h
  obtain ⟨requests, device, entered, changed, nodup⟩ := interruptEntry_of_pushWord src hu
  have same := h.symm.trans entered
  exact ⟨u, requests, device, Keeps.pushWord hu, by injection same, addrKind_of_flagsChanged changed, nodup⟩

theorem keepsPlatform_interruptEntry {src : IrqSource} {s t : State} (h : interruptEntry src s = .next t) :
    KeepsPlatform s t := by
  obtain ⟨u, requests, device, k, rfl, shape, -⟩ := interruptEntry_eq_next h
  exact ⟨k.code, k.plat, k.inputs, shape.trans k.device⟩

/-- Settles O58: the environment takes one input, and what follows it keeps program memory and the platform. -/
theorem programMemoryNeverChanges : Obligations.ProgramMemoryNeverChanges := by
  intro s t h
  obtain ⟨pins, requests, device, frame, shape, -⟩ := sampleEnvironment_frame s
  have kept : KeepsPlatform (sampleEnvironment s) t := by
    obtain ⟨src, -, entered⟩ | ⟨i, ran⟩ := step_eq_next h
    · exact keepsPlatform_interruptEntry entered
    · have begun : KeepsPlatform (beginInstr (sampleEnvironment s)) t := keepsPlatform_exec ran
      exact begun
  rw [frame] at kept
  obtain ⟨code, plat, inputs, registers⟩ := kept
  exact ⟨code, plat, inputs, registers.trans shape⟩

/-! ### The invariant -/

/-- The levels in service stand highest first, and they and those of the sources are levels of the platform. -/
theorem levelsWf_iff (s : State) :
    s.levelsWf = true ↔ s.inService.Pairwise (· > ·) ∧ sourcesKeepLevels s.plat = true ∧
      ∀ n ∈ s.inService, n < s.plat.irqLevels := by
  simp only [State.levelsWf, Bool.and_eq_true, levelsDescend_iff_pairwise, List.all_eq_true, decide_eq_true_eq,
    and_assoc]

theorem inv_of_keeps {s t : State} (k : Keeps s t) (h : s.Inv) : t.Inv := by
  obtain ⟨memories, parity, levels, requests⟩ := h
  refine ⟨k.memories memories, k.parity parity, ?levels, k.requests ▸ requests⟩
  case levels => rwa [State.levelsWf, k.inService, k.plat]

theorem inv_sampleEnvironment {s : State} (h : s.Inv) : (sampleEnvironment s).Inv := by
  obtain ⟨memories, parity, levels, nodup⟩ := h
  obtain ⟨pins, requests, device, frame, -, stays⟩ := sampleEnvironment_frame s
  rw [frame]
  exact ⟨memories, parity, levels, stays nodup⟩

/-- Taking a level out of service leaves the others in their order. -/
theorem inv_removeHighest {s : State} (h : s.Inv) :
    ({ s with inService := removeHighest s.inService, retiShadow := true } : State).Inv := by
  obtain ⟨memories, parity, levels, requests⟩ := h
  obtain ⟨descend, sources, bound⟩ := (levelsWf_iff s).1 levels
  exact ⟨memories, parity, (levelsWf_iff _).2 ⟨descend.filter _, sources, fun n hn => bound n (List.mem_filter.1 hn).1⟩,
    requests⟩

theorem inv_exec {i : Instr} {s t : State} (hs : s.Inv) (h : exec i s = .next t) : t.Inv := by
  obtain ⟨-, k⟩ | ⟨-, u, k, rfl⟩ := exec_keeps_or_reti h
  · exact inv_of_keeps k hs
  · exact inv_removeHighest (inv_of_keeps k hs)

/-- A source that is accepted is one of the platform's and is above every level in service. -/
theorem accepted_mem_and_above {s : State} {src : IrqSource} (h : acceptedSource s = some src) :
    src ∈ s.plat.irqSources ∧ ∀ n ∈ s.inService, n < src.level := by
  obtain ⟨-, isEligible, before, after, sources, -, -⟩ := acceptedSource_eq_some h
  exact ⟨by simp [sources], ((eligible_iff s src).1 isEligible).2⟩

/-- An accepted source's level goes first, above all the others and still a level of the platform. -/
theorem inv_interruptEntry {src : IrqSource} {s t : State} (hs : s.Inv) (taken : acceptedSource s = some src)
    (h : interruptEntry src s = .next t) : t.Inv := by
  obtain ⟨mem, above⟩ := accepted_mem_and_above taken
  obtain ⟨u, requests, device, k, rfl, -, stays⟩ := interruptEntry_eq_next h
  obtain ⟨memories, parity, levels, nodup⟩ := inv_of_keeps k hs
  obtain ⟨descend, sources, bound⟩ := (levelsWf_iff u).1 levels
  rw [← k.inService] at above
  rw [← k.plat] at mem
  have added : addLevel src.level u.inService = src.level :: u.inService := (removeHighest_addLevel _ _ above).1
  have level : src.level < u.plat.irqLevels := by
    simpa using List.all_eq_true.1 sources src mem
  refine ⟨memories, parity, (levelsWf_iff _).2 ⟨?descend, sources, ?bound⟩, stays nodup⟩
  case descend =>
    rw [withLevel, added]
    exact List.pairwise_cons.2 ⟨above, descend⟩
  case bound =>
    rw [withLevel, added]
    exact List.forall_mem_cons.2 ⟨level, bound⟩

/-- Settles O55, part by part: the environment, and then an entry or an instruction. -/
theorem invariantIsKeptByEveryStep : Obligations.InvariantIsKeptByEveryStep := by
  intro s t hs h
  obtain ⟨src, taken, entered⟩ | ⟨i, ran⟩ := step_eq_next h
  · exact inv_interruptEntry (inv_sampleEnvironment hs) taken entered
  · have begun : (beginInstr (sampleEnvironment s)).Inv := inv_sampleEnvironment hs
    exact inv_exec begun ran

/-! ### Reset (10_state.md rules R40, R41) -/

/-- Settles O56: no level is in service and nothing requests after reset, so only the memories and the sources count. -/
theorem invariantHoldsAtReset : Obligations.InvariantHoldsAtReset := by
  refine ⟨by decide, fun p hp => ⟨rfl, ?parity, ?levels, List.nodup_nil⟩⟩
  case parity => exact (by decide : (0x00 : Byte).getLsbD 0 = false)
  case levels => exact (levelsWf_iff _).2 ⟨List.Pairwise.nil, hp, nofun⟩

/-- A memory that holds one byte at each of some addresses, and nothing elsewhere. -/
theorem read_map_const (l : List Nat) (v : Byte) (a : Nat) :
    Memory.read (l.map fun a => (a, v)) a = if a ∈ l then some v else none := by
  induction l with
  | nil => rfl
  | cons b l ih => by_cases h : a = b <;> simp [Memory.read, h, ih]

theorem iramRead_reset (c : Byte) :
    iramRead c State.reset = if c.toNat < 0x30 then .next 0x00 else .fault (.unwrittenIram c) := by
  have held : State.reset.iram.read c.toNat = if c.toNat < 0x30 then some 0x00 else none :=
    (read_map_const (List.range 48) 0x00 c.toNat).trans (if_congr List.mem_range rfl rfl)
  split at held
  case isTrue below =>
    rw [if_pos below]
    exact iramRead_eq_next.2 ⟨c.isLt, held⟩
  case isFalse above =>
    rw [if_neg above]
    exact iramRead_of_unwritten c.isLt held

/-- Settles O57: the fields are the record's, and only the cells that the model names hold a value. -/
theorem resetLeavesTheValuesOfR40 : Obligations.ResetLeavesTheValuesOfR40 := by
  refine ⟨fun p => ⟨_, rfl, rfl, rfl, rfl, rfl, rfl, rfl, rfl, rfl, rfl, rfl, ?unwritten⟩, rfl, iramRead_reset⟩
  case unwritten =>
    intro c v h
    exact nomatch (iramRead_eq_next.1 h).2

end Sys2Proof.Proofs.EveryStep
